-- ==== Sys2Proof/Word.lean ====
section
/-! DEFINITION. The word types of the machine (00_scope.md R8, R9; 10_state.md R20). -/

namespace Sys2Proof

/-- An 8-bit guard register, or one byte of the model's memory lists. -/
abbrev Byte := BitVec 8

/-- The 16-bit data word, register and address (N = 16, R8). -/
abbrev Word := BitVec 16

/-- A 32-bit instruction word, product or long address. -/
abbrev Long := BitVec 32

/-- The 40-bit accumulator (2N + G, R9). -/
abbrev Wide := BitVec 40

end Sys2Proof
end

