-- ==== Sys2Proof/Config.lean ====
section
/-! DEFINITION. What an implementation fixes: the platform's memory maps (20_memory.md R68) and the free values,
constants with no body, so that no proof can know one. -/

namespace Sys2Proof

/-- What stands at an address of the X or Y space (R68, R69). `intGlobEn` is the interrupt controller's one named
register (60_exceptions.md R293); `device id` is any other peripheral, `id` telling devices apart (R71). -/
inductive Kind where
  | ram
  | rom
  | device (id : Nat)
  | intGlobEn
  deriving DecidableEq, Repr

/-- What stands at an address of the I space (R68, D21). -/
inductive CodeKind where
  | ram
  | rom
  | device (id : Nat)
  deriving DecidableEq, Repr

/-- The three memory spaces (R60). -/
inductive Space where
  | x
  | y
  | i
  deriving DecidableEq, Repr

/-- What a device sees of the core (R69): a word read or written at one of its addresses, and reset (R321). -/
inductive DeviceEvent where
  | read (id : Nat) (space : Space) (addr : Long)
  | write (id : Nat) (space : Space) (addr : Long) (v : Long)
  | reset
  deriving DecidableEq, Repr

/-- `size` consecutive word addresses of a data space from `base` on. -/
structure Region where
  base : Nat
  size : Nat
  kind : Kind
  deriving DecidableEq, Repr

/-- `size` consecutive word addresses of the I space from `base` on. -/
structure CodeRegion where
  base : Nat
  size : Nat
  kind : CodeKind
  deriving DecidableEq, Repr

/-- The arguments the spec leaves OPEN for a platform (R9, R68): the sets XMEM, YMEM, IMEM of present addresses, each
address with its kind (the first region of the list that holds an address counts), the place of INT_GLOB_EN as a
region of kind `intGlobEn`, the addressing mode mask AMM (42_moves.md R214: bit 0 modulo, bit 1 bit reversal),
RESET_VECTOR (D20) and INT_RESET_DISABLE, the peripheral's disable count after reset (60_exceptions.md R293). -/
structure Platform where
  x : List Region
  y : List Region
  i : List CodeRegion
  amm : BitVec 3
  resetVector : Word
  intResetDisable : Nat
  deriving DecidableEq, Repr

namespace Config

/-- The 16-bit result of an ASHL whose count is out of range (40_alu.md R150: "the result is undefined"; log 7). -/
opaque freeShift16 : Nat → BitVec 16

/-- The 40-bit result of an ASHL whose count is out of range (R150; log 7). -/
opaque freeShift40 : Nat → BitVec 40

/-- V after an ASHL whose count is out of range (R150; log 7). -/
opaque freeShiftV : Nat → Bool

/-- C after an ASHL whose count is out of range (R150; log 7). -/
opaque freeShiftC : Nat → Bool

/-- C after ABS, "an unspecified bit" (40_alu.md R146, parameter ABS_CARRY; log 9). -/
opaque freeAbsCarry : Nat → Bool

/-- The new index register after modulo addressing outside its buffer or with a step larger than the buffer
(42_moves.md R209; log 8). The two arguments tell apart the instruction and its two moves. -/
opaque freeIndex : Nat → Bool → BitVec 16

/-- The word read from INT_GLOB_EN ("an unspecified value", 60_exceptions.md R293; log 6). The two arguments tell apart
the instruction and its two buses. -/
opaque freeRead : Nat → Bool → BitVec 16

/-- The device function of the platform (20_memory.md R68; log 6): the word that device `id` answers to a read of an
address of a space, given all it has seen of the core before, newest first, and the number of the step, since a device
may also change by itself. The low 16 bits answer a read of a data space. -/
opaque deviceWord (id : Nat) (seen : List DeviceEvent) (time : Nat) (space : Space) (addr : Long) : BitVec 32

/-- The byte at a byte address of a space that nothing has written and no initial contents give: "an arbitrary value
chosen once per word" (R72; log 2). -/
opaque unwritten : Space → Nat → BitVec 8

end Config

end Sys2Proof
end

