-- ==== Sys2Proof/Syntax.lean ====
section
/-! DEFINITION. The instructions: one constructor of `Instr` per row of spec/opcode_table.json, and their operands
(30_encoding.md). Log 44 says how the rows of the parallel move field and the alias rows stand here. -/

namespace Sys2Proof

/-- A0 .. D1, by the three-bit code of Table 6 and Table 9 and the 16-bit column of Table 5 (R96, R97, R102). -/
inductive DataReg where
  | a0 | a1 | b0 | b1 | c0 | c1 | d0 | d1
  deriving DecidableEq, Repr

/-- The 40-bit accumulators A, B, C, D (10_state.md R22). -/
inductive AccName where
  | a | b | c | d
  deriving DecidableEq, Repr

/-- I0 .. I7 (10_state.md R28). -/
inductive IndexReg where
  | i0 | i1 | i2 | i3 | i4 | i5 | i6 | i7
  deriving DecidableEq, Repr

/-- The registers of Table 10 (R104). `nop` is code 0b100100, "Move NOP". -/
inductive MoveReg where
  | data (r : DataReg)
  | guard (x : AccName)
  | index (n : IndexReg)
  | lr0 | lr1 | mr0 | null | lc | ls | le | nop | ipr0 | ipr1
  deriving DecidableEq, Repr

/-- The ALU operands of Table 4 (R95). -/
inductive AluOp where
  | reg (r : DataReg)
  | null | ones | p
  | acc (x : AccName)
  deriving DecidableEq, Repr

/-- Multiplier mode mm, Table 7 (R98): the first letter is Op1's signedness. -/
inductive MulMode where
  | ss | su | us | uu
  deriving DecidableEq, Repr

/-- The conditions of Table 1 (R108). -/
inductive Cond where
  | always | cs | es | vs | ns | zs | lt | le | cc | ec | vc | nc | zc | ge | gt
  deriving DecidableEq, Repr

/-- The address mode mm of JMPI (R92): no update, +1, -1. -/
inductive JmpiMode where
  | keep | inc | dec
  deriving DecidableEq, Repr

/-- The two data buses (20_memory.md R60). -/
inductive Bus where
  | x | y
  deriving DecidableEq, Repr

/-- The post-modification pppp (R103): an amount -7..+7 (0: none), or `*`, given by the pair register. -/
inductive PostMod where
  | amount (k : Int)
  | star
  deriving DecidableEq, Repr

/-- A full move field (R101): s, rrr, pppp, RRRRRR. -/
structure FullMove where
  store : Bool
  n : IndexReg
  p : PostMod
  r : MoveReg
  deriving DecidableEq, Repr

/-- A short move field (R102): s, rrr, p, RRR. -/
structure ShortMove where
  store : Bool
  n : IndexReg
  star : Bool
  r : DataReg
  deriving DecidableEq, Repr

/-- The parallel move field of an arithmetic instruction (R100). -/
inductive ParMove where
  | full (b : Bus) (f : FullMove)
  | short (x y : ShortMove)
  | mv (src dst : MoveReg)
  | longX (store : Bool) (n : IndexReg) (r : MoveReg)
  | ibus (store : Bool) (n : IndexReg) (p : PostMod) (x : AccName)
  deriving DecidableEq, Repr

/-- The reserved and unlisted encodings of R111, by the tags of 93_implementation_defined.md section 2. Each is
SAFE: the manual gives no effect, and the model stops. -/
inductive Reserved where
  /-- Opcode 0b1110 (R110). Raised by the decoder. -/
  | opcode1110
  /-- A control code that is not in Table 3 (R110). Raised by the decoder. -/
  | controlCode
  /-- A single-operand code that is not in Table 8 (R110). Raised by the decoder. -/
  | singleOpcode
  /-- ALU operand code 0b1010, or P as Op1 (R132). Raised by the decoder, and by a meaning given P as Op1. -/
  | aluOperand
  /-- A 40-bit result whose AAA is even (R133, R184). Raised by the meaning. -/
  | aluResult40
  /-- ASHL whose Op2 is 40 bits wide (R150). Raised by the meaning. -/
  | ashlOp2Wide
  /-- SAT of a 16-bit operand (R154). Raised by the meaning. -/
  | satOperand16
  /-- RND of a 16-bit operand (R160). Raised by the meaning. -/
  | rndOperand16
  /-- A register code that is not in Table 10 (R216, R217, R268). Raised by the decoder, and by LOOP's meaning
  given a register its five-bit field cannot name. -/
  | moveRegister
  /-- A register move whose source is the move NOP (R216). Raised by the meaning. -/
  | mvSourceNop
  /-- A parallel move field that matches no selector (R224). Raised by the decoder. -/
  | parallelMove
  /-- A condition code that is not in Table 1 (R255). Raised by the decoder. -/
  | conditionCode
  /-- JMPI with mm = 0b10 (R265). Raised by the decoder. -/
  | jmpiMode
  deriving DecidableEq, Repr

/-- The instructions. `m` is the parallel move field. -/
inductive Instr where
  | ldc (c : Word) (r : MoveReg)
  | jr (cond : Cond)
  | jrPage (n : IndexReg) (cond : Cond)
  | reti
  | retiPage (n : IndexReg)
  | resp (op1 op2 : DataReg)
  | loop (count : MoveReg) (addr : Word)
  | jcc (addr : Word) (cond : Cond)
  | callcc (addr : Word) (cond : Cond)
  | jmpi (addr : Word) (mode : JmpiMode) (n : IndexReg)
  | mvDouble (xsrc xdst ysrc ydst : MoveReg)
  | halt
  | moveDouble (x y : FullMove)
  | add (op1 op2 : AluOp) (dst : DataReg) (m : ParMove)
  | sub (op1 op2 : AluOp) (dst : DataReg) (m : ParMove)
  | addc (op1 op2 : AluOp) (dst : DataReg) (m : ParMove)
  | subc (op1 op2 : AluOp) (dst : DataReg) (m : ParMove)
  | ashl (op1 op2 : AluOp) (dst : DataReg) (m : ParMove)
  | and (op1 op2 : AluOp) (dst : DataReg) (m : ParMove)
  | or (op1 op2 : AluOp) (dst : DataReg) (m : ParMove)
  | xor (op1 op2 : AluOp) (dst : DataReg) (m : ParMove)
  | mac (mode : MulMode) (op1 op2 dst : DataReg) (m : ParMove)
  | msu (mode : MulMode) (op1 op2 dst : DataReg) (m : ParMove)
  | abs (op2 : AluOp) (dst : DataReg) (m : ParMove)
  | asr (op2 : AluOp) (dst : DataReg) (m : ParMove)
  | lsr (op2 : AluOp) (dst : DataReg) (m : ParMove)
  | lsrc (op2 : AluOp) (dst : DataReg) (m : ParMove)
  | exp (op2 : AluOp) (dst : DataReg) (m : ParMove)
  | sat (op2 : AluOp) (dst : DataReg) (m : ParMove)
  | rnd (op2 : AluOp) (dst : DataReg) (m : ParMove)
  | nop (m : ParMove)
  | mul (mode : MulMode) (op1 op2 : DataReg) (m : ParMove)
  | not (op2 : AluOp) (dst : DataReg) (m : ParMove)
  | lsl (op2 : AluOp) (dst : DataReg) (m : ParMove)
  | lslc (op2 : AluOp) (dst : DataReg) (m : ParMove)
  | ldx (n : IndexReg) (p : PostMod) (r : MoveReg)
  | stx (n : IndexReg) (p : PostMod) (r : MoveReg)
  | ldy (n : IndexReg) (p : PostMod) (r : MoveReg)
  | sty (n : IndexReg) (p : PostMod) (r : MoveReg)
  | moveShort (x y : ShortMove)
  | mv (src dst : MoveReg)
  | ldxLong (n : IndexReg) (r : MoveReg)
  | stxLong (n : IndexReg) (r : MoveReg)
  | ldi (n : IndexReg) (p : PostMod) (x : AccName)
  | sti (n : IndexReg) (p : PostMod) (x : AccName)
  deriving DecidableEq, Repr

end Sys2Proof
end

