-- ==== Sys2Proof/WellFormed.lean ====
section
/-! DEFINITION. Which terms of `Instr` the encoding tables admit: the checks that span several fields, and the ranges
that the syntax leaves wider than the field (30_encoding.md R82 to R111). -/

namespace Sys2Proof

/-- The 40-bit operands of Table 4: P, A, B, C, D (40_alu.md R131). -/
def AluOp.isWide : AluOp → Bool
  | .reg _ | .null | .ones => false
  | .p | .acc _ => true

/-- The 40-bit column of Table 5: odd codes name A, B, C, D, even codes are reserved (30_encoding.md R96). -/
def DataReg.wideAcc : DataReg → Option AccName
  | .a1 => some .a
  | .b1 => some .b
  | .c1 => some .c
  | .d1 => some .d
  | .a0 | .b0 | .c0 | .d0 => none

/-- An amount of the field pppp lies in -7..+7 (R103). -/
def PostMod.ok : PostMod → Bool
  | .amount k => decide (-7 ≤ k ∧ k ≤ 7)
  | .star => true

/-- A full move field is well formed when its pppp is (R101). -/
def FullMove.ok (f : FullMove) : Bool := f.p.ok

/-- A full move to or from register code 0b100100 is void (42_moves.md R222). -/
def FullMove.isVoid (f : FullMove) : Bool := f.r = .nop

/-- A register move may have the move NOP as its target, and as its source only then (42_moves.md R230; log 33). -/
def moveSourceOk (src dst : MoveReg) : Bool := decide (src ≠ .nop ∨ dst = .nop)

/-- A parallel move field is well formed. -/
def ParMove.ok : ParMove → Bool
  | .full _ f => f.ok
  | .short _ _ => true
  | .mv src dst => moveSourceOk src dst
  | .longX _ _ _ => true
  | .ibus _ _ p _ => p.ok

/-- The field is a full move with the move NOP: no move at all (R100, R222). -/
def ParMove.isVoid : ParMove → Bool
  | .full _ f => f.isVoid
  | .short _ _ | .mv _ _ | .longX _ _ _ | .ibus _ _ _ _ => false

/-- The registers LOOP's five-bit field can name: Table 10 codes whose top bit is 0 (R90). -/
def MoveReg.countable : MoveReg → Bool
  | .data _ | .lr0 | .lr1 | .mr0 | .null | .lc | .ls | .le | .index _ => true
  | .guard _ | .nop | .ipr0 | .ipr1 => false

/-- The result code fits the operation's width: a 40-bit result has an odd AAA (R96, 40_alu.md R133). -/
def resultOk (wide : Bool) (dst : DataReg) : Bool := !wide || dst.wideAcc.isSome

/-- Op1, Op2 and AAA of a two-operand ALU instruction (R83, R95, R96): P only as Op2. -/
def alu2Ok (op1 op2 : AluOp) (dst : DataReg) : Bool :=
  decide (op1 ≠ .p) && resultOk (op1.isWide || op2.isWide) dst

/-- The instruction is one the encoding tables admit. -/
def Instr.wellFormed : Instr → Bool
  | .ldc _ _ => true
  | .jr _ => true
  | .jrPage _ _ => true
  | .reti => true
  | .retiPage _ => true
  | .resp _ _ => true
  | .loop count _ => count.countable
  | .jcc _ _ => true
  | .callcc _ _ => true
  | .jmpi _ _ _ => true
  | .mvDouble xsrc xdst ysrc ydst => moveSourceOk xsrc xdst && moveSourceOk ysrc ydst
  | .halt => true
  | .moveDouble x y => x.ok && y.ok
  | .add op1 op2 dst m => alu2Ok op1 op2 dst && m.ok
  | .sub op1 op2 dst m => alu2Ok op1 op2 dst && m.ok
  | .addc op1 op2 dst m => alu2Ok op1 op2 dst && m.ok
  | .subc op1 op2 dst m => alu2Ok op1 op2 dst && m.ok
  | .ashl op1 op2 dst m => alu2Ok op1 op2 dst && !op2.isWide && m.ok
  | .and op1 op2 dst m => alu2Ok op1 op2 dst && m.ok
  | .or op1 op2 dst m => alu2Ok op1 op2 dst && m.ok
  | .xor op1 op2 dst m => alu2Ok op1 op2 dst && m.ok
  | .mac _ _ _ dst m => resultOk true dst && m.ok
  | .msu _ _ _ dst m => resultOk true dst && m.ok
  | .abs op2 dst m => resultOk op2.isWide dst && m.ok
  | .asr op2 dst m => resultOk op2.isWide dst && m.ok
  | .lsr op2 dst m => resultOk op2.isWide dst && m.ok
  | .lsrc op2 dst m => resultOk op2.isWide dst && m.ok
  | .exp _ _ m => m.ok
  | .sat op2 dst m => op2.isWide && resultOk true dst && m.ok
  | .rnd op2 _ m => op2.isWide && m.ok
  | .nop m => m.isVoid && m.ok
  | .mul _ _ _ m => m.ok
  | .not op2 dst m => resultOk op2.isWide dst && m.ok
  | .lsl op2 dst m => alu2Ok op2 op2 dst && m.ok
  | .lslc op2 dst m => alu2Ok op2 op2 dst && m.ok
  | .ldx _ p r => p.ok && decide (r ≠ .nop)
  | .stx _ p r => p.ok && decide (r ≠ .nop)
  | .ldy _ p r => p.ok && decide (r ≠ .nop)
  | .sty _ p r => p.ok && decide (r ≠ .nop)
  | .moveShort _ _ => true
  | .mv src dst => moveSourceOk src dst
  | .ldxLong _ _ => true
  | .stxLong _ _ => true
  | .ldi _ p _ => p.ok
  | .sti _ p _ => p.ok

/-- The instruction whose words an alias row spells (30_encoding.md R110, R124): LSL is ADD, LSLC is ADDC, NOT is XOR
with ONES. Every other instruction is its own core. -/
def Instr.core : Instr → Instr
  | .not op2 dst m => .xor .ones op2 dst m
  | .lsl op2 dst m => .add op2 op2 dst m
  | .lslc op2 dst m => .addc op2 op2 dst m
  | i => i

end Sys2Proof
end

