-- ==== Sys2Proof/Decode.lean ====
section
/-! DEFINITION. The decoder, total on every 32-bit word, refusing by tag (30_encoding.md R110, R111), and after it the
encoder, written from the same tables (R82 to R108). Ignored bits are not looked at and are written 0 (R112). -/

namespace Sys2Proof

/-- `w[lo+len-1 : lo]` (00_scope.md R10). -/
def bits {n : Nat} (w : BitVec n) (lo len : Nat) : BitVec len := w.extractLsb' lo len

/-! ## Operand tables, code to operand -/

/-- Table 6 and Table 9 (R97, R102), and the 16-bit column of Table 5 (R96). -/
def decodeDataReg (c : BitVec 3) : DataReg :=
  match c.toNat with
  | 0 => .a0 | 1 => .a1 | 2 => .b0 | 3 => .b1 | 4 => .c0 | 5 => .c1 | 6 => .d0 | _ => .d1

/-- The order A, B, C, D (R107, D25; log 27). -/
def decodeAcc (c : BitVec 2) : AccName :=
  match c.toNat with
  | 0 => .a | 1 => .b | 2 => .c | _ => .d

/-- rrr names I0 .. I7 (R101). -/
def decodeIndex (c : BitVec 3) : IndexReg :=
  match c.toNat with
  | 0 => .i0 | 1 => .i1 | 2 => .i2 | 3 => .i3 | 4 => .i4 | 5 => .i5 | 6 => .i6 | _ => .i7

/-- Table 10 (R104); what is not in it is refused (R111). -/
def decodeMoveReg (c : BitVec 6) : Except Reserved MoveReg :=
  let low := bits c 0 3
  match (bits c 3 3).toNat with
  | 0 => .ok (.data (decodeDataReg low))
  | 1 =>
    match low.toNat with
    | 0 => .ok .lr0
    | 1 => .ok .lr1
    | 2 => .ok .mr0
    | 4 => .ok .null
    | 5 => .ok .lc
    | 6 => .ok .ls
    | 7 => .ok .le
    | _ => .error .moveRegister
  | 2 => .ok (.index (decodeIndex low))
  | 4 =>
    match low.toNat with
    | 0 => .ok (.guard .a)
    | 1 => .ok (.guard .b)
    | 2 => .ok (.guard .c)
    | 3 => .ok (.guard .d)
    | 4 => .ok .nop
    | _ => .error .moveRegister
  | 7 =>
    match low.toNat with
    | 6 => .ok .ipr0
    | 7 => .ok .ipr1
    | _ => .error .moveRegister
  | _ => .error .moveRegister

/-- Table 4 for Op2 (R95). -/
def decodeAluOp2 (c : BitVec 4) : Except Reserved AluOp :=
  match c.toNat with
  | 8 => .ok .null
  | 9 => .ok .ones
  | 10 => .error .aluOperand
  | 11 => .ok .p
  | 12 => .ok (.acc .a)
  | 13 => .ok (.acc .b)
  | 14 => .ok (.acc .c)
  | 15 => .ok (.acc .d)
  | _ => .ok (.reg (decodeDataReg (bits c 0 3)))

/-- Table 4 for Op1: P is only available as Op2 (R95, 40_alu.md R132). -/
def decodeAluOp1 (c : BitVec 4) : Except Reserved AluOp :=
  if c.toNat = 11 then .error .aluOperand else decodeAluOp2 c

/-- Table 7 (R98). -/
def decodeMulMode (c : BitVec 2) : MulMode :=
  match c.toNat with
  | 0 => .ss | 1 => .su | 2 => .us | _ => .uu

/-- Table 1 (R108). -/
def decodeCond (c : BitVec 6) : Except Reserved Cond :=
  match c.toNat with
  | 0 => .ok .always
  | 1 => .ok .cs
  | 2 => .ok .es
  | 3 => .ok .vs
  | 4 => .ok .ns
  | 5 => .ok .zs
  | 8 => .ok .lt
  | 9 => .ok .le
  | 17 => .ok .cc
  | 18 => .ok .ec
  | 19 => .ok .vc
  | 20 => .ok .nc
  | 21 => .ok .zc
  | 24 => .ok .ge
  | 25 => .ok .gt
  | _ => .error .conditionCode

/-- The field pppp (R103). -/
def decodePost (c : BitVec 4) : PostMod := if c = 8#4 then .star else .amount c.toInt

/-- The address mode of JMPI; 0b10 is refused (R92, R111). -/
def decodeJmpiMode (c : BitVec 2) : Except Reserved JmpiMode :=
  match c.toNat with
  | 0 => .ok .keep
  | 1 => .ok .inc
  | 3 => .ok .dec
  | _ => .error .jmpiMode

/-! ## Move fields -/

/-- The full move field (R101). -/
def decodeFull (f : BitVec 14) : Except Reserved FullMove := do
  let r ← decodeMoveReg (bits f 0 6)
  .ok { store := f.getLsbD 13, n := decodeIndex (bits f 10 3), p := decodePost (bits f 6 4), r := r }

/-- The short move field (R102). -/
def decodeShort (h : BitVec 8) : ShortMove :=
  { store := h.getLsbD 7, n := decodeIndex (bits h 4 3), star := h.getLsbD 3, r := decodeDataReg (bits h 0 3) }

/-- The part of the parallel move field selected by `m[16:14] = 0b001` (R100, R105, R106, R107). -/
def decodeSpecialMove (m : BitVec 17) : Except Reserved ParMove :=
  match (bits m 10 4).toNat with
  | 0 | 1 | 2 | 3 => do
    let src ← decodeMoveReg (bits m 6 6)
    let dst ← decodeMoveReg (bits m 0 6)
    .ok (.mv src dst)
  | 4 => do
    let r ← decodeMoveReg (bits m 0 6)
    .ok (.longX (m.getLsbD 9) (decodeIndex (bits m 6 3)) r)
  | 5 => .ok (.ibus (m.getLsbD 9) (decodeIndex (bits m 6 3)) (decodePost (bits m 2 4)) (decodeAcc (bits m 0 2)))
  | _ => .error .parallelMove

/-- The parallel move field (R100). -/
def decodeParMove (m : BitVec 17) : Except Reserved ParMove :=
  if m.getLsbD 16 then .ok (.short (decodeShort (bits m 8 8)) (decodeShort (bits m 0 8)))
  else if m.getLsbD 14 then
    if m.getLsbD 15 then .error .parallelMove else decodeSpecialMove m
  else do
    let f ← decodeFull (bits m 0 14)
    .ok (.full (if m.getLsbD 15 then .y else .x) f)

/-! ## Formats -/

/-- A parallel move carried by the ALU NOP: with the move NOP it is NOP itself, else it is the row of the move, which
then stands alone (R124, 40_alu.md R152; log 44). -/
def nopWith (m : ParMove) : Instr :=
  if m.isVoid then .nop m
  else
    match m with
    | .full .x f => if f.store then .stx f.n f.p f.r else .ldx f.n f.p f.r
    | .full .y f => if f.store then .sty f.n f.p f.r else .ldy f.n f.p f.r
    | .short x y => .moveShort x y
    | .mv src dst => .mv src dst
    | .longX store n r => if store then .stxLong n r else .ldxLong n r
    | .ibus store n p x => if store then .sti n p x else .ldi n p x

/-- Format LDC (R82). -/
def decodeLdc (w : Long) : Except Reserved Instr := do
  let r ← decodeMoveReg (bits w 0 6)
  .ok (.ldc (bits w 6 16) r)

/-- The control instructions, selected by `w[27:24]` (R87 to R94). In the double register move the bits 23:12 name the X
source and target (R93), although 93_implementation_defined.md U20 calls them ignored (log 50). -/
def decodeControl (w : Long) : Except Reserved Instr :=
  match (bits w 24 4).toNat with
  | 0 => do
    let cond ← decodeCond (bits w 0 6)
    .ok (if w.getLsbD 23 then .jrPage (decodeIndex (bits w 6 3)) cond else .jr cond)
  | 1 => .ok (if w.getLsbD 23 then .retiPage (decodeIndex (bits w 6 3)) else .reti)
  | 2 => .ok (.resp (decodeDataReg (bits w 17 3)) (decodeDataReg (bits w 20 3)))
  | 4 | 5 | 6 | 7 => do
    let count ← decodeMoveReg (0#1 ++ bits w 0 5)
    .ok (.loop count (bits w 6 16))
  | 8 => do
    let cond ← decodeCond (bits w 0 6)
    .ok (.jcc (bits w 6 16) cond)
  | 9 => do
    let cond ← decodeCond (bits w 0 6)
    .ok (.callcc (bits w 6 16) cond)
  | 10 => do
    let mode ← decodeJmpiMode (bits w 3 2)
    .ok (.jmpi (bits w 6 16) mode (decodeIndex (bits w 0 3)))
  | 11 => do
    let xsrc ← decodeMoveReg (bits w 18 6)
    let xdst ← decodeMoveReg (bits w 12 6)
    let ysrc ← decodeMoveReg (bits w 6 6)
    let ydst ← decodeMoveReg (bits w 0 6)
    .ok (.mvDouble xsrc xdst ysrc ydst)
  | 13 => .ok .halt
  | _ => .error .controlCode

/-- Format DMOVE (R99). -/
def decodeMoveDouble (w : Long) : Except Reserved Instr := do
  let x ← decodeFull (bits w 14 14)
  let y ← decodeFull (bits w 0 14)
  .ok (.moveDouble x y)

/-- Format ALU2 (R83). -/
def decodeAlu2 (make : AluOp → AluOp → DataReg → ParMove → Instr) (w : Long) : Except Reserved Instr := do
  let op1 ← decodeAluOp1 (bits w 24 4)
  let op2 ← decodeAluOp2 (bits w 20 4)
  let m ← decodeParMove (bits w 0 17)
  .ok (make op1 op2 (decodeDataReg (bits w 17 3)) m)

/-- Format ALU1 (R84). -/
def decodeAlu1 (make : AluOp → DataReg → ParMove → Instr) (w : Long) : Except Reserved Instr := do
  let op2 ← decodeAluOp2 (bits w 20 4)
  let m ← decodeParMove (bits w 0 17)
  .ok (make op2 (decodeDataReg (bits w 17 3)) m)

/-- Format MAC (R85). -/
def decodeMac (make : MulMode → DataReg → DataReg → DataReg → ParMove → Instr) (w : Long) :
    Except Reserved Instr := do
  let m ← decodeParMove (bits w 0 17)
  .ok (make (decodeMulMode (bits w 23 2)) (decodeDataReg (bits w 25 3)) (decodeDataReg (bits w 20 3))
    (decodeDataReg (bits w 17 3)) m)

/-- Format MUL (R86): Op1 sits in bits 19:17. -/
def decodeMul (w : Long) : Except Reserved Instr := do
  let m ← decodeParMove (bits w 0 17)
  .ok (.mul (decodeMulMode (bits w 23 2)) (decodeDataReg (bits w 17 3)) (decodeDataReg (bits w 20 3)) m)

/-- The ALU NOP (R84): `w[23:17]` are ignored. -/
def decodeNop (w : Long) : Except Reserved Instr := do
  let m ← decodeParMove (bits w 0 17)
  .ok (nopWith m)

/-- Opcode 0b1111: Table 8 and MUL (R84, R86). -/
def decodeSingle (w : Long) : Except Reserved Instr :=
  match (bits w 24 4).toNat with
  | 0 => decodeAlu1 .abs w
  | 1 => decodeAlu1 .asr w
  | 2 => decodeAlu1 .lsr w
  | 3 => decodeAlu1 .lsrc w
  | 4 => decodeNop w
  | 5 => decodeAlu1 .exp w
  | 6 => decodeAlu1 .sat w
  | 7 => decodeAlu1 .rnd w
  | 14 | 15 => decodeMul w
  | _ => .error .singleOpcode

/-- The decode order of R110. -/
def decode (w : Long) : Except Reserved Instr :=
  match (bits w 28 4).toNat with
  | 0 | 1 => decodeLdc w
  | 2 => decodeControl w
  | 3 => decodeMoveDouble w
  | 4 => decodeAlu2 .add w
  | 5 => decodeMac .mac w
  | 6 => decodeAlu2 .sub w
  | 7 => decodeMac .msu w
  | 8 => decodeAlu2 .addc w
  | 9 => decodeAlu2 .subc w
  | 10 => decodeAlu2 .ashl w
  | 11 => decodeAlu2 .and w
  | 12 => decodeAlu2 .or w
  | 13 => decodeAlu2 .xor w
  | 14 => .error .opcode1110
  | _ => decodeSingle w

/-! ## Operand tables, operand to code -/

/-- Table 6, Table 9 and Table 5 (R96, R97, R102). -/
def DataReg.code : DataReg → BitVec 3
  | .a0 => 0b000#3 | .a1 => 0b001#3 | .b0 => 0b010#3 | .b1 => 0b011#3
  | .c0 => 0b100#3 | .c1 => 0b101#3 | .d0 => 0b110#3 | .d1 => 0b111#3

/-- The order A, B, C, D (R107). -/
def AccName.code : AccName → BitVec 2
  | .a => 0b00#2 | .b => 0b01#2 | .c => 0b10#2 | .d => 0b11#2

/-- rrr names I0 .. I7 (R101). -/
def IndexReg.code : IndexReg → BitVec 3
  | .i0 => 0b000#3 | .i1 => 0b001#3 | .i2 => 0b010#3 | .i3 => 0b011#3
  | .i4 => 0b100#3 | .i5 => 0b101#3 | .i6 => 0b110#3 | .i7 => 0b111#3

/-- Table 10 (R104). -/
def MoveReg.code : MoveReg → BitVec 6
  | .data r => 0b000#3 ++ r.code
  | .guard x => 0b1000#4 ++ x.code
  | .index n => 0b010#3 ++ n.code
  | .lr0 => 0b001000#6
  | .lr1 => 0b001001#6
  | .mr0 => 0b001010#6
  | .null => 0b001100#6
  | .lc => 0b001101#6
  | .ls => 0b001110#6
  | .le => 0b001111#6
  | .nop => 0b100100#6
  | .ipr0 => 0b111110#6
  | .ipr1 => 0b111111#6

/-- Table 4 (R95). -/
def AluOp.code : AluOp → BitVec 4
  | .reg r => 0b0#1 ++ r.code
  | .null => 0b1000#4
  | .ones => 0b1001#4
  | .p => 0b1011#4
  | .acc x => 0b11#2 ++ x.code

/-- Table 7 (R98). -/
def MulMode.code : MulMode → BitVec 2
  | .ss => 0b00#2 | .su => 0b01#2 | .us => 0b10#2 | .uu => 0b11#2

/-- Table 1 (R108). -/
def Cond.code : Cond → BitVec 6
  | .always => 0b000000#6
  | .cs => 0b000001#6
  | .es => 0b000010#6
  | .vs => 0b000011#6
  | .ns => 0b000100#6
  | .zs => 0b000101#6
  | .lt => 0b001000#6
  | .le => 0b001001#6
  | .cc => 0b010001#6
  | .ec => 0b010010#6
  | .vc => 0b010011#6
  | .nc => 0b010100#6
  | .zc => 0b010101#6
  | .ge => 0b011000#6
  | .gt => 0b011001#6

/-- The field pppp (R103). -/
def PostMod.code : PostMod → BitVec 4
  | .amount k => BitVec.ofInt 4 k
  | .star => 0b1000#4

/-- The address mode of JMPI (R92). -/
def JmpiMode.code : JmpiMode → BitVec 2
  | .keep => 0b00#2 | .inc => 0b01#2 | .dec => 0b11#2

/-- The full move field (R101). -/
def encodeFull (f : FullMove) : BitVec 14 := BitVec.ofBool f.store ++ f.n.code ++ f.p.code ++ f.r.code

/-- The short move field (R102). -/
def encodeShort (h : ShortMove) : BitVec 8 := BitVec.ofBool h.store ++ h.n.code ++ BitVec.ofBool h.star ++ h.r.code

/-- The bus bit `m[15]` of a full move (R100). -/
def Bus.code : Bus → BitVec 1
  | .x => 0b0#1 | .y => 0b1#1

/-- The parallel move field (R100 to R107). -/
def encodeParMove : ParMove → BitVec 17
  | .full b f => 0b0#1 ++ b.code ++ 0b0#1 ++ encodeFull f
  | .short x y => 0b1#1 ++ encodeShort x ++ encodeShort y
  | .mv src dst => 0b00100#5 ++ src.code ++ dst.code
  | .longX store n r => 0b0010100#7 ++ BitVec.ofBool store ++ n.code ++ r.code
  | .ibus store n p x => 0b0010101#7 ++ BitVec.ofBool store ++ n.code ++ p.code ++ x.code

/-- Format ALU2 (R83). -/
def encodeAlu2 (opcode : BitVec 4) (op1 op2 : AluOp) (dst : DataReg) (m : ParMove) : Long :=
  opcode ++ op1.code ++ op2.code ++ dst.code ++ encodeParMove m

/-- Format ALU1 (R84). -/
def encodeAlu1 (single : BitVec 4) (op2 : AluOp) (dst : DataReg) (m : ParMove) : Long :=
  0b1111#4 ++ single ++ op2.code ++ dst.code ++ encodeParMove m

/-- Format MAC (R85). -/
def encodeMac (opcode : BitVec 4) (mode : MulMode) (op1 op2 dst : DataReg) (m : ParMove) : Long :=
  opcode ++ op1.code ++ mode.code ++ op2.code ++ dst.code ++ encodeParMove m

/-- The ALU NOP as the carrier of a move (R84, R124). -/
def encodeNop (m : ParMove) : Long := 0b1111#4 ++ 0b0100#4 ++ 0#7 ++ encodeParMove m

/-- The word of an instruction, ignored bits 0 (R112); an alias has the word of its core (R124). -/
def encode : Instr → Long
  | .ldc c r => 0b000#3 ++ 0#7 ++ c ++ r.code
  | .jr cond => 0b0010#4 ++ 0b0000#4 ++ 0b0#1 ++ 0#17 ++ cond.code
  | .jrPage n cond => 0b0010#4 ++ 0b0000#4 ++ 0b1#1 ++ 0#14 ++ n.code ++ cond.code
  | .reti => 0b0010#4 ++ 0b0001#4 ++ 0b0#1 ++ 0#23
  | .retiPage n => 0b0010#4 ++ 0b0001#4 ++ 0b1#1 ++ 0#14 ++ n.code ++ 0#6
  | .resp op1 op2 => 0b0010#4 ++ 0b0010#4 ++ 0#1 ++ op2.code ++ op1.code ++ 0#17
  | .loop count addr => 0b0010#4 ++ 0b01#2 ++ 0#4 ++ addr ++ 0#1 ++ bits count.code 0 5
  | .jcc addr cond => 0b0010#4 ++ 0b1000#4 ++ 0#2 ++ addr ++ cond.code
  | .callcc addr cond => 0b0010#4 ++ 0b1001#4 ++ 0#2 ++ addr ++ cond.code
  | .jmpi addr mode n => 0b0010#4 ++ 0b1010#4 ++ 0#2 ++ addr ++ 0#1 ++ mode.code ++ n.code
  | .mvDouble xsrc xdst ysrc ydst => 0b0010#4 ++ 0b1011#4 ++ xsrc.code ++ xdst.code ++ ysrc.code ++ ydst.code
  | .halt => 0b0010#4 ++ 0b1101#4 ++ 0#24
  | .moveDouble x y => 0b0011#4 ++ encodeFull x ++ encodeFull y
  | .add op1 op2 dst m => encodeAlu2 0b0100#4 op1 op2 dst m
  | .sub op1 op2 dst m => encodeAlu2 0b0110#4 op1 op2 dst m
  | .addc op1 op2 dst m => encodeAlu2 0b1000#4 op1 op2 dst m
  | .subc op1 op2 dst m => encodeAlu2 0b1001#4 op1 op2 dst m
  | .ashl op1 op2 dst m => encodeAlu2 0b1010#4 op1 op2 dst m
  | .and op1 op2 dst m => encodeAlu2 0b1011#4 op1 op2 dst m
  | .or op1 op2 dst m => encodeAlu2 0b1100#4 op1 op2 dst m
  | .xor op1 op2 dst m => encodeAlu2 0b1101#4 op1 op2 dst m
  | .mac mode op1 op2 dst m => encodeMac 0b0101#4 mode op1 op2 dst m
  | .msu mode op1 op2 dst m => encodeMac 0b0111#4 mode op1 op2 dst m
  | .abs op2 dst m => encodeAlu1 0b0000#4 op2 dst m
  | .asr op2 dst m => encodeAlu1 0b0001#4 op2 dst m
  | .lsr op2 dst m => encodeAlu1 0b0010#4 op2 dst m
  | .lsrc op2 dst m => encodeAlu1 0b0011#4 op2 dst m
  | .exp op2 dst m => encodeAlu1 0b0101#4 op2 dst m
  | .sat op2 dst m => encodeAlu1 0b0110#4 op2 dst m
  | .rnd op2 dst m => encodeAlu1 0b0111#4 op2 dst m
  | .nop m => encodeNop m
  | .mul mode op1 op2 m => 0b1111#4 ++ 0b111#3 ++ mode.code ++ op2.code ++ op1.code ++ encodeParMove m
  | .not op2 dst m => encodeAlu2 0b1101#4 .ones op2 dst m
  | .lsl op2 dst m => encodeAlu2 0b0100#4 op2 op2 dst m
  | .lslc op2 dst m => encodeAlu2 0b1000#4 op2 op2 dst m
  | .ldx n p r => encodeNop (.full .x { store := false, n, p, r })
  | .stx n p r => encodeNop (.full .x { store := true, n, p, r })
  | .ldy n p r => encodeNop (.full .y { store := false, n, p, r })
  | .sty n p r => encodeNop (.full .y { store := true, n, p, r })
  | .moveShort x y => encodeNop (.short x y)
  | .mv src dst => encodeNop (.mv src dst)
  | .ldxLong n r => encodeNop (.longX false n r)
  | .stxLong n r => encodeNop (.longX true n r)
  | .ldi n p x => encodeNop (.ibus false n p x)
  | .sti n p x => encodeNop (.ibus true n p x)

/-! ## Words of the opcode table -/

/-- The word the table's bits stand for. A row of 32 bits is the word. A row of 17 bits (three whole bytes) gives the
parallel move field `w[16:0]` of an arithmetic instruction, never a word of its own; its carrier is the ALU NOP
0xF4 (R124; log 44). -/
def tableWord (nbits w : Nat) : Long :=
  if nbits < 32 then 0xF4#8 ++ 0#7 ++ BitVec.ofNat 17 w else BitVec.ofNat 32 w

/-- The instruction the decoder reads from an instruction whose bits are `w`, numbered as spec/opcode_table.json
numbers them. -/
def decodeTableWord (nbits w : Nat) : Option Instr :=
  match decode (tableWord nbits w) with
  | .ok i => some i
  | .error _ => none

end Sys2Proof
end

