-- ==== Sys2Proof/Machine/Params.lean ====
section
/-! DEFINITION. The parameters of 00_scope.md R9 at the spec's values, one definition each, with the log entry of the
decision; and the platform the reset state stands on. -/

namespace Sys2Proof.Machine

/-- MR0_MASK: the bits S I R L Z N V E C (R9, R35; log 11). -/
def mr0Mask : Word := 0x079F#16

/-- HALT_WAKE, the instructions executed between a wake-up and the interrupt (R9, R301; log 39). -/
def haltWake : Nat := 3

/-- GUARD_READ: a guard register on a 16-bit bus, sign-extended (R25; log 12). -/
def guardRead (g : Byte) : Word := g.signExtend 16

/-- COND_V_TERM: the overflow term of the signed conditions, `V and not S` (R255; log 13). -/
def condOverflow (v s : Bool) : Bool := v && !s

/-- SUBC_CARRY_IN: the carry into SUBC's complement addition is C (R139; log 14). -/
def subcCarryIn (c : Bool) : Bool := c

/-- RND_R0: with R = 0 the magnitude is truncated, so a negative value with a fraction goes up (R160; log 15). -/
def rndUpTowardZero (negative : Bool) (rem : Int) : Bool := negative && decide (rem ≠ 0)

/-- EXP_BIAS, what is taken off the count of leading bits (R153; log 16). -/
def expBias : Nat := 0

/-- LONGX_HIGH: the named register is the upper half of a long X address (R62, R232; log 17). -/
def longAddress (named pair : Word) : Long := named ++ pair

/-- PC_WRAP = refuse: sequential advance from 0xFFFF has no next address (R31; log 18). -/
def advancePc (a : Word) : Option Word := if a = 0xFFFF#16 then none else some (a + 1#16)

/-- The platform of the reset state (R68, D21, D22; DESIGN CHOICE, logs 3 and 4): every address of the three spaces is
RAM, but X:0xC01F is INT_GLOB_EN, the place the spec's own example assumes; AMM enables modulo and bit reversal (R9,
log 42); RESET_VECTOR is "normally 0x4000" (R9, R54; log 25); INT_RESET_DISABLE is 0 (DESIGN CHOICE, log 5). -/
def resetPlatform : Platform where
  x := [{ base := 0xC01F, size := 1, kind := .intGlobEn }, { base := 0, size := 0x100000000, kind := .ram }]
  y := [{ base := 0, size := 0x10000, kind := .ram }]
  i := [{ base := 0, size := 0x100000000, kind := .ram }]
  amm := 0b011#3
  resetVector := 0x4000#16
  intResetDisable := 0

end Sys2Proof.Machine
end

