-- ==== Sys2Proof/Machine/State.lean ====
section
/-! DEFINITION. The machine's state as plain data (10_state.md R20 to R54), the reasons a step can stop (00_scope.md
R14), and the state after reset (R54, 70_reset_and_hazards.md R320). -/

namespace Sys2Proof.Machine

/-- Why the machine stops in a case the manual leaves undefined: the spec's `Unspecified(tag)` (R14, D10; log 19).
None is an event of the hardware (60_exceptions.md R290). Every one is SAFE: the hardware goes on in a way the manual
does not promise, the model stops. -/
inductive Fault where
  /-- An access or a fetch at an address where nothing stands (20_memory.md R68). Raised by loads, stores, LDI, STI
  and the fetch. Safe. -/
  | unmappedAccess
  /-- A store to ROM (R69). Raised by stores and STI. Safe. -/
  | romWrite
  /-- One instruction reaches one device through X and through Y (R71). Raised by the two-move forms. Safe. -/
  | sameDeviceXY
  /-- STI wrote the word the very next fetch reads (R75, R332). Raised by the step. Safe. -/
  | stiNextFetch
  /-- Sequential advance from 0xFFFF (R31). Raised by the step. Safe. -/
  | pcWrap
  /-- Two operations of one instruction write one register (R335). Raised by the instructions with moves. Safe. -/
  | doubleWrite
  /-- A `*` access in a mode that AMM disables (R214). Raised by the moves. Safe. -/
  | ammDisabled
  /-- A move or LDC that would change IPR0 (R217, C14). Raised by LDC and the moves. Safe. -/
  | ipr0Move
  /-- A half of the double register move stays inside one execution unit (R231). Safe. -/
  | mvSameUnit
  /-- LDI or STI while IPR0 is not 0 (R235, R63). Safe. -/
  | ldiStiPage
  /-- An interrupt would be entered directly after a JMPI of normal code (R297). Raised by the step. Safe. -/
  | interruptAfterJmpi
  /-- The instruction at an interrupt vector is not JMPI (R297). Raised by the step. Safe. -/
  | vectorNotJmpi
  /-- A change-of-flow instruction at the loop end or immediately before it (R326). Raised by the step. Safe. -/
  | cofAtLoopEnd
  /-- A change-of-flow instruction in a delay slot (R327). Raised by the step. Safe. -/
  | cofInDelaySlot
  /-- A conditional jump directly after an instruction that wrote the flags (R328). Raised by the step. Safe. -/
  | flagsBeforeConditionalJump
  /-- A change-of-flow instruction directly after LDI or STI (R329). Raised by the step. Safe. -/
  | cofAfterLdiSti
  /-- Loop registers or L written, or LC read, next to the loop end (R331). Raised by the step. Safe. -/
  | loopRegisterHazard
  deriving DecidableEq, Repr

/-- Why an instruction has no meaning. Both are SAFE: the model stops. -/
inductive Refusal where
  /-- An instruction the model has not reached; raised by no arm of this model. Safe. -/
  | notModelled (mnemonic : String)
  /-- A reserved or unlisted encoding (30_encoding.md R111), raised by the decoder through the step, or by a meaning
  whose operands form one; `Reserved` says which raises each tag. Safe. -/
  | reserved (tag : Reserved)
  deriving DecidableEq, Repr

/-- A stop inside a meaning, before it becomes the outcome of the step. -/
inductive Stop where
  | fault (f : Fault)
  | refuse (r : Refusal)
  deriving DecidableEq, Repr

/-- One accumulator and its parts (R22): A is A2:A1:A0. -/
structure Accum where
  lo : Word
  hi : Word
  guard : Byte
  deriving DecidableEq, Repr

/-- The programmer-visible registers (R20). -/
structure Regs where
  a : Accum
  b : Accum
  c : Accum
  d : Accum
  p : Long
  i0 : Word
  i1 : Word
  i2 : Word
  i3 : Word
  i4 : Word
  i5 : Word
  i6 : Word
  i7 : Word
  pc : Word
  lr0 : Word
  lr1 : Word
  mr0 : Word
  lc : Word
  ls : Word
  le : Word
  ipr0 : Word
  ipr1 : Word
  deriving DecidableEq, Repr

/-- A delayed transfer (R50): the target, and the value for IPR0 or none to keep it. -/
structure Transfer where
  target : Word
  page : Option Word
  deriving DecidableEq, Repr

/-- What R51 keeps of the instruction executed last. -/
structure Past where
  /-- It was Jcc, CALLcc, JRcc, RETI or LOOP, taken or not. -/
  delayedCof : Bool
  /-- It was a JMPI of normal code, not the entry of the vector table (R297). -/
  plainJmpi : Bool
  /-- It wrote the arithmetic flags, or MR0 by a move or LDC (R328). -/
  wroteFlags : Bool
  /-- It contained LDI or STI (R329). -/
  usedIbus : Bool
  /-- The page-zero address its STI wrote (R332). -/
  stiAddr : Option Word
  /-- It wrote LC, LS, LE or MR0.L, or read LC (R331). -/
  touchedLoop : Bool
  /-- It wrote LC, LS or LE by a bus move (R271). -/
  busLoopWrite : Bool
  /-- LE before it executed (R331). -/
  leBefore : Word
  /-- MR0.L before it executed (R331). -/
  lBefore : Bool
  deriving DecidableEq, Repr

/-- What the environment does before a step (R293, R320): nothing, a source n that wants an interrupt with the vector
0x20 + n, or reset. -/
inductive Event where
  | idle
  | request (n : BitVec 5)
  | reset
  deriving DecidableEq, Repr

/-- The memory of one space: the bytes that the initial contents give or something has written, by byte address, strictly
rising. An address that is not listed holds no such byte (R72; log 2). -/
abbrev Memory := List Host.Cell

/-- The machine. -/
structure State where
  /-- The registers (R20). -/
  regs : Regs
  /-- The delayed transfer, if one is pending (R50). -/
  pending : Option Transfer
  /-- The instruction executed last; none after reset and after interrupt entry (R51). -/
  prev : Option Past
  /-- The instruction before the last wrote LC, LS or LE by a bus move (R51, R271). -/
  prev2LoopWrite : Bool
  /-- HALT waits (R52). -/
  halted : Bool
  /-- The latched interrupt request, n for the vector 0x20 + n (R52). -/
  irq : Option (BitVec 5)
  /-- Instructions still to execute after a wake-up (R52). -/
  wake : Nat
  /-- The next instruction is the entry of the vector table (R52). -/
  atVector : Bool
  /-- The interrupt peripheral's disable count (60_exceptions.md R293). -/
  intDisable : Nat
  /-- X memory, two bytes a word (R60; log 1). -/
  xmem : Memory
  /-- Y memory, two bytes a word (R60; log 1). -/
  ymem : Memory
  /-- I memory, four bytes a word (R60; log 1). -/
  imem : Memory
  /-- The platform, an argument of the model that no step changes (R9, R68). -/
  plat : Platform
  /-- What the devices have seen of the core, newest first (R68, R69; log 6). -/
  devices : List DeviceEvent
  /-- The schedule of the environment, the model's own field (R293; log 37). -/
  events : List Event
  /-- The number of the step, which tells the free values apart, the model's own field (log 10). -/
  freeCount : Nat
  deriving DecidableEq, Repr

/-- The registers after reset: all zero but LE and PC, which is the reset vector (R54). -/
def Regs.reset (vector : Word) : Regs :=
  let zero : Accum := { lo := 0, hi := 0, guard := 0 }
  { a := zero, b := zero, c := zero, d := zero, p := 0
    i0 := 0, i1 := 0, i2 := 0, i3 := 0, i4 := 0, i5 := 0, i6 := 0, i7 := 0
    pc := vector, lr0 := 0, lr1 := 0, mr0 := 0, lc := 0, ls := 0, le := 0xFFFF#16, ipr0 := 0, ipr1 := 0 }

/-- The machine right after reset on a platform, with the initial contents of the three memories (R9, R54, R72, R320). -/
def State.boot (plat : Platform) (xmem ymem imem : Memory) : State where
  regs := Regs.reset plat.resetVector
  pending := none
  prev := none
  prev2LoopWrite := false
  halted := false
  irq := none
  wake := 0
  atVector := false
  intDisable := plat.intResetDisable
  xmem := xmem
  ymem := ymem
  imem := imem
  plat := plat
  devices := []
  events := []
  freeCount := 0

/-- The machine right after reset on the reset platform, with no initial contents: a program is loaded from outside
(log 43). -/
def State.reset : State := State.boot resetPlatform [] [] []

end Sys2Proof.Machine
end

