-- ==== Sys2Proof/Machine/Ops.lean ====
section
/-! DEFINITION. The named operations over memory and registers: the byte lists, the three memory spaces (20_memory.md),
the registers by name, the writes of one instruction and their commitment (00_scope.md R15, 70_reset_and_hazards.md
R335), and the interrupt: request, entry, return, reset (60_exceptions.md). -/

namespace Sys2Proof.Machine

/-! ## Bytes -/

/-- The byte listed at `a`, that is, initialised or written; none where there is none. -/
def Memory.find : Memory → Nat → Option Byte
  | [], _ => none
  | (k, b) :: t, a => if k = a then some b else Memory.find t a

/-- The byte at `a` of the memory of space `sp`; where none is listed, the arbitrary value of that byte (R72; log 2). -/
def Memory.readByte (m : Memory) (sp : Space) (a : Nat) : Byte := (m.find a).getD (Config.unwritten sp a)

/-- The memory with byte `v` at `a`, in canonical form. -/
def Memory.writeByte : Memory → Nat → Byte → Memory
  | [], a, v => [(a, v)]
  | (k, b) :: t, a, v =>
    if a < k then (a, v) :: (k, b) :: t
    else if a = k then (a, v) :: t
    else (k, b) :: Memory.writeByte t a v

/-- Every address of the list is at least `lo` and the addresses rise strictly. What an unlisted address holds is no
byte, so no entry equals it. -/
def Memory.wfFrom : Nat → Memory → Bool
  | _, [] => true
  | lo, (k, _) :: t => decide (lo ≤ k) && Memory.wfFrom (k + 1) t

/-- The canonical form. -/
def Memory.wf (m : Memory) : Bool := Memory.wfFrom 0 m

/-- The 16-bit word at word address `a`, least significant byte first (log 1). -/
def Memory.read16 (m : Memory) (sp : Space) (a : Nat) : Word := m.readByte sp (2 * a + 1) ++ m.readByte sp (2 * a)

/-- The memory with the 16-bit word `v` at word address `a`. -/
def Memory.write16 (m : Memory) (a : Nat) (v : Word) : Memory :=
  (m.writeByte (2 * a) (v.extractLsb' 0 8)).writeByte (2 * a + 1) (v.extractLsb' 8 8)

/-- The 32-bit word at word address `a`, least significant byte first (log 1). -/
def Memory.read32 (m : Memory) (sp : Space) (a : Nat) : Long :=
  m.readByte sp (4 * a + 3) ++ m.readByte sp (4 * a + 2) ++ m.readByte sp (4 * a + 1) ++ m.readByte sp (4 * a)

/-- The memory with the 32-bit word `v` at word address `a`. -/
def Memory.write32 (m : Memory) (a : Nat) (v : Long) : Memory :=
  (((m.writeByte (4 * a) (v.extractLsb' 0 8)).writeByte (4 * a + 1) (v.extractLsb' 8 8)).writeByte (4 * a + 2)
    (v.extractLsb' 16 8)).writeByte (4 * a + 3) (v.extractLsb' 24 8)

/-! ## Registers by name -/

/-- A0 .. D1. -/
def State.data (s : State) : DataReg → Word
  | .a0 => s.regs.a.lo
  | .a1 => s.regs.a.hi
  | .b0 => s.regs.b.lo
  | .b1 => s.regs.b.hi
  | .c0 => s.regs.c.lo
  | .c1 => s.regs.c.hi
  | .d0 => s.regs.d.lo
  | .d1 => s.regs.d.hi

/-- Write A0 .. D1 alone; the sign extension into the guard register is a write of its own (`writeData16`). -/
def State.setData (s : State) (r : DataReg) (v : Word) : State :=
  match r with
  | .a0 => { s with regs.a.lo := v }
  | .a1 => { s with regs.a.hi := v }
  | .b0 => { s with regs.b.lo := v }
  | .b1 => { s with regs.b.hi := v }
  | .c0 => { s with regs.c.lo := v }
  | .c1 => { s with regs.c.hi := v }
  | .d0 => { s with regs.d.lo := v }
  | .d1 => { s with regs.d.hi := v }

/-- A2 .. D2. -/
def State.guard (s : State) : AccName → Byte
  | .a => s.regs.a.guard
  | .b => s.regs.b.guard
  | .c => s.regs.c.guard
  | .d => s.regs.d.guard

/-- Write A2 .. D2. -/
def State.setGuard (s : State) (x : AccName) (v : Byte) : State :=
  match x with
  | .a => { s with regs.a.guard := v }
  | .b => { s with regs.b.guard := v }
  | .c => { s with regs.c.guard := v }
  | .d => { s with regs.d.guard := v }

/-- The low and the high part of an accumulator (R22). -/
def accLo : AccName → DataReg
  | .a => .a0 | .b => .b0 | .c => .c0 | .d => .d0

/-- The high part of an accumulator (R22). -/
def accHi : AccName → DataReg
  | .a => .a1 | .b => .b1 | .c => .c1 | .d => .d1

/-- The 40-bit accumulator x2:x1:x0 (R22). -/
def State.acc (s : State) (x : AccName) : Wide := s.guard x ++ s.data (accHi x) ++ s.data (accLo x)

/-- I0 .. I7. -/
def State.index (s : State) : IndexReg → Word
  | .i0 => s.regs.i0
  | .i1 => s.regs.i1
  | .i2 => s.regs.i2
  | .i3 => s.regs.i3
  | .i4 => s.regs.i4
  | .i5 => s.regs.i5
  | .i6 => s.regs.i6
  | .i7 => s.regs.i7

/-- Write I0 .. I7. -/
def State.setIndex (s : State) (n : IndexReg) (v : Word) : State :=
  match n with
  | .i0 => { s with regs.i0 := v }
  | .i1 => { s with regs.i1 := v }
  | .i2 => { s with regs.i2 := v }
  | .i3 => { s with regs.i3 := v }
  | .i4 => { s with regs.i4 := v }
  | .i5 => { s with regs.i5 := v }
  | .i6 => { s with regs.i6 := v }
  | .i7 => { s with regs.i7 := v }

/-! ## Flags as bits of MR0 (R34) -/

/-- The five arithmetic flags. -/
structure Flags where
  z : Bool
  n : Bool
  v : Bool
  e : Bool
  c : Bool
  deriving DecidableEq, Repr

/-- S, saturation mode. -/
def State.flagS (s : State) : Bool := s.regs.mr0.getLsbD 10
/-- I, integer mode. -/
def State.flagI (s : State) : Bool := s.regs.mr0.getLsbD 9
/-- R, rounding mode. -/
def State.flagR (s : State) : Bool := s.regs.mr0.getLsbD 8
/-- L, loop flag. -/
def State.flagL (s : State) : Bool := s.regs.mr0.getLsbD 7
/-- Z, zero flag. -/
def State.flagZ (s : State) : Bool := s.regs.mr0.getLsbD 4
/-- N, negative flag. -/
def State.flagN (s : State) : Bool := s.regs.mr0.getLsbD 3
/-- V, overflow flag. -/
def State.flagV (s : State) : Bool := s.regs.mr0.getLsbD 2
/-- E, extension flag. -/
def State.flagE (s : State) : Bool := s.regs.mr0.getLsbD 1
/-- C, carry flag. -/
def State.flagC (s : State) : Bool := s.regs.mr0.getLsbD 0

/-- MR0 with the five arithmetic flags replaced. -/
def packFlags (mr0 : Word) (f : Flags) : Word :=
  mr0.extractLsb' 5 11 ++ BitVec.ofBool f.z ++ BitVec.ofBool f.n ++ BitVec.ofBool f.v ++ BitVec.ofBool f.e ++
    BitVec.ofBool f.c

/-- MR0 with L replaced. -/
def packL (mr0 : Word) (l : Bool) : Word := mr0.extractLsb' 8 8 ++ BitVec.ofBool l ++ mr0.extractLsb' 0 7

/-- Write L (R39). -/
def State.setL (s : State) (l : Bool) : State := { s with regs.mr0 := packL s.regs.mr0 l }

/-! ## What stands at an address (20_memory.md R68) -/

/-- The kind of a data address; none when no region holds it. -/
def kindAt : List Region → Nat → Option Kind
  | [], _ => none
  | r :: t, a => if r.base ≤ a ∧ a < r.base + r.size then some r.kind else kindAt t a

/-- The kind of an instruction address; none when no region holds it. -/
def codeKindAt : List CodeRegion → Nat → Option CodeKind
  | [], _ => none
  | r :: t, a => if r.base ≤ a ∧ a < r.base + r.size then some r.kind else codeKindAt t a

/-- What stands at an X or Y word address. -/
def State.kind (s : State) (b : Bus) (a : Long) : Option Kind :=
  match b with
  | .x => kindAt s.plat.x a.toNat
  | .y => kindAt s.plat.y a.toNat

/-- What stands at an I word address. -/
def State.codeKind (s : State) (a : Long) : Option CodeKind := codeKindAt s.plat.i a.toNat

/-- The X or Y memory. -/
def State.mem (s : State) : Bus → Memory
  | .x => s.xmem
  | .y => s.ymem

/-- The space a data bus reaches (R61). -/
def busSpace : Bus → Space
  | .x => .x
  | .y => .y

/-- A word of X or Y memory. -/
def State.word (s : State) (b : Bus) (a : Long) : Word := (s.mem b).read16 (busSpace b) a.toNat

/-- A word of I memory. -/
def State.codeWord (s : State) (a : Long) : Long := s.imem.read32 .i a.toNat

/-- A peripheral, whose accesses may have side effects (R69). -/
def isDevice : Kind → Bool
  | .ram | .rom => false
  | .device _ | .intGlobEn => true

/-- One device stands at both addresses (R71). -/
def sameDevice (kx ky : Option Kind) : Bool :=
  match kx, ky with
  | some a, some b => isDevice a && decide (a = b)
  | _, _ => false

/-- An event that device `id` sees: an access at one of its own addresses, or reset. -/
def seenBy (id : Nat) : DeviceEvent → Bool
  | .read k _ _ | .write k _ _ _ => decide (k = id)
  | .reset => true

/-- What device `id` has seen of the core, newest first. -/
def State.seen (s : State) (id : Nat) : List DeviceEvent := s.devices.filter (seenBy id)

/-- What device `id` answers to a read (R68; log 6). -/
def deviceAnswer (s : State) (id : Nat) (sp : Space) (a : Long) : Long :=
  Config.deviceWord id (s.seen id) s.freeCount sp a

/-! ## The writes of an instruction -/

/-- One write. `flags` is the ALU's write of Z, N, V, E, C; `mr0` a move into MR0; `intEnable` the effect of a store to
INT_GLOB_EN on the disable count; `deviceRead` and `deviceWrite` are accesses that a device sees (R69). -/
inductive Write where
  | data (r : DataReg) (v : Word)
  | guard (x : AccName) (v : Byte)
  | prod (v : Long)
  | index (n : IndexReg) (v : Word)
  | lr0 (v : Word)
  | lr1 (v : Word)
  | mr0 (v : Word)
  | flags (f : Flags)
  | lc (v : Word)
  | ls (v : Word)
  | le (v : Word)
  | ipr0 (v : Word)
  | ipr1 (v : Word)
  | mem (b : Bus) (a : Long) (v : Word)
  | code (a : Long) (v : Long)
  | intEnable
  | deviceRead (id : Nat) (sp : Space) (a : Long)
  | deviceWrite (id : Nat) (sp : Space) (a : Long) (v : Long)
  deriving DecidableEq, Repr

/-- What a write writes to. The flags and MR0 are told apart: a move into MR0 wins over the flags and does not collide
with them (R35, R335). -/
inductive Place where
  | data (r : DataReg)
  | guard (x : AccName)
  | prod
  | index (n : IndexReg)
  | lr0 | lr1 | mr0 | flags | lc | ls | le | ipr0 | ipr1
  | mem (b : Bus) (a : Long)
  | code (a : Long)
  | intEnable
  | device (id : Nat)
  deriving DecidableEq, Repr

/-- The place of a write. -/
def Write.place : Write → Place
  | .data r _ => .data r
  | .guard x _ => .guard x
  | .prod _ => .prod
  | .index n _ => .index n
  | .lr0 _ => .lr0
  | .lr1 _ => .lr1
  | .mr0 _ => .mr0
  | .flags _ => .flags
  | .lc _ => .lc
  | .ls _ => .ls
  | .le _ => .le
  | .ipr0 _ => .ipr0
  | .ipr1 _ => .ipr1
  | .mem b a _ => .mem b a
  | .code a _ => .code a
  | .intEnable => .intEnable
  | .deviceRead id _ _ => .device id
  | .deviceWrite id _ _ _ => .device id

/-- The state after one write. -/
def Write.apply (s : State) : Write → State
  | .data r v => s.setData r v
  | .guard x v => s.setGuard x v
  | .prod v => { s with regs.p := v }
  | .index n v => s.setIndex n v
  | .lr0 v => { s with regs.lr0 := v }
  | .lr1 v => { s with regs.lr1 := v }
  | .mr0 v => { s with regs.mr0 := v &&& mr0Mask }
  | .flags f => { s with regs.mr0 := packFlags s.regs.mr0 f }
  | .lc v => { s with regs.lc := v }
  | .ls v => { s with regs.ls := v }
  | .le v => { s with regs.le := v }
  | .ipr0 v => { s with regs.ipr0 := v }
  | .ipr1 v => { s with regs.ipr1 := v }
  | .mem .x a v => { s with xmem := s.xmem.write16 a.toNat v }
  | .mem .y a v => { s with ymem := s.ymem.write16 a.toNat v }
  | .code a v => { s with imem := s.imem.write32 a.toNat v }
  | .intEnable => { s with intDisable := s.intDisable - 1 }
  | .deviceRead id sp a => { s with devices := .read id sp a :: s.devices }
  | .deviceWrite id sp a v => { s with devices := .write id sp a v :: s.devices }

/-- No two writes to one place. -/
def distinctPlaces : List Write → Bool
  | [] => true
  | w :: t => !(t.map Write.place).contains w.place && distinctPlaces t

/-- The state after the writes, in their order. -/
def commit : List Write → State → State
  | [], s => s
  | w :: t, s => commit t (w.apply s)

/-- All writes of an instruction take effect together; a collision stops (R15, R335). The writes of the arithmetic come
first, so that a move into MR0 wins over the flags (R35). -/
def commitAll (ws : List Write) (s : State) : Except Stop State :=
  if distinctPlaces ws then .ok (commit ws s) else .error (.fault .doubleWrite)

/-- The outcome of a meaning. -/
def finish : Except Stop State → Host.Outcome State Fault Refusal
  | .ok s => .next s
  | .error (.fault f) => .fault f
  | .error (.refuse r) => .refused r

/-- A reserved encoding. -/
def reserved {α : Type} (tag : Reserved) : Except Stop α := .error (.refuse (.reserved tag))

/-- A 16-bit write of A0 .. D1: a high register also sign-extends into its guard register (R23). -/
def writeData16 (r : DataReg) (v : Word) : List Write :=
  match r.wideAcc with
  | some x => [.data r v, .guard x (if v.msb then 0xFF#8 else 0x00#8)]
  | none => [.data r v]

/-- A 40-bit write of an accumulator (R24). -/
def writeAcc40 (x : AccName) (v : Wide) : List Write :=
  [.guard x (v.extractLsb' 32 8), .data (accHi x) (v.extractLsb' 16 16), .data (accLo x) (v.extractLsb' 0 16)]

/-! ## Memory accesses (R13, R68, R69) -/

/-- Free values are told apart by the bus that draws them. -/
def busIsY : Bus → Bool
  | .x => false
  | .y => true

/-- Read one word of X or Y. A device answers by the platform's device function (R68), INT_GLOB_EN with an unspecified
value (R293; log 6). -/
def loadWord (s : State) (b : Bus) (a : Long) : Except Stop Word :=
  match s.kind b a with
  | none => .error (.fault .unmappedAccess)
  | some .ram | some .rom => .ok (s.word b a)
  | some (.device id) => .ok ((deviceAnswer s id (busSpace b) a).extractLsb' 0 16)
  | some .intGlobEn => .ok (Config.freeRead s.freeCount (busIsY b))

/-- A read of X or Y as a device sees it (R69). -/
def readNotice (s : State) (b : Bus) (a : Long) : List Write :=
  match s.kind b a with
  | some (.device id) => [.deviceRead id (busSpace b) a]
  | _ => []

/-- Write one word of X or Y. A store to INT_GLOB_EN also counts the disable count down (R293); another device sees the
word stored (R68, R69; log 6). -/
def storeWord (s : State) (b : Bus) (a : Long) (v : Word) : Except Stop (List Write) :=
  match s.kind b a with
  | none => .error (.fault .unmappedAccess)
  | some .ram => .ok [.mem b a v]
  | some .rom => .error (.fault .romWrite)
  | some (.device id) => .ok [.deviceWrite id (busSpace b) a (v.zeroExtend 32)]
  | some .intGlobEn => .ok [.mem b a v, .intEnable]

/-- Read one word of I, for LDI and for the fetch (R68). -/
def loadCode (s : State) (a : Long) : Except Stop Long :=
  match s.codeKind a with
  | none => .error (.fault .unmappedAccess)
  | some .ram | some .rom => .ok (s.codeWord a)
  | some (.device id) => .ok (deviceAnswer s id .i a)

/-- A read of I as a device sees it (R69). -/
def codeReadNotice (s : State) (a : Long) : List Write :=
  match s.codeKind a with
  | some (.device id) => [.deviceRead id .i a]
  | _ => []

/-- Write one word of I, for STI. -/
def storeCode (s : State) (a : Long) (v : Long) : Except Stop (List Write) :=
  match s.codeKind a with
  | none => .error (.fault .unmappedAccess)
  | some .rom => .error (.fault .romWrite)
  | some .ram => .ok [.code a v]
  | some (.device id) => .ok [.deviceWrite id .i a v]

/-- The 32-bit address of the next instruction, IPR0:PC (R29). -/
def State.fetchAddr (s : State) : Long := s.regs.ipr0 ++ s.regs.pc

/-- Fetch the next instruction word (R252). -/
def fetch (s : State) : Except Stop Long := loadCode s s.fetchAddr

/-- The state after that fetch: only a device sees it (R69). -/
def afterFetch (s : State) : State :=
  { s with
    devices :=
      match s.codeKind s.fetchAddr with
      | some (.device id) => .read id .i s.fetchAddr :: s.devices
      | _ => s.devices }

/-! ## Interrupt (60_exceptions.md) -/

/-- The address of the vector of source n (R297). -/
def vectorAddr (n : BitVec 5) : Word := 0x0020#16 + n.zeroExtend 16

/-- The platform wants source n: presented only while the disable count is 0 and no request is latched; it then latches
the vector, counts the disable count up and wakes a halted core (R293, R301). -/
def presentRequest (n : BitVec 5) (s : State) : State :=
  if s.intDisable = 0 ∧ s.irq = none then
    { s with
      irq := some n
      intDisable := s.intDisable + 1
      wake := if s.halted then haltWake else s.wake
      halted := false }
  else s

/-- Interrupt entry, the machine's one trap (R296). -/
def enterInterrupt (n : BitVec 5) (s : State) : State :=
  { s with
    regs.lr1 := s.regs.pc
    regs.ipr1 := s.regs.ipr0
    regs.ipr0 := 0
    regs.mr0 := packL s.regs.mr0 true
    regs.pc := vectorAddr n
    irq := none
    prev := none
    prev2LoopWrite := false
    atVector := true }

/-- The return from an interrupt or a subroutine: L is cleared and the delayed transfer set, the page only where the
instruction names one (R261, R263, R298). -/
def delayedReturn (target : Word) (page : Option Word) (s : State) : State :=
  { s.setL false with pending := some { target, page } }

/-- Reset (R320): registers and hidden state as after reset, the peripheral's count at its reset value, the devices see
it (R321); the core leaves memory as it is, and platform and schedule are the environment's (log 47). -/
def resetCore (s : State) : State :=
  { s with
    regs := Regs.reset s.plat.resetVector
    pending := none
    prev := none
    prev2LoopWrite := false
    halted := false
    irq := none
    wake := 0
    atVector := false
    intDisable := s.plat.intResetDisable
    devices := .reset :: s.devices }

end Sys2Proof.Machine
end

