-- ==== Sys2Proof/Machine/Operands.lean ====
section
/-! DEFINITION. Every operand form: the ALU operands (40_alu.md R131, R132), the registers on the buses (42_moves.md
R216, R217), the post-modifications (R205 to R214), and the moves (R220 to R235) as lists of writes. -/

namespace Sys2Proof.Machine

/-! ## ALU operands -/

/-- A 16-bit register in a 40-bit operation: the middle part, sign-extended, with 16 zeros below (R132). -/
def widen (v : Word) : Wide := v.signExtend 24 ++ 0#16

/-- The operand in a 16-bit operation; the wide operands do not occur in one (R131, R132). -/
def val16 (s : State) : AluOp → Word
  | .reg r => s.data r
  | .null => 0
  | .ones => 0xFFFF#16
  | .p => s.regs.p.extractLsb' 0 16
  | .acc x => s.data (accLo x)

/-- The operand in a 40-bit operation (R132, 30_encoding.md R95). -/
def val40 (s : State) : AluOp → Wide
  | .reg r => widen (s.data r)
  | .null => 0
  | .ones => 0xFFFFFFFFFF#40
  | .p => s.regs.p.signExtend 40
  | .acc x => s.acc x

/-! ## Registers on the buses -/

/-- The 16-bit value a register puts on a bus (R216). The move NOP is no source of a register move (`moveWrites`), and
a full move with it is void (`fullWrites`). -/
def rdreg (s : State) : MoveReg → Word
  | .data r => s.data r
  | .guard x => guardRead (s.guard x)
  | .index n => s.index n
  | .lr0 => s.regs.lr0
  | .lr1 => s.regs.lr1
  | .mr0 => s.regs.mr0
  | .null => 0
  | .lc => s.regs.lc
  | .ls => s.regs.ls
  | .le => s.regs.le
  | .nop => 0
  | .ipr0 => s.regs.ipr0
  | .ipr1 => s.regs.ipr1

/-- The writes of putting `v` into a register (R217). MR0's unimplemented bits are dropped when the write takes effect
(R35). IPR0 may only be written with the value it holds (C14, D31; log 32). NULL and the move NOP are no place that a
write goes to: two moves of one instruction to NULL do not collide (log 51). -/
def wrreg (s : State) (v : Word) : MoveReg → Except Stop (List Write)
  | .data r => .ok (writeData16 r v)
  | .guard x => .ok [.guard x (v.extractLsb' 0 8)]
  | .index n => .ok [.index n v]
  | .lr0 => .ok [.lr0 v]
  | .lr1 => .ok [.lr1 v]
  | .mr0 => .ok [.mr0 v]
  | .null => .ok []
  | .lc => .ok [.lc v]
  | .ls => .ok [.ls v]
  | .le => .ok [.le v]
  | .nop => .ok []
  | .ipr0 => if v = s.regs.ipr0 then .ok [.ipr0 v] else .error (.fault .ipr0Move)
  | .ipr1 => .ok [.ipr1 v]

/-! ## Post-modification of an index register -/

/-- The pair register, whose number differs in bit 0 (R205). -/
def pairOf : IndexReg → IndexReg
  | .i0 => .i1 | .i1 => .i0 | .i2 => .i3 | .i3 => .i2
  | .i4 => .i5 | .i5 => .i4 | .i6 => .i7 | .i7 => .i6

/-- The least `k` from `k₀` on, within `fuel` tries, with `2^k ≥ len` (R209). -/
def alignExp (len : Nat) : Nat → Nat → Nat
  | k, 0 => k
  | k, fuel + 1 => if len ≤ 2 ^ k then k else alignExp len (k + 1) fuel

/-- The update inside a circular buffer of `len` words (R209); none where the pointer lies outside the buffer or the
step is larger than the buffer, for which no result is stated. -/
def modWrap (cur : Word) (step : Int) (len : Nat) : Option Word :=
  let block := 2 ^ alignExp len 0 16
  let off := cur.toNat % block
  if len ≤ off ∨ (len : Int) < step ∨ step < -(len : Int) then none
  else some (BitVec.ofNat 16 (cur.toNat - off + (((off : Int) + step) % (len : Int)).toNat))

/-- The `k`-bit number whose bit `i` is bit `k-1-i` of `x` (R213). -/
def revBits : Nat → Nat → Nat
  | 0, _ => 0
  | k + 1, x => (x % 2) * 2 ^ k + revBits k (x / 2)

/-- The position of the highest 1 bit below bit `k`, plus 1; 0 if there is none. -/
def topBit (x : Nat) : Nat → Nat
  | 0 => 0
  | k + 1 => if x.testBit k then k + 1 else topBit x k

/-- Bit-reversed addition of the modifier `mm = m[12:0]`; an empty modifier changes nothing (R213, D33; log 34). -/
def bitReverse (cur : Word) (mm : Nat) : Word :=
  let k := topBit mm 13
  let low := revBits k ((revBits k (cur.toNat % 2 ^ k) + revBits k (mm % 2 ^ k)) % 2 ^ k)
  BitVec.ofNat 16 (cur.toNat - cur.toNat % 2 ^ k + low)

/-- A modulo update, where AMM allows it (R214); where R209 states no result, a free value (log 8). `b` tells apart the
two moves of an instruction. -/
def moduloMod (s : State) (b : Bus) (cur : Word) (step : Int) (len : Nat) : Except Stop Word :=
  if s.plat.amm.getLsbD 0 then .ok ((modWrap cur step len).getD (Config.freeIndex s.freeCount (busIsY b)))
  else .error (.fault .ammDisabled)

/-- The modification given by the pair register, selected by its top three bits (R207 to R213). -/
def starMod (s : State) (b : Bus) (n : IndexReg) : Except Stop Word :=
  let cur := s.index n
  let m := s.index (pairOf n)
  match (m.extractLsb' 13 3).toNat with
  | 1 => moduloMod s b cur (m.extractLsb' 6 7).toInt ((m.extractLsb' 0 6).toNat + 1)
  | 2 | 3 => moduloMod s b cur (m.extractLsb' 6 8).toInt ((m.extractLsb' 0 6).toNat * 64 + 64)
  | 4 => moduloMod s b cur 1 ((m.extractLsb' 0 13).toNat + 1)
  | 5 => moduloMod s b cur (-1) ((m.extractLsb' 0 13).toNat + 1)
  | 6 =>
    if s.plat.amm.getLsbD 1 then .ok (bitReverse cur (m.extractLsb' 0 13).toNat)
    else .error (.fault .ammDisabled)
  | _ => .ok (cur + m)

/-- The write of a post-modification; an amount of 0 writes nothing (R206, R207). -/
def postWrites (s : State) (b : Bus) (n : IndexReg) : PostMod → Except Stop (List Write)
  | .amount k => .ok (if k = 0 then [] else [.index n (s.index n + BitVec.ofInt 16 k)])
  | .star => do
    let v ← starMod s b n
    .ok [.index n v]

/-! ## Moves -/

/-- The access of a load or store of register `r` at `a`: a load also when the target is NULL (R222, D12; log 21). -/
def transfer (s : State) (b : Bus) (a : Long) (store : Bool) (r : MoveReg) : Except Stop (List Write) :=
  if store then storeWord s b a (rdreg s r)
  else do
    let v ← loadWord s b a
    let ws ← wrreg s v r
    .ok (ws ++ readNotice s b a)

/-- A full move on a bus (R220); void with the move NOP (R222). -/
def fullWrites (s : State) (b : Bus) (f : FullMove) : Except Stop (List Write) :=
  if f.isVoid then .ok []
  else do
    let ws ← transfer s b ((s.index f.n).zeroExtend 32) f.store f.r
    let ps ← postWrites s b f.n f.p
    .ok (ws ++ ps)

/-- A short move is the full move with its data register and no or `*` modification (R221). -/
def shortAsFull (h : ShortMove) : FullMove :=
  { store := h.store, n := h.n, p := if h.star then .star else .amount 0, r := .data h.r }

/-- The X and the Y move of one instruction (R223, R225): one device may not stand on both sides (R71). -/
def twoWrites (s : State) (x y : FullMove) : Except Stop (List Write) :=
  let kx := s.kind .x ((s.index x.n).zeroExtend 32)
  let ky := s.kind .y ((s.index y.n).zeroExtend 32)
  if !x.isVoid && !y.isVoid && sameDevice kx ky then .error (.fault .sameDeviceXY)
  else do
    let ws ← fullWrites s .x x
    let vs ← fullWrites s .y y
    .ok (ws ++ vs)

/-- A register move (R230): with the move NOP as target nothing, as source reserved (R216; log 33). -/
def moveWrites (s : State) (src dst : MoveReg) : Except Stop (List Write) :=
  if dst = .nop then .ok []
  else if src = .nop then reserved .mvSourceNop
  else wrreg s (rdreg s src) dst

/-- A long-address move on X: no index register changes (R232). -/
def longWrites (s : State) (store : Bool) (n : IndexReg) (r : MoveReg) : Except Stop (List Write) :=
  if r = .nop then .ok []
  else transfer s .x (longAddress (s.index n) (s.index (pairOf n))) store r

/-- The access of LDI or STI at `a`: x1:x0 is stored, the word read is sign-extended (R235, D16; log 23). -/
def ibusAccess (s : State) (store : Bool) (a : Long) (x : AccName) : Except Stop (List Write) :=
  if store then storeCode s a (s.data (accHi x) ++ s.data (accLo x))
  else do
    let v ← loadCode s a
    .ok (writeAcc40 x (v.signExtend 40) ++ codeReadNotice s a)

/-- LDI and STI, in page zero while IPR0 is 0 (R235, D15; log 23). -/
def ibusWrites (s : State) (store : Bool) (n : IndexReg) (p : PostMod) (x : AccName) : Except Stop (List Write) :=
  if s.regs.ipr0 ≠ 0 then .error (.fault .ldiStiPage)
  else do
    let ws ← ibusAccess s store ((s.index n).zeroExtend 32) x
    let ps ← postWrites s .x n p
    .ok (ws ++ ps)

/-- The writes of a parallel move field (R224). -/
def parWrites (s : State) : ParMove → Except Stop (List Write)
  | .full b f => fullWrites s b f
  | .short x y => twoWrites s (shortAsFull x) (shortAsFull y)
  | .mv src dst => moveWrites s src dst
  | .longX store n r => longWrites s store n r
  | .ibus store n p x => ibusWrites s store n p x

/-! ## Execution units (R231, D34; log 35) -/

/-- The units of the double register move. -/
inductive ExecUnit where
  | alu | dag | pcu
  deriving DecidableEq, Repr

/-- The unit a register belongs to; NULL and the move NOP to none. -/
def unitOf : MoveReg → Option ExecUnit
  | .data _ | .guard _ => some .alu
  | .index _ => some .dag
  | .lr0 | .lr1 | .mr0 | .lc | .ls | .le | .ipr0 | .ipr1 => some .pcu
  | .null | .nop => none

/-- Source and target lie in one unit. -/
def sameUnit (src dst : MoveReg) : Bool := (unitOf src).isSome && decide (unitOf src = unitOf dst)

end Sys2Proof.Machine
end

