-- ==== Sys2Proof/Machine/Flags.lean ====
section
/-! DEFINITION. Every result and flag computation: the adder, the logic, the shifts, EXP, SAT, RND (40_alu.md R134 to
R160), the multiplier (41_multiplier.md R181, R182), and the jump conditions (43_control.md R255). -/

namespace Sys2Proof.Machine

/-- A result of `w` bits with its V and C; Z, N and E follow from the result (R134). -/
structure AluOut (w : Nat) where
  r : BitVec w
  v : Bool
  c : Bool

/-- E (R43, R134): in 40 bits, whether bits 39..31 differ among themselves; 0 in 16 bits. -/
def extFlag {w : Nat} (r : BitVec w) : Bool :=
  decide (w = 40) && !(decide (r.extractLsb' 31 9 = 0#9) || decide (r.extractLsb' 31 9 = 0x1FF#9))

/-- The flags common to all ALU instructions (R134), from the value written (D19; log 24). -/
def flagsOf {w : Nat} (o : AluOut w) : Flags :=
  { z := decide (o.r = 0#w), n := o.r.msb, v := o.v, e := extFlag o.r, c := o.c }

/-- The largest value of `w` bits if `positive`, else the least: what an overflow saturates to (R135, R150). -/
def saturated (w : Nat) (negative : Bool) : BitVec w := if negative then BitVec.intMin w else BitVec.intMax w

/-! ## Addition and subtraction (R135) -/

/-- The adder (R135; its overflow predicate is log 48). -/
def addcore (sat : Bool) (w : Nat) (a b : BitVec w) (cin : Bool) : AluOut w :=
  let full := a.toNat + b.toNat + cin.toNat
  let r := BitVec.ofNat w full
  let v := decide (a.msb = b.msb) && decide (r.msb ≠ a.msb)
  { r := if v && sat then saturated w a.msb else r, v := v, c := decide (2 ^ w ≤ full) }

/-- ADD (R136). -/
def addOut (sat : Bool) (w : Nat) (a b : BitVec w) : AluOut w := addcore sat w a b false

/-- ADDC (R137). -/
def addcOut (sat c : Bool) (w : Nat) (a b : BitVec w) : AluOut w := addcore sat w a b c

/-- SUB (R138). -/
def subOut (sat : Bool) (w : Nat) (a b : BitVec w) : AluOut w := addcore sat w a (~~~b) true

/-- SUBC (R139, D2; log 14). -/
def subcOut (sat c : Bool) (w : Nat) (a b : BitVec w) : AluOut w := addcore sat w a (~~~b) (subcCarryIn c)

/-! ## Logic (R140 to R145) -/

/-- A logic result: V and C are 0. -/
def logicOut {w : Nat} (r : BitVec w) : AluOut w := { r := r, v := false, c := false }

/-- The shift left by one of LSL and LSLC, from their own description (R142, R143): the carry-in enters at the right,
the MSB leaves into C, V says that the sign changed, and an overflow saturates as in ADD. -/
def shiftLeft1Out (sat cin : Bool) (w : Nat) (a : BitVec w) : AluOut w :=
  let r := (a <<< 1) ||| BitVec.ofNat w cin.toNat
  let v := decide (r.msb ≠ a.msb)
  { r := if v && sat then saturated w a.msb else r, v := v, c := a.msb }

/-! ## Single-operand results -/

/-- ABS (R146); `c` is the unspecified carry (log 9). -/
def absOut (sat c : Bool) (w : Nat) (a : BitVec w) : AluOut w :=
  if a.msb then
    let v := decide (a = BitVec.intMin w)
    { r := if v && sat then BitVec.intMax w else -a, v := v, c := c }
  else { r := a, v := false, c := c }

/-- ASR (R147). -/
def asrOut (w : Nat) (a : BitVec w) : AluOut w := { r := a.sshiftRight 1, v := false, c := a.getLsbD 0 }

/-- LSR (R148). -/
def lsrOut (w : Nat) (a : BitVec w) : AluOut w := { r := a >>> 1, v := false, c := a.getLsbD 0 }

/-- LSRC (R149): C enters at the left. -/
def lsrcOut (c : Bool) (w : Nat) (a : BitVec w) : AluOut w :=
  { r := (a >>> 1) ||| (BitVec.ofNat w c.toNat <<< (w - 1)), v := false, c := a.getLsbD 0 }

/-- How many of the bits `k-1 .. 0`, from the top down, equal the MSB before the first that does not (R153). -/
def leadRun {w : Nat} (a : BitVec w) : Nat → Nat
  | 0 => 0
  | k + 1 => if a.getLsbD k = a.msb then leadRun a k + 1 else 0

/-- EXP (R153, D4; log 16). -/
def expResult {w : Nat} (a : BitVec w) : Word :=
  if a = 0#w then 0 else BitVec.ofNat 16 (leadRun a w - expBias)

/-- The flags of EXP (R153). -/
def expFlags (r : Word) : Flags := { z := decide (r = 0), n := false, v := false, e := false, c := false }

/-- SAT: the value clamped to 32 signed bits, and whether it was (R154). -/
def satResult (a : Wide) : Wide × Bool :=
  if 0x7FFFFFFF < a.toInt then (0x007FFFFFFF#40, true)
  else if a.toInt < -0x80000000 then (0xFF80000000#40, true)
  else (a, false)

/-- The flags of SAT: E and C are 0 (R154). -/
def satFlags (r : Wide) (v : Bool) : Flags := { z := decide (r = 0), n := r.msb, v := v, e := false, c := false }

/-- The rounded value of RND, before its saturation (R160, D3; log 15). -/
def rndRounded (convergent : Bool) (a : Wide) : Int :=
  let q := a.toInt / 65536
  let rem := a.toInt % 65536
  let up :=
    if convergent then decide (0x8000 < rem) || (decide (rem = 0x8000) && decide (q % 2 = 1))
    else rndUpTowardZero (decide (a.toInt < 0)) rem
  if up then q + 1 else q

/-- RND: the rounded value clamped to 16 signed bits, and whether it was (R160). -/
def rndResult (convergent : Bool) (a : Wide) : Word × Bool :=
  let q := rndRounded convergent a
  if 0x7FFF < q then (0x7FFF#16, true)
  else if q < -0x8000 then (0x8000#16, true)
  else (BitVec.ofInt 16 q, false)

/-- The flags of RND: E and C are 0 (R160). -/
def rndFlags (r : Word) (v : Bool) : Flags := { z := decide (r = 0), n := r.msb, v := v, e := false, c := false }

/-! ## The barrel shifter (R150) -/

/-- What an ASHL gives whose count is out of range: free values (log 7). -/
def shiftFree (k : Nat) (w : Nat) : AluOut w :=
  { r := if w = 16 then (Config.freeShift16 k).setWidth w else (Config.freeShift40 k).setWidth w
    v := Config.freeShiftV k
    c := Config.freeShiftC k }

/-- A left shift by `n > 0`: V says that the top `n + 1` bits of the operand are not all equal (R150). -/
def shiftLeftOut (sat : Bool) (w : Nat) (a : BitVec w) (n : Nat) : AluOut w :=
  let v := decide (a.sshiftRight (w - 1 - n) ≠ a.sshiftRight (w - 1))
  { r := if v && sat then saturated w a.msb else a <<< n, v := v, c := a.getLsbD (w - n) }

/-- ASHL of `a` by the signed count `n` (R150). `k` numbers the free values of a count out of range. -/
def ashlOut (sat : Bool) (k : Nat) (w : Nat) (a : BitVec w) (n : Int) : AluOut w :=
  if n < -((w : Int) - 1) ∨ (w : Int) - 1 < n then shiftFree k w
  else if n = 0 then { r := a, v := false, c := false }
  else if 0 < n then shiftLeftOut sat w a n.toNat
  else { r := a.sshiftRight (-n).toNat, v := false, c := a.getLsbD ((-n).toNat - 1) }

/-! ## The multiplier (41_multiplier.md R181, R182) -/

/-- Op1's reading: the upper bit of mm (R98). -/
def mulValue1 (mode : MulMode) (x : Word) : Int :=
  match mode with
  | .ss | .su => x.toInt
  | .us | .uu => x.toNat

/-- Op2's reading: the lower bit of mm (R98). -/
def mulValue2 (mode : MulMode) (y : Word) : Int :=
  match mode with
  | .ss | .us => y.toInt
  | .su | .uu => y.toNat

/-- The product for P: doubled in fractional mode, saturated in the one case of R182 (D30; log 31). -/
def product (int sat : Bool) (mode : MulMode) (x y : Word) : Long :=
  let p := mulValue1 mode x * mulValue2 mode y
  if int then BitVec.ofInt 32 p
  else if sat && decide (mode = .ss) && decide (x = 0x8000#16) && decide (y = 0x8000#16) then 0x7FFFFFFF#32
  else BitVec.ofInt 32 (2 * p)

/-- The product of two registers under the mode bits of MR0 (R183). -/
def productOf (s : State) (mode : MulMode) (op1 op2 : DataReg) : Long :=
  product s.flagI s.flagS mode (s.data op1) (s.data op2)

/-! ## Conditions (R255) -/

/-- The sign of the result that set the flags: N, corrected by the overflow term (D1; log 13). -/
def signedLess (s : State) : Bool := s.flagN ^^ condOverflow s.flagV s.flagS

/-- What each condition tests (R255). -/
def condHolds (s : State) : Cond → Bool
  | .always => true
  | .cs => s.flagC
  | .es => s.flagE
  | .vs => s.flagV
  | .ns => s.flagN
  | .zs => s.flagZ
  | .lt => signedLess s
  | .le => signedLess s || s.flagZ
  | .cc => !s.flagC
  | .ec => !s.flagE
  | .vc => !s.flagV
  | .nc => !s.flagN
  | .zc => !s.flagZ
  | .ge => !signedLess s
  | .gt => !(signedLess s || s.flagZ)

end Sys2Proof.Machine
end

