-- ==== Sys2Proof/Machine/Arith.lean ====
section
/-! DEFINITION. The ALU and shifter instructions (40_alu.md R136 to R160). Each computes the writes of its operation and
commits them together with those of its parallel move (R161). -/

namespace Sys2Proof.Machine

/-- Commit the writes of an operation together with those of the parallel move field, all read from the state before
(00_scope.md R15, R161). -/
def runWith (ws : Except Stop (List Write)) (m : ParMove) (s : State) : Host.Outcome State Fault Refusal :=
  finish do
    let a ← ws
    let b ← parWrites s m
    commitAll (a ++ b) s

/-- A 16-bit result and its flags (R133, R134). -/
def result16 (dst : DataReg) (o : AluOut 16) : List Write := writeData16 dst o.r ++ [.flags (flagsOf o)]

/-- A 40-bit result and its flags; an even AAA is reserved (R133, R134). -/
def result40 (dst : DataReg) (o : AluOut 40) : Except Stop (List Write) :=
  match dst.wideAcc with
  | some x => .ok (writeAcc40 x o.r ++ [.flags (flagsOf o)])
  | none => reserved .aluResult40

/-- A two-operand operation at the width its operands give (R131, R132); P is no Op1. -/
def alu2 (f : (w : Nat) → BitVec w → BitVec w → AluOut w) (op1 op2 : AluOp) (dst : DataReg) (s : State) :
    Except Stop (List Write) :=
  if op1 = .p then reserved .aluOperand
  else if op1.isWide || op2.isWide then result40 dst (f 40 (val40 s op1) (val40 s op2))
  else .ok (result16 dst (f 16 (val16 s op1) (val16 s op2)))

/-- A single-operand operation at the width of its operand (R131). -/
def alu1 (f : (w : Nat) → BitVec w → AluOut w) (op2 : AluOp) (dst : DataReg) (s : State) :
    Except Stop (List Write) :=
  if op2.isWide then result40 dst (f 40 (val40 s op2)) else .ok (result16 dst (f 16 (val16 s op2)))

/-- ADD (R136). -/
def execAdd (op1 op2 : AluOp) (dst : DataReg) (m : ParMove) (s : State) : Host.Outcome State Fault Refusal :=
  runWith (alu2 (addOut s.flagS) op1 op2 dst s) m s

/-- ADDC (R137). -/
def execAddc (op1 op2 : AluOp) (dst : DataReg) (m : ParMove) (s : State) : Host.Outcome State Fault Refusal :=
  runWith (alu2 (addcOut s.flagS s.flagC) op1 op2 dst s) m s

/-- SUB (R138). -/
def execSub (op1 op2 : AluOp) (dst : DataReg) (m : ParMove) (s : State) : Host.Outcome State Fault Refusal :=
  runWith (alu2 (subOut s.flagS) op1 op2 dst s) m s

/-- SUBC (R139). -/
def execSubc (op1 op2 : AluOp) (dst : DataReg) (m : ParMove) (s : State) : Host.Outcome State Fault Refusal :=
  runWith (alu2 (subcOut s.flagS s.flagC) op1 op2 dst s) m s

/-- AND (R140). -/
def execAnd (op1 op2 : AluOp) (dst : DataReg) (m : ParMove) (s : State) : Host.Outcome State Fault Refusal :=
  runWith (alu2 (fun _ a b => logicOut (a &&& b)) op1 op2 dst s) m s

/-- OR (R144). -/
def execOr (op1 op2 : AluOp) (dst : DataReg) (m : ParMove) (s : State) : Host.Outcome State Fault Refusal :=
  runWith (alu2 (fun _ a b => logicOut (a ||| b)) op1 op2 dst s) m s

/-- XOR (R145). -/
def execXor (op1 op2 : AluOp) (dst : DataReg) (m : ParMove) (s : State) : Host.Outcome State Fault Refusal :=
  runWith (alu2 (fun _ a b => logicOut (a ^^^ b)) op1 op2 dst s) m s

/-- NOT, from its own description (R141): another name for XOR with ONES (log 44). -/
def execNot (op2 : AluOp) (dst : DataReg) (m : ParMove) (s : State) : Host.Outcome State Fault Refusal :=
  runWith (alu1 (fun _ a => logicOut (~~~a)) op2 dst s) m s

/-- LSL, from its own description (R142): another name for ADD with equal operands, so P is none (log 44). -/
def execLsl (op2 : AluOp) (dst : DataReg) (m : ParMove) (s : State) : Host.Outcome State Fault Refusal :=
  runWith (if op2 = .p then reserved .aluOperand else alu1 (shiftLeft1Out s.flagS false) op2 dst s) m s

/-- LSLC, from its own description (R143): another name for ADDC with equal operands (log 44). -/
def execLslc (op2 : AluOp) (dst : DataReg) (m : ParMove) (s : State) : Host.Outcome State Fault Refusal :=
  runWith (if op2 = .p then reserved .aluOperand else alu1 (shiftLeft1Out s.flagS s.flagC) op2 dst s) m s

/-- ABS (R146): C is a free value (log 9). -/
def execAbs (op2 : AluOp) (dst : DataReg) (m : ParMove) (s : State) : Host.Outcome State Fault Refusal :=
  runWith (alu1 (absOut s.flagS (Config.freeAbsCarry s.freeCount)) op2 dst s) m s

/-- ASR (R147). -/
def execAsr (op2 : AluOp) (dst : DataReg) (m : ParMove) (s : State) : Host.Outcome State Fault Refusal :=
  runWith (alu1 asrOut op2 dst s) m s

/-- LSR (R148). -/
def execLsr (op2 : AluOp) (dst : DataReg) (m : ParMove) (s : State) : Host.Outcome State Fault Refusal :=
  runWith (alu1 lsrOut op2 dst s) m s

/-- LSRC (R149). -/
def execLsrc (op2 : AluOp) (dst : DataReg) (m : ParMove) (s : State) : Host.Outcome State Fault Refusal :=
  runWith (alu1 (lsrcOut s.flagC) op2 dst s) m s

/-- The writes of ASHL: the width is Op1's, the count the whole 16-bit Op2 as a signed number (R150, D28; log 29). -/
def ashlWrites (op1 op2 : AluOp) (dst : DataReg) (s : State) : Except Stop (List Write) :=
  if op1 = .p then reserved .aluOperand
  else if op2.isWide then reserved .ashlOp2Wide
  else
    let n := (val16 s op2).toInt
    if op1.isWide then result40 dst (ashlOut s.flagS s.freeCount 40 (val40 s op1) n)
    else .ok (result16 dst (ashlOut s.flagS s.freeCount 16 (val16 s op1) n))

/-- ASHL (R150). -/
def execAshl (op1 op2 : AluOp) (dst : DataReg) (m : ParMove) (s : State) : Host.Outcome State Fault Refusal :=
  runWith (ashlWrites op1 op2 dst s) m s

/-- NOP (R152): no write of its own. -/
def execNop (m : ParMove) (s : State) : Host.Outcome State Fault Refusal := runWith (.ok []) m s

/-- The writes of EXP: a 16-bit result whatever the width of the operand (R153). -/
def expWrites (op2 : AluOp) (dst : DataReg) (s : State) : List Write :=
  let r := if op2.isWide then expResult (val40 s op2) else expResult (val16 s op2)
  writeData16 dst r ++ [.flags (expFlags r)]

/-- EXP (R153). -/
def execExp (op2 : AluOp) (dst : DataReg) (m : ParMove) (s : State) : Host.Outcome State Fault Refusal :=
  runWith (.ok (expWrites op2 dst s)) m s

/-- The writes of SAT: 40 bits to 40 bits (R154, D29; log 30). -/
def satWrites (op2 : AluOp) (dst : DataReg) (s : State) : Except Stop (List Write) :=
  if op2.isWide then
    match dst.wideAcc with
    | some x =>
      let (r, v) := satResult (val40 s op2)
      .ok (writeAcc40 x r ++ [.flags (satFlags r v)])
    | none => reserved .aluResult40
  else reserved .satOperand16

/-- SAT (R154). -/
def execSat (op2 : AluOp) (dst : DataReg) (m : ParMove) (s : State) : Host.Outcome State Fault Refusal :=
  runWith (satWrites op2 dst s) m s

/-- The writes of RND: 40 bits to 16 bits (R160, D29; log 30). -/
def rndWrites (op2 : AluOp) (dst : DataReg) (s : State) : Except Stop (List Write) :=
  if op2.isWide then
    let (r, v) := rndResult s.flagR (val40 s op2)
    .ok (writeData16 dst r ++ [.flags (rndFlags r v)])
  else reserved .rndOperand16

/-- RND (R160). -/
def execRnd (op2 : AluOp) (dst : DataReg) (m : ParMove) (s : State) : Host.Outcome State Fault Refusal :=
  runWith (rndWrites op2 dst s) m s

end Sys2Proof.Machine
end

