-- ==== Sys2Proof/Machine/Multiply.lean ====
section
/-! DEFINITION. The multiplier instructions MUL, MAC, MSU, RESP (41_multiplier.md R183 to R191). -/

namespace Sys2Proof.Machine

/-- MUL (R183): no flag. -/
def execMul (mode : MulMode) (op1 op2 : DataReg) (m : ParMove) (s : State) : Host.Outcome State Fault Refusal :=
  runWith (.ok [.prod (productOf s mode op1 op2)]) m s

/-- The writes of MAC and MSU: the accumulation `f` of the accumulator and the old P in 40 bits, and the new product,
both from the state before (R184, R185). -/
def macWrites (f : (w : Nat) → BitVec w → BitVec w → AluOut w) (mode : MulMode) (op1 op2 dst : DataReg) (s : State) :
    Except Stop (List Write) :=
  match dst.wideAcc with
  | some x =>
    let o := f 40 (s.acc x) (s.regs.p.signExtend 40)
    .ok (writeAcc40 x o.r ++ [.flags (flagsOf o), .prod (productOf s mode op1 op2)])
  | none => reserved .aluResult40

/-- MAC (R184). -/
def execMac (mode : MulMode) (op1 op2 dst : DataReg) (m : ParMove) (s : State) : Host.Outcome State Fault Refusal :=
  runWith (macWrites (addOut s.flagS) mode op1 op2 dst s) m s

/-- MSU (R185). -/
def execMsu (mode : MulMode) (op1 op2 dst : DataReg) (m : ParMove) (s : State) : Host.Outcome State Fault Refusal :=
  runWith (macWrites (subOut s.flagS) mode op1 op2 dst s) m s

/-- RESP (R191): P1 from Op2, P0 from Op1. -/
def execResp (op1 op2 : DataReg) (s : State) : Host.Outcome State Fault Refusal :=
  .next { s with regs.p := s.data op2 ++ s.data op1 }

end Sys2Proof.Machine
end

