-- ==== Sys2Proof/Machine/Moves.lean ====
section
/-! DEFINITION. LDC, the double moves, and the ten forms of the parallel move field standing alone, that is, carried by
the ALU NOP (42_moves.md R200 to R235; log 44). -/

namespace Sys2Proof.Machine

/-- Commit the writes of a move that stands alone. -/
def runMove (ws : Except Stop (List Write)) (s : State) : Host.Outcome State Fault Refusal :=
  finish do
    let a ← ws
    commitAll a s

/-- LDC (R201). -/
def execLdc (c : Word) (r : MoveReg) (s : State) : Host.Outcome State Fault Refusal := runMove (wrreg s c r) s

/-- The double register move (R231): each half's registers lie in different units. -/
def execMvDouble (xsrc xdst ysrc ydst : MoveReg) (s : State) : Host.Outcome State Fault Refusal :=
  finish do
    let a ← moveWrites s xsrc xdst
    let b ← moveWrites s ysrc ydst
    if sameUnit xsrc xdst || sameUnit ysrc ydst then .error (.fault .mvSameUnit)
    else commitAll (a ++ b) s

/-- The double full move (R223). -/
def execMoveDouble (x y : FullMove) (s : State) : Host.Outcome State Fault Refusal := runMove (twoWrites s x y) s

/-- LDX, full move (R220). -/
def execLdx (n : IndexReg) (p : PostMod) (r : MoveReg) (s : State) : Host.Outcome State Fault Refusal :=
  runMove (fullWrites s .x { store := false, n, p, r }) s

/-- STX, full move (R220). -/
def execStx (n : IndexReg) (p : PostMod) (r : MoveReg) (s : State) : Host.Outcome State Fault Refusal :=
  runMove (fullWrites s .x { store := true, n, p, r }) s

/-- LDY, full move (R220). -/
def execLdy (n : IndexReg) (p : PostMod) (r : MoveReg) (s : State) : Host.Outcome State Fault Refusal :=
  runMove (fullWrites s .y { store := false, n, p, r }) s

/-- STY, full move (R220). -/
def execSty (n : IndexReg) (p : PostMod) (r : MoveReg) (s : State) : Host.Outcome State Fault Refusal :=
  runMove (fullWrites s .y { store := true, n, p, r }) s

/-- Two short moves (R221). -/
def execMoveShort (x y : ShortMove) (s : State) : Host.Outcome State Fault Refusal :=
  runMove (twoWrites s (shortAsFull x) (shortAsFull y)) s

/-- The parallel register move (R230). -/
def execMv (src dst : MoveReg) (s : State) : Host.Outcome State Fault Refusal := runMove (moveWrites s src dst) s

/-- LDX, long address (R232). -/
def execLdxLong (n : IndexReg) (r : MoveReg) (s : State) : Host.Outcome State Fault Refusal :=
  runMove (longWrites s false n r) s

/-- STX, long address (R232). -/
def execStxLong (n : IndexReg) (r : MoveReg) (s : State) : Host.Outcome State Fault Refusal :=
  runMove (longWrites s true n r) s

/-- LDI (R235). -/
def execLdi (n : IndexReg) (p : PostMod) (x : AccName) (s : State) : Host.Outcome State Fault Refusal :=
  runMove (ibusWrites s false n p x) s

/-- STI (R235). -/
def execSti (n : IndexReg) (p : PostMod) (x : AccName) (s : State) : Host.Outcome State Fault Refusal :=
  runMove (ibusWrites s true n p x) s

end Sys2Proof.Machine
end

