-- ==== Sys2Proof/Machine/Control.lean ====
section
/-! DEFINITION. The program control instructions (43_control.md R258 to R275). A meaning reads its own address in PC; it
sets `pending`, and the step moves PC (R252); only JMPI writes PC itself (R265). -/

namespace Sys2Proof.Machine

/-- A delayed jump to `target` in the current page, if `taken`; L is cleared either way (R253, R258). -/
def delayedJump (taken : Bool) (target : Word) (s : State) : State :=
  { s.setL false with pending := if taken then some { target, page := none } else s.pending }

/-- Jcc (R258). -/
def execJcc (addr : Word) (cond : Cond) (s : State) : Host.Outcome State Fault Refusal :=
  .next (delayedJump (condHolds s cond) addr s)

/-- CALLcc (R260): LR0 takes the address after the delay slot whether or not the condition holds (D37; log 38). -/
def execCallcc (addr : Word) (cond : Cond) (s : State) : Host.Outcome State Fault Refusal :=
  .next (delayedJump (condHolds s cond) addr { s with regs.lr0 := s.regs.pc + 2#16 })

/-- JRcc (R261). -/
def execJr (cond : Cond) (s : State) : Host.Outcome State Fault Refusal :=
  .next (if condHolds s cond then delayedReturn s.regs.lr0 none s else s.setL false)

/-- JRcc with page (R261). -/
def execJrPage (n : IndexReg) (cond : Cond) (s : State) : Host.Outcome State Fault Refusal :=
  .next (if condHolds s cond then delayedReturn s.regs.lr0 (some (s.index n)) s else s.setL false)

/-- RETI (R263). -/
def execReti (s : State) : Host.Outcome State Fault Refusal := .next (delayedReturn s.regs.lr1 none s)

/-- RETI with page (R263). -/
def execRetiPage (n : IndexReg) (s : State) : Host.Outcome State Fault Refusal :=
  .next (delayedReturn s.regs.lr1 (some (s.index n)) s)

/-- The amount JMPI adds to its index register (R265). -/
def jmpiAmount : JmpiMode → Word
  | .keep => 0
  | .inc => 1
  | .dec => 0xFFFF#16

/-- JMPI (R265): the transfer is immediate, to page zero; no memory access, L unchanged. -/
def execJmpi (addr : Word) (mode : JmpiMode) (n : IndexReg) (s : State) : Host.Outcome State Fault Refusal :=
  let t := s.setIndex n (s.index n + jmpiAmount mode)
  .next { t with regs.pc := addr, regs.ipr0 := 0 }

/-- LOOP (R268); a register the field cannot name is reserved (R90). -/
def execLoop (count : MoveReg) (addr : Word) (s : State) : Host.Outcome State Fault Refusal :=
  if count.countable then
    let t := s.setL false
    .next { t with regs.lc := rdreg s count, regs.le := addr, regs.ls := s.regs.pc + 2#16 }
  else .refused (.reserved .moveRegister)

/-- HALT (R275): no effect while a request is latched (R302). -/
def execHalt (s : State) : Host.Outcome State Fault Refusal :=
  .next (if s.irq = none then { s with halted := true } else s)

end Sys2Proof.Machine
end

