-- ==== Sys2Proof/Machine/Sequence.lean ====
section
/-! DEFINITION. What a step adds around an instruction's meaning: what R51 records of it, the sequence restrictions
(70_reset_and_hazards.md R326 to R332), the next PC (43_control.md R252, R270, R271), interrupt entry (60_exceptions.md
R295, R297). -/

namespace Sys2Proof.Machine

/-! ## What an instruction is -/

/-- Jcc, CALLcc, JRcc, RETI, LOOP: the delayed change-of-flow instructions (R250). -/
def isDelayedCof : Instr → Bool
  | .jcc _ _ | .callcc _ _ | .jr _ | .jrPage _ _ | .reti | .retiPage _ | .loop _ _ => true
  | _ => false

/-- JMPI. -/
def isJmpi : Instr → Bool
  | .jmpi _ _ _ => true
  | _ => false

/-- The seven change-of-flow instructions (R250). -/
def isCof (i : Instr) : Bool := isDelayedCof i || isJmpi i

/-- The condition of Jcc, CALLcc, JRcc. -/
def condOf : Instr → Option Cond
  | .jcc _ c | .callcc _ c | .jr c | .jrPage _ c => some c
  | _ => none

/-- Jcc, CALLcc or JRcc with a condition other than always (R328). -/
def isConditional (i : Instr) : Bool :=
  match condOf i with
  | some c => decide (c ≠ .always)
  | none => false

/-- An ALU operation other than NOP, or MAC, MSU: what writes the arithmetic flags (R45). -/
def writesFlags : Instr → Bool
  | .add _ _ _ _ | .sub _ _ _ _ | .addc _ _ _ _ | .subc _ _ _ _ | .ashl _ _ _ _ => true
  | .and _ _ _ _ | .or _ _ _ _ | .xor _ _ _ _ | .mac _ _ _ _ _ | .msu _ _ _ _ _ => true
  | .abs _ _ _ | .asr _ _ _ | .lsr _ _ _ | .lsrc _ _ _ | .exp _ _ _ | .sat _ _ _ | .rnd _ _ _ => true
  | .not _ _ _ | .lsl _ _ _ | .lslc _ _ _ => true
  | _ => false

/-- The moves on the buses that an instruction contains. -/
def movesOf : Instr → List ParMove
  | .add _ _ _ m | .sub _ _ _ m | .addc _ _ _ m | .subc _ _ _ m | .ashl _ _ _ m => [m]
  | .and _ _ _ m | .or _ _ _ m | .xor _ _ _ m | .mac _ _ _ _ m | .msu _ _ _ _ m | .mul _ _ _ m => [m]
  | .abs _ _ m | .asr _ _ m | .lsr _ _ m | .lsrc _ _ m | .exp _ _ m | .sat _ _ m | .rnd _ _ m => [m]
  | .not _ _ m | .lsl _ _ m | .lslc _ _ m => [m]
  | .nop m => [m]
  | .moveDouble x y => [.full .x x, .full .y y]
  | .mvDouble xsrc xdst ysrc ydst => [.mv xsrc xdst, .mv ysrc ydst]
  | .ldx n p r => [.full .x { store := false, n, p, r }]
  | .stx n p r => [.full .x { store := true, n, p, r }]
  | .ldy n p r => [.full .y { store := false, n, p, r }]
  | .sty n p r => [.full .y { store := true, n, p, r }]
  | .moveShort x y => [.short x y]
  | .mv src dst => [.mv src dst]
  | .ldxLong n r => [.longX false n r]
  | .stxLong n r => [.longX true n r]
  | .ldi n p x => [.ibus false n p x]
  | .sti n p x => [.ibus true n p x]
  | .ldc _ _ | .jr _ | .jrPage _ _ | .reti | .retiPage _ | .resp _ _ | .loop _ _ | .jcc _ _ | .callcc _ _
  | .jmpi _ _ _ | .halt => []

/-- The registers a move writes from a bus. -/
def busTargets : ParMove → List MoveReg
  | .full _ f => if f.store then [] else [f.r]
  | .short x y => (if x.store then [] else [.data x.r]) ++ (if y.store then [] else [.data y.r])
  | .mv _ dst => [dst]
  | .longX store _ r => if store then [] else [r]
  | .ibus _ _ _ _ => []

/-- The registers a move puts on a bus. -/
def busSources : ParMove → List MoveReg
  | .full _ f => if f.store then [f.r] else []
  | .short x y => (if x.store then [.data x.r] else []) ++ (if y.store then [.data y.r] else [])
  | .mv src dst => if dst = .nop then [] else [src]
  | .longX store _ r => if store then [r] else []
  | .ibus _ _ _ _ => []

/-- The registers written by bus moves or by LDC. -/
def moveTargets : Instr → List MoveReg
  | .ldc _ r => [r]
  | i => (movesOf i).flatMap busTargets

/-- LC, LS and LE. -/
def isLoopReg : MoveReg → Bool
  | .lc | .ls | .le => true
  | _ => false

/-- It writes LC, LS or LE by a bus move (R271): LDC and LOOP do not count. -/
def writesLoopByBus (i : Instr) : Bool := ((movesOf i).flatMap busTargets).any isLoopReg

/-- It writes LC, LS, LE or MR0.L, or reads LC (R331). -/
def touchesLoop (i : Instr) : Bool :=
  isDelayedCof i || (moveTargets i).any (fun r => isLoopReg r || decide (r = .mr0)) ||
    ((movesOf i).flatMap busSources).any (fun r => decide (r = .lc))

/-- It contains LDI or STI (R329). -/
def usesIbus (i : Instr) : Bool :=
  (movesOf i).any fun m =>
    match m with
    | .ibus _ _ _ _ => true
    | _ => false

/-- The index register that addresses its STI. -/
def stiIndex (i : Instr) : Option IndexReg :=
  (movesOf i).findSome? fun m =>
    match m with
    | .ibus true n _ _ => some n
    | _ => none

/-- The record R51 keeps of an instruction executed in state `s`. -/
def pastOf (i : Instr) (s : State) : Past where
  delayedCof := isDelayedCof i
  plainJmpi := isJmpi i && !s.atVector
  wroteFlags := writesFlags i || (moveTargets i).any (fun r => decide (r = .mr0))
  usedIbus := usesIbus i
  stiAddr := (stiIndex i).map s.index
  touchedLoop := touchesLoop i
  busLoopWrite := writesLoopByBus i
  leBefore := s.regs.le
  lBefore := s.flagL

/-- A question about the last instruction; false when the record is empty. -/
def prevIs (s : State) (q : Past → Bool) : Bool :=
  match s.prev with
  | some p => q p
  | none => false

/-! ## The restrictions checked before the instruction executes -/

/-- A change-of-flow instruction at LE or immediately before it (R326); JMPI only while L is 0. -/
def atLoopEnd (i : Instr) (s : State) : Bool :=
  isCof i && (decide (s.regs.pc = s.regs.le) || decide (s.regs.pc + 1#16 = s.regs.le)) && !(isJmpi i && s.flagL)

/-- The next word was written by the STI just executed (R332). -/
def fetchedAfterSti (s : State) : Bool :=
  decide (s.regs.ipr0 = 0) && prevIs s (fun p => decide (p.stiAddr = some s.regs.pc))

/-- The first restriction that `i` breaks in state `s` (R297, R326 to R329, R332). -/
def sequenceFault (i : Instr) (s : State) : Option Fault :=
  if fetchedAfterSti s then some .stiNextFetch
  else if s.atVector && !isJmpi i then some .vectorNotJmpi
  else if isCof i && prevIs s Past.delayedCof then some .cofInDelaySlot
  else if isCof i && prevIs s Past.usedIbus then some .cofAfterLdiSti
  else if atLoopEnd i s then some .cofAtLoopEnd
  else if isConditional i && prevIs s Past.wroteFlags then some .flagsBeforeConditionalJump
  else none

/-! ## The restriction checked with the values after it (R331) -/

/-- Loop state touched next to a loop end, `s` before and `t` after the instruction `i`. With an empty record the values
before the last instruction are those of `s` (log 36). -/
def loopHazard (i : Instr) (s t : State) : Bool :=
  let le0 := match s.prev with | some p => p.leBefore | none => s.regs.le
  let l0 := match s.prev with | some p => p.lBefore | none => s.flagL
  (decide (s.regs.pc = le0) || decide (s.regs.pc = t.regs.le)) && (!l0 || !t.flagL) &&
    (prevIs s Past.touchedLoop || touchesLoop i)

/-! ## The next PC (R252) -/

/-- A loop end is detected at the instruction just executed, `t` the state after it (R270, R271). -/
def loopEndDetected (t : State) (suppressed : Bool) : Bool :=
  decide (t.regs.pc = t.regs.le) && !t.flagL && !suppressed

/-- Sequential advance (R252, R31). -/
def advance (t : State) : Except Stop State :=
  match advancePc t.regs.pc with
  | some a => .ok { t with regs.pc := a }
  | none => .error (.fault .pcWrap)

/-- The delayed transfer takes effect: PC, and IPR0 where it carries a page (R252). -/
def takeTransfer (tr : Transfer) (t : State) : State :=
  { t with regs.pc := tr.target, regs.ipr0 := tr.page.getD t.regs.ipr0 }

/-- Where control goes after the instruction `i` that left the state `t`: JMPI has gone already, a pending transfer wins
over a loop end, a loop end over the advance (R252). -/
def nextPc (i : Instr) (was : Option Transfer) (suppressed : Bool) (t : State) : Except Stop State :=
  if isJmpi i then .ok t
  else
    match was with
    | some tr => .ok (takeTransfer tr t)
    | none =>
      if loopEndDetected t suppressed && decide (t.regs.lc ≠ 0) then
        .ok { t with regs.lc := t.regs.lc - 1#16, regs.pc := t.regs.ls }
      else advance t

/-- The end of a step that executed `i` in `s`: the wake counter, the vector mark, the record of R51. -/
def record (i : Instr) (s t : State) : State :=
  { t with
    wake := t.wake - 1
    atVector := false
    prev := some (pastOf i s)
    prev2LoopWrite := prevIs s Past.busLoopWrite }

/-- What follows the meaning of `i`, from `s` before it and `t` after it. -/
def retire (i : Instr) (s t : State) : Except Stop State :=
  if loopHazard i s t then .error (.fault .loopRegisterHazard)
  else do
    let u ← nextPc i s.pending s.prev2LoopWrite t
    .ok (record i s u)

/-- A pending transfer leaves the state before the delay slot executes (R252). -/
def clearPending (s : State) : State := { s with pending := none }

/-! ## Interrupt entry -/

/-- The interrupt entered at this boundary, if any (R295). The conditions are those of R295 alone, also where another rule
speaks of the instruction that comes next: a second interrupt is entered at a vector before its JMPI has executed (R297,
70_reset_and_hazards.md R333; log 52), and one before the first instruction after reset (R320; log 53). -/
def entryDue (s : State) : Option (BitVec 5) :=
  match s.irq with
  | some n => if s.wake = 0 ∧ prevIs s Past.delayedCof = false then some n else none
  | none => none

/-- The step of an entry: refused directly after a JMPI of normal code (R296, R297). -/
def entryStep (n : BitVec 5) (s : State) : Except Stop State :=
  if prevIs s Past.plainJmpi then .error (.fault .interruptAfterJmpi) else .ok (enterInterrupt n s)

/-- The next event of the schedule; an empty schedule is idle for ever (log 37). -/
def nextEvent (s : State) : Event :=
  match s.events with
  | e :: _ => e
  | [] => .idle

/-- The state with that event taken off the schedule, at the next number of a step (log 10). -/
def dropEvent (s : State) : State := { s with events := s.events.tail, freeCount := s.freeCount + 1 }

end Sys2Proof.Machine
end

