-- ==== Sys2Proof/Machine/Dispatch.lean ====
section
/-! DEFINITION. The meaning of every instruction, one arm per constructor. -/

namespace Sys2Proof.Machine

def exec (i : Instr) (s : State) : Host.Outcome State Fault Refusal :=
  match i with
  | .ldc c r => Sys2Proof.Machine.execLdc c r s
  | .jr cond => Sys2Proof.Machine.execJr cond s
  | .jrPage n cond => Sys2Proof.Machine.execJrPage n cond s
  | .reti => Sys2Proof.Machine.execReti s
  | .retiPage n => Sys2Proof.Machine.execRetiPage n s
  | .resp op1 op2 => Sys2Proof.Machine.execResp op1 op2 s
  | .loop count addr => Sys2Proof.Machine.execLoop count addr s
  | .jcc addr cond => Sys2Proof.Machine.execJcc addr cond s
  | .callcc addr cond => Sys2Proof.Machine.execCallcc addr cond s
  | .jmpi addr mode n => Sys2Proof.Machine.execJmpi addr mode n s
  | .mvDouble xsrc xdst ysrc ydst => Sys2Proof.Machine.execMvDouble xsrc xdst ysrc ydst s
  | .halt => Sys2Proof.Machine.execHalt s
  | .moveDouble x y => Sys2Proof.Machine.execMoveDouble x y s
  | .add op1 op2 dst m => Sys2Proof.Machine.execAdd op1 op2 dst m s
  | .sub op1 op2 dst m => Sys2Proof.Machine.execSub op1 op2 dst m s
  | .addc op1 op2 dst m => Sys2Proof.Machine.execAddc op1 op2 dst m s
  | .subc op1 op2 dst m => Sys2Proof.Machine.execSubc op1 op2 dst m s
  | .ashl op1 op2 dst m => Sys2Proof.Machine.execAshl op1 op2 dst m s
  | .and op1 op2 dst m => Sys2Proof.Machine.execAnd op1 op2 dst m s
  | .or op1 op2 dst m => Sys2Proof.Machine.execOr op1 op2 dst m s
  | .xor op1 op2 dst m => Sys2Proof.Machine.execXor op1 op2 dst m s
  | .mac mode op1 op2 dst m => Sys2Proof.Machine.execMac mode op1 op2 dst m s
  | .msu mode op1 op2 dst m => Sys2Proof.Machine.execMsu mode op1 op2 dst m s
  | .abs op2 dst m => Sys2Proof.Machine.execAbs op2 dst m s
  | .asr op2 dst m => Sys2Proof.Machine.execAsr op2 dst m s
  | .lsr op2 dst m => Sys2Proof.Machine.execLsr op2 dst m s
  | .lsrc op2 dst m => Sys2Proof.Machine.execLsrc op2 dst m s
  | .exp op2 dst m => Sys2Proof.Machine.execExp op2 dst m s
  | .sat op2 dst m => Sys2Proof.Machine.execSat op2 dst m s
  | .rnd op2 dst m => Sys2Proof.Machine.execRnd op2 dst m s
  | .nop m => Sys2Proof.Machine.execNop m s
  | .mul mode op1 op2 m => Sys2Proof.Machine.execMul mode op1 op2 m s
  | .not op2 dst m => Sys2Proof.Machine.execNot op2 dst m s
  | .lsl op2 dst m => Sys2Proof.Machine.execLsl op2 dst m s
  | .lslc op2 dst m => Sys2Proof.Machine.execLslc op2 dst m s
  | .ldx n p r => Sys2Proof.Machine.execLdx n p r s
  | .stx n p r => Sys2Proof.Machine.execStx n p r s
  | .ldy n p r => Sys2Proof.Machine.execLdy n p r s
  | .sty n p r => Sys2Proof.Machine.execSty n p r s
  | .moveShort x y => Sys2Proof.Machine.execMoveShort x y s
  | .mv src dst => Sys2Proof.Machine.execMv src dst s
  | .ldxLong n r => Sys2Proof.Machine.execLdxLong n r s
  | .stxLong n r => Sys2Proof.Machine.execStxLong n r s
  | .ldi n p x => Sys2Proof.Machine.execLdi n p x s
  | .sti n p x => Sys2Proof.Machine.execSti n p x s

end Sys2Proof.Machine
end

