-- ==== Sys2Proof/Machine/Run.lean ====
section
/-! DEFINITION. What one step runs: the decoded instruction with its restrictions and what follows it, the fetch before
it, the interrupt entry and the events in place of it (43_control.md R252, 60_exceptions.md). -/

namespace Sys2Proof.Machine

/-- Execute the decoded instruction `i`: the restrictions, its meaning, and what follows it (R252). -/
def runInstr (i : Instr) (s : State) : Host.Outcome State Fault Refusal :=
  match sequenceFault i s with
  | some f => .fault f
  | none =>
    match exec i (clearPending s) with
    | .next t => finish (retire i s t)
    | .fault f => .fault f
    | .refused r => .refused r

/-- Fetch, decode and execute (R252). -/
def runNext (s : State) : Host.Outcome State Fault Refusal :=
  match fetch s with
  | .error e => finish (.error e)
  | .ok w =>
    match decode w with
    | .error tag => .refused (.reserved tag)
    | .ok i => runInstr i (afterFetch s)

/-- A step of the core after the event of this boundary: nothing while halted (R300), an interrupt entry where one is
due (R295), at a vector too, where it comes before the vector's JMPI (R297, 70_reset_and_hazards.md R333; log 52), else
the next instruction. -/
def coreStep (s : State) : Host.Outcome State Fault Refusal :=
  if s.halted then .next s
  else
    match entryDue s with
    | some n => finish (entryStep n s)
    | none => runNext s

/-- One step: the environment's event of this boundary (R293, R320), then the core. Reset takes the whole step. -/
def runEvent (s : State) : Host.Outcome State Fault Refusal :=
  match nextEvent s with
  | .idle => coreStep (dropEvent s)
  | .request n => coreStep (presentRequest n (dropEvent s))
  | .reset => .next (resetCore (dropEvent s))

/-- The word `w` where the next step fetches, at IPR0:PC, in a core that is not halted and with no event and no latched
request before the fetch (log 43). -/
def placeNext (s : State) (w : Long) : State :=
  { s with
    imem := s.imem.write32 s.fetchAddr.toNat w
    halted := false
    irq := none
    events := [] }

end Sys2Proof.Machine
end

