-- ==== Sys2Proof/Machine/Step.lean ====
section
/-! DEFINITION. One step (43_control.md R252). -/

namespace Sys2Proof.Machine

/-- One step: the event of this boundary, then the core (`runEvent`). -/
def step (s : State) : Host.Outcome State Fault Refusal := runEvent s

/-- The instruction of the table's bits stored where the next step fetches (log 43). -/
def State.withFetchWord (s : State) (nbits w : Nat) : State := placeNext s (tableWord nbits w)

end Sys2Proof.Machine
end

