-- ==== Sys2Proof/Safety.lean ====
section
/-! DEFINITION. The terms the statements use: runs, the invariant of the machine, what each instruction may change, and
the values that the rules give in exact integers. -/

namespace Sys2Proof.Machine

/-! ## Runs -/

/-- `t` is reached from `s` by `k` steps, none of which stops. -/
def Reaches (s : State) (k : Nat) (t : State) : Prop := Host.Core.run Sys2Proof.core k s = .next t

/-! ## The invariant -/

/-- What holds of every state of a run, and what every step keeps. -/
structure Inv (s : State) : Prop where
  /-- The memories are in canonical form (log 1). -/
  xWf : s.xmem.wf = true
  yWf : s.ymem.wf = true
  iWf : s.imem.wf = true
  /-- The unimplemented bits of MR0 are 0 (10_state.md R35). -/
  mr0Masked : s.regs.mr0 &&& ~~~mr0Mask = 0#16
  /-- The wake counter is in its range (R52). -/
  wakeRange : s.wake ≤ haltWake
  /-- A core that waits has no latched request (43_control.md R275, 60_exceptions.md R301). -/
  haltedIdle : s.halted = true → s.irq = none
  /-- The wake counter runs only before the entry of a latched request (R301). -/
  wakeLatched : s.wake ≠ 0 → s.irq ≠ none
  /-- A transfer is pending only directly after a delayed change-of-flow instruction (R50). -/
  pendingDelayed : s.pending ≠ none → prevIs s Past.delayedCof = true
  /-- At a vector the record is empty, the page is zero, L is set and PC is a vector (R296, R297). -/
  atVectorEntry : s.atVector = true →
    s.prev = none ∧ s.regs.ipr0 = 0#16 ∧ s.flagL = true ∧ ∃ n : BitVec 5, s.regs.pc = vectorAddr n
  /-- Both records are emptied together (R51). -/
  recordsEmpty : s.prev = none → s.prev2LoopWrite = false

/-! ## What an instruction may change -/

/-- The places that putting a value into a register touches (42_moves.md R217, 10_state.md R23). -/
def targetPlaces : MoveReg → List Place
  | .data r =>
    match r.wideAcc with
    | some x => [.data r, .guard x]
    | none => [.data r]
  | .guard x => [.guard x]
  | .index n => [.index n]
  | .lr0 => [.lr0]
  | .lr1 => [.lr1]
  | .mr0 => [.mr0]
  | .lc => [.lc]
  | .ls => [.ls]
  | .le => [.le]
  | .ipr0 => [.ipr0]
  | .ipr1 => [.ipr1]
  | .null | .nop => []

/-- The places of a 40-bit write (R24). -/
def accPlaces (x : AccName) : List Place := [.guard x, .data (accHi x), .data (accLo x)]

/-- The places of a post-modification: none for the amount 0 (R206). -/
def postPlaces (n : IndexReg) : PostMod → List Place
  | .amount k => if k = 0 then [] else [.index n]
  | .star => [.index n]

/-- The places of a store at `a`: the word, with the disable count at INT_GLOB_EN (60_exceptions.md R293); a device in the
place of memory. -/
def storePlaces (b : Bus) (a : Long) : Option Kind → List Place
  | some (.device id) => [.device id]
  | some .intGlobEn => [.mem b a, .intEnable]
  | _ => [.mem b a]

/-- The device that sees a read of X or Y. -/
def noticePlaces : Option Kind → List Place
  | some (.device id) => [.device id]
  | _ => []

/-- The places of an access at `a`: what is stored to; or the register loaded, and the device read. -/
def accessPlaces (s : State) (b : Bus) (a : Long) (store : Bool) (r : MoveReg) : List Place :=
  if store then storePlaces b a (s.kind b a) else targetPlaces r ++ noticePlaces (s.kind b a)

/-- The places of a full move: its word is at In (R220, R222). -/
def fullPlaces (s : State) (b : Bus) (f : FullMove) : List Place :=
  if f.isVoid then []
  else accessPlaces s b ((s.index f.n).zeroExtend 32) f.store f.r ++ postPlaces f.n f.p

/-- The places of LDI or STI at `a`: the word stored, a device in the place of memory; or the accumulator loaded, and the
device read. -/
def ibusPlaces (store : Bool) (a : Long) (x : AccName) : Option CodeKind → List Place
  | some (.device id) => if store then [.device id] else accPlaces x ++ [.device id]
  | _ => if store then [.code a] else accPlaces x

/-- The places of a parallel move field. -/
def movePlaces (s : State) : ParMove → List Place
  | .full b f => fullPlaces s b f
  | .short x y => fullPlaces s .x (shortAsFull x) ++ fullPlaces s .y (shortAsFull y)
  | .mv _ dst => targetPlaces dst
  | .longX store n r =>
    if r = .nop then [] else accessPlaces s .x (longAddress (s.index n) (s.index (pairOf n))) store r
  | .ibus store n p x =>
    ibusPlaces store ((s.index n).zeroExtend 32) x (s.codeKind ((s.index n).zeroExtend 32)) ++ postPlaces n p

/-- The places of a 16-bit result (40_alu.md R133). -/
def result16Places (dst : DataReg) : List Place := targetPlaces (.data dst)

/-- The places of a result of the operation's width (R133). -/
def resultPlaces (wide : Bool) (dst : DataReg) : List Place :=
  if wide then (match dst.wideAcc with | some x => accPlaces x | none => []) else result16Places dst

/-- Everything an instruction may change, apart from PC, the transfer it may set, the halt, and L, for which see
`changesControl`: its result, the flags where it writes them, P where it multiplies, and what its moves touch. -/
def touches (s : State) : Instr → List Place
  | .ldc _ r => targetPlaces r
  | .jr _ => []
  | .jrPage _ _ => []
  | .reti => []
  | .retiPage _ => []
  | .resp _ _ => [.prod]
  | .loop _ _ => [.lc, .ls, .le]
  | .jcc _ _ => []
  | .callcc _ _ => [.lr0]
  | .jmpi _ mode n => .ipr0 :: (if mode = .keep then [] else [.index n])
  | .mvDouble _ xdst _ ydst => targetPlaces xdst ++ targetPlaces ydst
  | .halt => []
  | .moveDouble x y => fullPlaces s .x x ++ fullPlaces s .y y
  | .add op1 op2 dst m => .flags :: resultPlaces (op1.isWide || op2.isWide) dst ++ movePlaces s m
  | .sub op1 op2 dst m => .flags :: resultPlaces (op1.isWide || op2.isWide) dst ++ movePlaces s m
  | .addc op1 op2 dst m => .flags :: resultPlaces (op1.isWide || op2.isWide) dst ++ movePlaces s m
  | .subc op1 op2 dst m => .flags :: resultPlaces (op1.isWide || op2.isWide) dst ++ movePlaces s m
  | .ashl op1 _ dst m => .flags :: resultPlaces op1.isWide dst ++ movePlaces s m
  | .and op1 op2 dst m => .flags :: resultPlaces (op1.isWide || op2.isWide) dst ++ movePlaces s m
  | .or op1 op2 dst m => .flags :: resultPlaces (op1.isWide || op2.isWide) dst ++ movePlaces s m
  | .xor op1 op2 dst m => .flags :: resultPlaces (op1.isWide || op2.isWide) dst ++ movePlaces s m
  | .mac _ _ _ dst m => .flags :: .prod :: resultPlaces true dst ++ movePlaces s m
  | .msu _ _ _ dst m => .flags :: .prod :: resultPlaces true dst ++ movePlaces s m
  | .abs op2 dst m => .flags :: resultPlaces op2.isWide dst ++ movePlaces s m
  | .asr op2 dst m => .flags :: resultPlaces op2.isWide dst ++ movePlaces s m
  | .lsr op2 dst m => .flags :: resultPlaces op2.isWide dst ++ movePlaces s m
  | .lsrc op2 dst m => .flags :: resultPlaces op2.isWide dst ++ movePlaces s m
  | .exp _ dst m => .flags :: result16Places dst ++ movePlaces s m
  | .sat _ dst m => .flags :: resultPlaces true dst ++ movePlaces s m
  | .rnd _ dst m => .flags :: result16Places dst ++ movePlaces s m
  | .nop m => movePlaces s m
  | .mul _ _ _ m => .prod :: movePlaces s m
  | .not op2 dst m => .flags :: resultPlaces op2.isWide dst ++ movePlaces s m
  | .lsl op2 dst m => .flags :: resultPlaces op2.isWide dst ++ movePlaces s m
  | .lslc op2 dst m => .flags :: resultPlaces op2.isWide dst ++ movePlaces s m
  | .ldx n p r => fullPlaces s .x { store := false, n, p, r }
  | .stx n p r => fullPlaces s .x { store := true, n, p, r }
  | .ldy n p r => fullPlaces s .y { store := false, n, p, r }
  | .sty n p r => fullPlaces s .y { store := true, n, p, r }
  | .moveShort x y => fullPlaces s .x (shortAsFull x) ++ fullPlaces s .y (shortAsFull y)
  | .mv _ dst => targetPlaces dst
  | .ldxLong n r => movePlaces s (.longX false n r)
  | .stxLong n r => movePlaces s (.longX true n r)
  | .ldi n p x => movePlaces s (.ibus false n p x)
  | .sti n p x => movePlaces s (.ibus true n p x)

/-- Every register, every byte of memory, the disable count and what each device has seen, unless among the places `ps`,
is in `t` what it is in `s`. PC is not spoken of, nor bit 7 of MR0, the loop flag. -/
structure SameOutside (ps : List Place) (s t : State) : Prop where
  data : ∀ r, .data r ∉ ps → t.data r = s.data r
  guard : ∀ x, .guard x ∉ ps → t.guard x = s.guard x
  prod : .prod ∉ ps → t.regs.p = s.regs.p
  index : ∀ n, .index n ∉ ps → t.index n = s.index n
  lr0 : .lr0 ∉ ps → t.regs.lr0 = s.regs.lr0
  lr1 : .lr1 ∉ ps → t.regs.lr1 = s.regs.lr1
  lc : .lc ∉ ps → t.regs.lc = s.regs.lc
  ls : .ls ∉ ps → t.regs.ls = s.regs.ls
  le : .le ∉ ps → t.regs.le = s.regs.le
  ipr0 : .ipr0 ∉ ps → t.regs.ipr0 = s.regs.ipr0
  ipr1 : .ipr1 ∉ ps → t.regs.ipr1 = s.regs.ipr1
  /-- The five arithmetic flags are bits 4 to 0 of MR0 (R34). -/
  flags : .mr0 ∉ ps → .flags ∉ ps → ∀ k, k < 5 → t.regs.mr0.getLsbD k = s.regs.mr0.getLsbD k
  modes : .mr0 ∉ ps → ∀ k, 5 ≤ k → k ≠ 7 → t.regs.mr0.getLsbD k = s.regs.mr0.getLsbD k
  xmem : ∀ b, (∀ a, .mem .x a ∈ ps → b ≠ 2 * a.toNat ∧ b ≠ 2 * a.toNat + 1) →
    t.xmem.readByte .x b = s.xmem.readByte .x b
  ymem : ∀ b, (∀ a, .mem .y a ∈ ps → b ≠ 2 * a.toNat ∧ b ≠ 2 * a.toNat + 1) →
    t.ymem.readByte .y b = s.ymem.readByte .y b
  imem : ∀ b, (∀ a, .code a ∈ ps → b / 4 ≠ a.toNat) → t.imem.readByte .i b = s.imem.readByte .i b
  intDisable : .intEnable ∉ ps → t.intDisable = s.intDisable
  devices : ∀ id, .device id ∉ ps → t.seen id = s.seen id

/-- The fields that no meaning writes: the record of the last instructions, the latched request, the wake counter, the
vector mark, the platform, the schedule, the number of the step. -/
structure SameHidden (s t : State) : Prop where
  prev : t.prev = s.prev
  prev2LoopWrite : t.prev2LoopWrite = s.prev2LoopWrite
  irq : t.irq = s.irq
  wake : t.wake = s.wake
  atVector : t.atVector = s.atVector
  plat : t.plat = s.plat
  events : t.events = s.events
  freeCount : t.freeCount = s.freeCount

/-! ## Values in exact integers -/

/-- The signed numbers of `w` bits. -/
def fits (w : Nat) (n : Int) : Bool := decide (-(2 ^ (w - 1)) ≤ n ∧ n < 2 ^ (w - 1))

/-- The exact value `n` as a result of `w` bits: wrapped, or saturated where it does not fit and `sat` holds (R135). -/
def exactResult (sat : Bool) (w : Nat) (n : Int) : BitVec w :=
  if !sat || fits w n then BitVec.ofInt w n
  else if n < 0 then BitVec.ofInt w (-(2 ^ (w - 1))) else BitVec.ofInt w (2 ^ (w - 1) - 1)

/-- The flags of a 16-bit result (R134): E is 0. -/
def flags16 (r : Word) (v c : Bool) : Flags :=
  { z := decide (r.toNat = 0), n := decide (r.toInt < 0), v := v, e := false, c := c }

/-- The flags of a 40-bit result (R134): E says that the result is no signed 32-bit number. -/
def flags40 (r : Wide) (v c : Bool) : Flags :=
  { z := decide (r.toNat = 0), n := decide (r.toInt < 0), v := v, e := !fits 32 r.toInt, c := c }

/-! ## States after a result -/

/-- A 16-bit value in A0 .. D1, its sign in the guard register of a high one (R23). -/
def putData (s : State) (r : DataReg) (v : Word) : State :=
  match r.wideAcc with
  | some x => (s.setData r v).setGuard x (if v.toInt < 0 then 0xFF#8 else 0x00#8)
  | none => s.setData r v

/-- A 40-bit value in an accumulator (R24). -/
def putAcc (s : State) (x : AccName) (v : Wide) : State :=
  ((s.setGuard x (v.extractLsb' 32 8)).setData (accHi x) (v.extractLsb' 16 16)).setData (accLo x) (v.extractLsb' 0 16)

/-- The arithmetic flags written. -/
def putFlags (s : State) (f : Flags) : State := { s with regs.mr0 := packFlags s.regs.mr0 f }

/-- The product written. -/
def putProd (s : State) (v : Long) : State := { s with regs.p := v }

/-- The value `v` put into a register of Table 10 (R217): low 8 bits into a guard register, MR0 masked, NULL and the move
NOP discard it; IPR0 takes only the value it holds. -/
def putReg (s : State) (r : MoveReg) (v : Word) : State :=
  match r with
  | .data d => putData s d v
  | .guard x => s.setGuard x (v.extractLsb' 0 8)
  | .index n => s.setIndex n v
  | .lr0 => { s with regs.lr0 := v }
  | .lr1 => { s with regs.lr1 := v }
  | .mr0 => { s with regs.mr0 := v &&& mr0Mask }
  | .lc => { s with regs.lc := v }
  | .ls => { s with regs.ls := v }
  | .le => { s with regs.le := v }
  | .ipr1 => { s with regs.ipr1 := v }
  | .null | .nop | .ipr0 => s

/-- The index register after a post-modification: In + k, or what the pair register gives (R206, R207). -/
def nextIndex (s : State) (b : Bus) (n : IndexReg) : PostMod → Except Stop Word
  | .amount k => .ok (s.index n + BitVec.ofInt 16 k)
  | .star => starMod s b n

/-- A word stored in X or Y. -/
def putWord (s : State) (b : Bus) (a : Long) (v : Word) : State :=
  match b with
  | .x => { s with xmem := s.xmem.write16 a.toNat v }
  | .y => { s with ymem := s.ymem.write16 a.toNat v }

/-- A word of X or Y read, which only a device sees (20_memory.md R69). -/
def afterRead (s : State) (b : Bus) (a : Long) : State :=
  match s.kind b a with
  | some (.device id) => { s with devices := .read id (busSpace b) a :: s.devices }
  | _ => s

/-- A word of I read by LDI, which only a device sees. -/
def afterCodeRead (s : State) (a : Long) : State :=
  match s.codeKind a with
  | some (.device id) => { s with devices := .read id .i a :: s.devices }
  | _ => s

/-- No two of the moves' writes fall together, and none falls on a place of `ps` (70_reset_and_hazards.md R335). -/
def noClash (ps : List Place) (ws : List Write) : Bool :=
  distinctPlaces ws && ws.all (fun w => !ps.contains w.place)

/-! ## The signed reading of a product (41_multiplier.md R181, R182) -/

/-- The number a multiplier operand stands for under its signedness (R98). -/
def operandValue (signed : Bool) (x : Word) : Int := if signed then x.toInt else x.toNat

/-- Whether the mode reads Op1 as signed: the first letter (R98). -/
def op1Signed (mode : MulMode) : Bool := decide (mode = .ss) || decide (mode = .su)

/-- Whether the mode reads Op2 as signed: the second letter (R98). -/
def op2Signed (mode : MulMode) : Bool := decide (mode = .ss) || decide (mode = .us)

/-! ## Reserved codes (30_encoding.md R111) -/

/-- A six-bit register code that Table 10 marks reserved or does not list (R104). -/
def badRegister (r : BitVec 6) : Prop :=
  r = 0b001011#6 ∨ (0b011000 ≤ r.toNat ∧ r.toNat ≤ 0b011111) ∨ (0b100101 ≤ r.toNat ∧ r.toNat ≤ 0b111101)

/-- A six-bit condition code that Table 1 does not list (R108). -/
def badCondition (c : BitVec 6) : Prop := ∀ k : Cond, k.code ≠ c

/-- A parallel move field that is reserved, with its tag (R100, R111): no selector of 7.5, or a reserved register code in
a full move, a register move or a long-address move. -/
def reservedMove (m : BitVec 17) (tag : Reserved) : Prop :=
  (tag = .parallelMove ∧
    (m.extractLsb' 14 3 = 0b011#3 ∨ (m.extractLsb' 14 3 = 0b001#3 ∧ 6 ≤ (m.extractLsb' 10 4).toNat))) ∨
  (tag = .moveRegister ∧
    (((m.extractLsb' 14 3 = 0b000#3 ∨ m.extractLsb' 14 3 = 0b010#3) ∧ badRegister (m.extractLsb' 0 6)) ∨
      (m.extractLsb' 12 5 = 0b00100#5 ∧ (badRegister (m.extractLsb' 6 6) ∨ badRegister (m.extractLsb' 0 6))) ∨
      (m.extractLsb' 10 7 = 0b0010100#7 ∧ badRegister (m.extractLsb' 0 6))))

/-! ## What the sequence restrictions look at (10_state.md R51) -/

/-- Jcc, CALLcc, JRcc, RETI or LOOP (R250). -/
def DelayedCof (i : Instr) : Prop :=
  (∃ a c, i = .jcc a c) ∨ (∃ a c, i = .callcc a c) ∨ (∃ c, i = .jr c) ∨ (∃ n c, i = .jrPage n c) ∨ i = .reti ∨
    (∃ n, i = .retiPage n) ∨ ∃ r a, i = .loop r a

/-- It reads LC as a store or register move source; LOOP's count is LOOP's own. -/
def ReadsLc (i : Instr) : Prop :=
  (∃ b n p, .full b { store := true, n := n, p := p, r := .lc } ∈ movesOf i) ∨ (∃ n, .longX true n .lc ∈ movesOf i) ∨
    ∃ dst, dst ≠ .nop ∧ .mv .lc dst ∈ movesOf i

/-- It writes LC, LS or LE. -/
def WritesLoop (s : State) (i : Instr) : Prop := .lc ∈ touches s i ∨ .ls ∈ touches s i ∨ .le ∈ touches s i

/-- It writes LC, LS, LE or MR0.L, or reads LC (70_reset_and_hazards.md R331). -/
def TouchesLoop (s : State) (i : Instr) : Prop :=
  DelayedCof i ∨ WritesLoop s i ∨ .mr0 ∈ touches s i ∨ ReadsLc i

/-- What R51 keeps of the instruction `i` executed in the state `s`. -/
structure Records (s : State) (i : Instr) (p : Past) : Prop where
  delayedCof : p.delayedCof = true ↔ DelayedCof i
  plainJmpi : p.plainJmpi = true ↔ (∃ a mode n, i = .jmpi a mode n) ∧ s.atVector = false
  wroteFlags : p.wroteFlags = true ↔ .flags ∈ touches s i ∨ .mr0 ∈ touches s i
  usedIbus : p.usedIbus = true ↔ ∃ store n q x, .ibus store n q x ∈ movesOf i
  stiAddr : ∀ a, p.stiAddr = some a ↔ ∃ n q x, .ibus true n q x ∈ movesOf i ∧ a = s.index n
  touchedLoop : p.touchedLoop = true ↔ TouchesLoop s i
  /-- LDC and LOOP do not suppress the loop-end test (43_control.md R271). -/
  busLoopWrite : p.busLoopWrite = true ↔ WritesLoop s i ∧ (∀ c r, i ≠ .ldc c r) ∧ ∀ r a, i ≠ .loop r a
  leBefore : p.leBefore = s.regs.le
  lBefore : p.lBefore = s.flagL

/-- The window of R331 for the instruction `i` between the states `s` and `t`. With an empty record the values before
the last instruction are those of `s` (log 36). -/
def LoopWindow (s t : State) (i : Instr) : Prop :=
  ∃ (le0 : Word) (l0 : Bool),
    (∀ p, s.prev = some p → le0 = p.leBefore ∧ l0 = p.lBefore) ∧ (s.prev = none → le0 = s.regs.le ∧ l0 = s.flagL) ∧
    (s.regs.pc = le0 ∨ s.regs.pc = t.regs.le) ∧ (l0 = false ∨ t.flagL = false) ∧
    ((∃ p, s.prev = some p ∧ p.touchedLoop = true) ∨ TouchesLoop s i)

/-! ## Execution units (42_moves.md R231, D34; log 35) -/

/-- A register of the ALU: A0 .. D1, A2 .. D2. -/
def InAlu (r : MoveReg) : Prop := (∃ d, r = .data d) ∨ ∃ x, r = .guard x

/-- A register of the DAG: I0 .. I7. -/
def InDag (r : MoveReg) : Prop := ∃ n, r = .index n

/-- A register of the PCU. -/
def InPcu (r : MoveReg) : Prop :=
  r = .lr0 ∨ r = .lr1 ∨ r = .mr0 ∨ r = .lc ∨ r = .ls ∨ r = .le ∨ r = .ipr0 ∨ r = .ipr1

/-- A move stays in one execution unit. NULL and the move NOP belong to none. -/
def StaysInUnit (src dst : MoveReg) : Prop :=
  (InAlu src ∧ InAlu dst) ∨ (InDag src ∧ InDag dst) ∨ (InPcu src ∧ InPcu dst)

/-! ## Steps that run an instruction -/

/-- `u` is the state in which the core acts in the step from `s`, unless that step is a reset: the event of this boundary
is taken off the schedule, and a request of it is presented (60_exceptions.md R293; log 37). -/
def AtBoundary (s u : State) : Prop :=
  (nextEvent s = .idle ∧ u = dropEvent s) ∨ ∃ n, nextEvent s = .request n ∧ u = presentRequest n (dropEvent s)

/-- The next instruction of `s` is `i`: the word at IPR0:PC decodes to it. -/
def NextIs (s : State) (i : Instr) : Prop := ∃ w, fetch s = .ok w ∧ decode w = .ok i

/-- The core in `s` executes `i` next: it does not wait and enters no interrupt, and its next instruction is `i`. -/
structure Runs (s : State) (i : Instr) : Prop where
  awake : s.halted = false
  noEntry : entryDue s = none
  next : NextIs s i

/-- The core in `s` executes `i` next, no restriction stops it, and its meaning leaves the state `t`. -/
structure Executes (s : State) (i : Instr) (t : State) : Prop where
  runs : Runs s i
  allowed : sequenceFault i s = none
  meaning : exec i (clearPending (afterFetch s)) = .next t
  noHazard : loopHazard i s t = false

/-- MUL, MAC, MSU and RESP, the writers of P (41_multiplier.md R192). -/
def writesProduct : Instr → Bool
  | .mul _ _ _ _ | .mac _ _ _ _ _ | .msu _ _ _ _ _ | .resp _ _ => true
  | _ => false

end Sys2Proof.Machine
end

