-- ==== Sys2Proof/Certificates/Slice0/Obligations.lean ====
section
/-! DEFINITION. The statements for the provers. Each docstring names the rules of spec/ the statement rests on; where it
rests on a choice of the spec (a decision D<n>) or of the model (a log entry) it says so. -/

section

open Sys2Proof Sys2Proof.Machine

/-! ## Encoding -/

/-- 30_encoding.md R82 to R110, R124: every well-formed instruction decodes from its word; an alias from its core's. -/
def Obligations.DecodeEncode : Prop :=
  ∀ i : Instr, i.wellFormed = true → decode (encode i) = .ok i.core

/-- 30_encoding.md and 95_test_vectors.md: words written out in the spec decode to the instructions they stand for. -/
def Obligations.SpecWordsDecode : Prop :=
  decode 0x003FFFC1#32 = .ok (.ldc 0xFFFF#16 (.data .a1)) ∧
  decode 0x208001C0#32 = .ok (.jrPage .i7 .always) ∧
  decode 0x22100000#32 = .ok (.resp .a0 .a1) ∧
  decode 0x2410040E#32 = .ok (.loop .ls 0x4010#16) ∧
  decode 0x28104005#32 = .ok (.jcc 0x4100#16 .zs) ∧
  decode 0x2A10400E#32 = .ok (.jmpi 0x4100#16 .inc .i6) ∧
  decode 0x2B010051#32 = .ok (.mvDouble (.data .a0) (.index .i0) (.data .a1) (.index .i1)) ∧
  decode 0x40140024#32 =
    .ok (.add (.reg .a0) (.reg .a1) .b0 (.full .x { store := false, n := .i0, p := .amount 0, r := .nop })) ∧
  decode 0x56220024#32 =
    .ok (.mac .ss .b1 .b0 .a1 (.full .x { store := false, n := .i0, p := .amount 0, r := .nop })) ∧
  decode 0xFE260024#32 = .ok (.mul .ss .b1 .b0 (.full .x { store := false, n := .i0, p := .amount 0, r := .nop })) ∧
  decode 0xF4000241#32 = .ok (.ldx .i0 (.amount (-7)) (.data .a1)) ∧
  decode 0xF4005404#32 = .ok (.ldi .i0 (.amount 1) .a)

/-- 30_encoding.md R112 (the spec's decision D23, log 26): the ignored bits of the control formats, of LDC and of NOP, the
carrier of the ten move rows (log 44), have no effect on decoding. -/
def Obligations.IgnoredBitsIgnored : Prop :=
  (∀ (g : BitVec 7) (c : Word) (r : MoveReg), decode (0b000#3 ++ g ++ c ++ r.code) = .ok (.ldc c r)) ∧
  (∀ (g : BitVec 17) (c : Cond), decode (0x20#8 ++ 0b0#1 ++ g ++ c.code) = .ok (.jr c)) ∧
  (∀ (g : BitVec 14) (n : IndexReg) (c : Cond), decode (0x20#8 ++ 0b1#1 ++ g ++ n.code ++ c.code) = .ok (.jrPage n c)) ∧
  (∀ g : BitVec 23, decode (0x21#8 ++ 0b0#1 ++ g) = .ok .reti) ∧
  (∀ (g : BitVec 14) (n : IndexReg) (h : BitVec 6), decode (0x21#8 ++ 0b1#1 ++ g ++ n.code ++ h) = .ok (.retiPage n)) ∧
  (∀ (g : BitVec 1) (x y : DataReg) (h : BitVec 17), decode (0x22#8 ++ g ++ y.code ++ x.code ++ h) = .ok (.resp x y)) ∧
  (∀ (g : BitVec 4) (a : Word) (h : BitVec 1) (r : MoveReg), r.countable = true →
    decode (0b001001#6 ++ g ++ a ++ h ++ r.code.extractLsb' 0 5) = .ok (.loop r a)) ∧
  (∀ (g : BitVec 2) (a : Word) (c : Cond), decode (0x28#8 ++ g ++ a ++ c.code) = .ok (.jcc a c)) ∧
  (∀ (g : BitVec 2) (a : Word) (c : Cond), decode (0x29#8 ++ g ++ a ++ c.code) = .ok (.callcc a c)) ∧
  (∀ (g : BitVec 2) (a : Word) (h : BitVec 1) (m : JmpiMode) (n : IndexReg),
    decode (0x2A#8 ++ g ++ a ++ h ++ m.code ++ n.code) = .ok (.jmpi a m n)) ∧
  (∀ g : BitVec 24, decode (0x2D#8 ++ g) = .ok .halt) ∧
  (∀ (g : BitVec 7) (f : FullMove) (b : Bus), f.ok = true → f.isVoid = true →
    decode (0xF4#8 ++ g ++ encodeParMove (.full b f)) = .ok (.nop (.full b f))) ∧
  (∀ (g : BitVec 7) (m : BitVec 17), decode (0xF4#8 ++ g ++ m) = decode (0xF4#8 ++ 0#7 ++ m)) ∧
  (∀ (g : BitVec 7) (n : IndexReg) (p : PostMod) (r : MoveReg), p.ok = true → r ≠ .nop →
    decode (0xF4#8 ++ g ++ encodeParMove (.full .x ⟨false, n, p, r⟩)) = .ok (.ldx n p r) ∧
    decode (0xF4#8 ++ g ++ encodeParMove (.full .x ⟨true, n, p, r⟩)) = .ok (.stx n p r) ∧
    decode (0xF4#8 ++ g ++ encodeParMove (.full .y ⟨false, n, p, r⟩)) = .ok (.ldy n p r) ∧
    decode (0xF4#8 ++ g ++ encodeParMove (.full .y ⟨true, n, p, r⟩)) = .ok (.sty n p r)) ∧
  (∀ (g : BitVec 7) (x y : ShortMove), decode (0xF4#8 ++ g ++ encodeParMove (.short x y)) = .ok (.moveShort x y)) ∧
  (∀ (g : BitVec 7) (src dst : MoveReg), decode (0xF4#8 ++ g ++ encodeParMove (.mv src dst)) = .ok (.mv src dst)) ∧
  (∀ (g : BitVec 7) (n : IndexReg) (r : MoveReg),
    decode (0xF4#8 ++ g ++ encodeParMove (.longX false n r)) = .ok (.ldxLong n r) ∧
    decode (0xF4#8 ++ g ++ encodeParMove (.longX true n r)) = .ok (.stxLong n r)) ∧
  (∀ (g : BitVec 7) (n : IndexReg) (p : PostMod) (x : AccName), p.ok = true →
    decode (0xF4#8 ++ g ++ encodeParMove (.ibus false n p x)) = .ok (.ldi n p x) ∧
    decode (0xF4#8 ++ g ++ encodeParMove (.ibus true n p x)) = .ok (.sti n p x))

/-- 30_encoding.md R111, 40_alu.md R132: a code reserved in one field is refused by name in every format that has the
field, whatever the fields beside it: opcodes, control and single-operand codes, JMPI modes; register codes in LDC,
LOOP, both double moves and every parallel move field; condition codes in Jcc, CALLcc and both forms of JRcc; ALU
operand codes, P as Op1 among them; the selectors of the parallel move field beside every operation. Where operand and
move field are both reserved the operand is reported. That they stop the model is the spec's decision D26 (log 28). -/
def Obligations.ReservedWordsRefused : Prop :=
  (∀ g : BitVec 28, decode (0b1110#4 ++ g) = .error .opcode1110) ∧
  (∀ (c : BitVec 4) (g : BitVec 24), c = 0b0011#4 ∨ c = 0b1100#4 ∨ c = 0b1110#4 ∨ c = 0b1111#4 →
    decode (0b0010#4 ++ c ++ g) = .error .controlCode) ∧
  (∀ (c : BitVec 4) (g : BitVec 24), 8 ≤ c.toNat → c.toNat ≤ 13 → decode (0b1111#4 ++ c ++ g) = .error .singleOpcode) ∧
  (∀ (g : BitVec 2) (a : Word) (h : BitVec 1) (n : BitVec 3),
    decode (0x2A#8 ++ g ++ a ++ h ++ 0b10#2 ++ n) = .error .jmpiMode) ∧
  (∀ (g : BitVec 7) (c : Word) (r : BitVec 6), badRegister r → decode (0b000#3 ++ g ++ c ++ r) = .error .moveRegister) ∧
  (∀ (g : BitVec 4) (a : Word) (h : BitVec 1) (r : BitVec 5), badRegister (0#1 ++ r) →
    decode (0b001001#6 ++ g ++ a ++ h ++ r) = .error .moveRegister) ∧
  (∀ xs xd ys yd : BitVec 6, badRegister xs ∨ badRegister xd ∨ badRegister ys ∨ badRegister yd →
    decode (0x2B#8 ++ xs ++ xd ++ ys ++ yd) = .error .moveRegister) ∧
  (∀ (g h : BitVec 8) (x y : BitVec 6), badRegister x ∨ badRegister y →
    decode (0b0011#4 ++ g ++ x ++ h ++ y) = .error .moveRegister) ∧
  (∀ (g : BitVec 2) (a : Word) (c : BitVec 6), badCondition c →
    decode (0x28#8 ++ g ++ a ++ c) = .error .conditionCode ∧ decode (0x29#8 ++ g ++ a ++ c) = .error .conditionCode) ∧
  (∀ (g : BitVec 18) (c : BitVec 6), badCondition c → decode (0x20#8 ++ g ++ c) = .error .conditionCode) ∧
  (∀ op ∈ [4#4, 6#4, 8#4, 9#4, 10#4, 11#4, 12#4, 13#4],
    (∀ (c : BitVec 4) (g : BitVec 20), decode (op ++ 0b1010#4 ++ c ++ g) = .error .aluOperand ∧
      decode (op ++ 0b1011#4 ++ c ++ g) = .error .aluOperand) ∧
    (∀ (c : BitVec 4) (g : BitVec 20), decode (op ++ c ++ 0b1010#4 ++ g) = .error .aluOperand) ∧
    ∀ (op1 op2 : AluOp) (d : BitVec 3) (m : BitVec 17) (tag : Reserved), op1 ≠ .p → reservedMove m tag →
      decode (op ++ op1.code ++ op2.code ++ d ++ m) = .error tag) ∧
  (∀ op ∈ [0#4, 1#4, 2#4, 3#4, 5#4, 6#4, 7#4],
    (∀ g : BitVec 20, decode (0b1111#4 ++ op ++ 0b1010#4 ++ g) = .error .aluOperand) ∧
    ∀ (op2 : AluOp) (d : BitVec 3) (m : BitVec 17) (tag : Reserved), reservedMove m tag →
      decode (0b1111#4 ++ op ++ op2.code ++ d ++ m) = .error tag) ∧
  (∀ (m : BitVec 17) (tag : Reserved), reservedMove m tag →
    (∀ op ∈ [5#4, 7#4], ∀ g : BitVec 11, decode (op ++ g ++ m) = .error tag) ∧
    (∀ g : BitVec 7, decode (0xF4#8 ++ g ++ m) = .error tag) ∧
    ∀ g : BitVec 8, decode (0b1111111#7 ++ g ++ m) = .error tag)

/-! ## Operands -/

/-- 40_alu.md R132, 42_moves.md R216: what an ALU operand gives in a 16-bit and in a 40-bit operation, and what a register
puts on a bus. The sign extension of a guard register is the spec's decision D7 (log 12), the 0 of NULL on a bus its
decision D12 (log 21). -/
def Obligations.OperandAndBusValues : Prop :=
  ∀ s : State,
    (∀ r, val16 s (.reg r) = s.data r ∧ val40 s (.reg r) = BitVec.ofInt 40 ((s.data r).toInt * 2 ^ 16)) ∧
    (val16 s .null = 0#16 ∧ val40 s .null = 0#40) ∧
    (val16 s .ones = BitVec.allOnes 16 ∧ val40 s .ones = BitVec.allOnes 40) ∧
    (val40 s .p).toInt = s.regs.p.toInt ∧
    (∀ x, val40 s (.acc x) = s.guard x ++ s.data (accHi x) ++ s.data (accLo x)) ∧
    (∀ r, rdreg s (.data r) = s.data r) ∧ (∀ n, rdreg s (.index n) = s.index n) ∧
    (∀ x, (rdreg s (.guard x)).toInt = (s.guard x).toInt) ∧
    rdreg s .lr0 = s.regs.lr0 ∧ rdreg s .lr1 = s.regs.lr1 ∧ rdreg s .mr0 = s.regs.mr0 ∧ rdreg s .null = 0#16 ∧
    rdreg s .lc = s.regs.lc ∧ rdreg s .ls = s.regs.ls ∧ rdreg s .le = s.regs.le ∧
    rdreg s .ipr0 = s.regs.ipr0 ∧ rdreg s .ipr1 = s.regs.ipr1

/-! ## Addition and subtraction

In each statement `m` is any parallel move field that can be made in `s`, `mw` its writes; the result comes first and
the move's writes on top of it, so a move into MR0 wins over the flags (10_state.md R35). -/

/-- 40_alu.md R131 to R137: ADD and ADDC in exact integers, in 16 and in 40 bits. The overflow predicate is general
knowledge (R135, log 48), the flags of a saturated result the spec's decision D19 (log 24). -/
def Obligations.AdditionResults : Prop :=
  ∀ (op1 op2 : AluOp) (dst : DataReg) (m : ParMove) (s : State) (mw : List Write), parWrites s m = .ok mw →
    (op1.isWide = false → op2.isWide = false → noClash (result16Places dst) mw = true →
      let a := val16 s op1
      let b := val16 s op2
      let after (carry : Nat) :=
        let n := a.toInt + b.toInt + carry
        let r := exactResult s.flagS 16 n
        Host.Outcome.next (commit mw (putFlags (putData s dst r)
          (flags16 r (!fits 16 n) (decide (2 ^ 16 ≤ a.toNat + b.toNat + carry)))))
      exec (.add op1 op2 dst m) s = after 0 ∧ exec (.addc op1 op2 dst m) s = after s.flagC.toNat) ∧
    (op1 ≠ .p → (op1.isWide || op2.isWide) = true → ∀ x, dst.wideAcc = some x → noClash (accPlaces x) mw = true →
      let a := val40 s op1
      let b := val40 s op2
      let after (carry : Nat) :=
        let n := a.toInt + b.toInt + carry
        let r := exactResult s.flagS 40 n
        Host.Outcome.next (commit mw (putFlags (putAcc s x r)
          (flags40 r (!fits 40 n) (decide (2 ^ 40 ≤ a.toNat + b.toNat + carry)))))
      exec (.add op1 op2 dst m) s = after 0 ∧ exec (.addc op1 op2 dst m) s = after s.flagC.toNat)

/-- 40_alu.md R138, R139: SUB and SUBC in exact integers; C says that no borrow is generated (marks as for ADD: logs
24, 48). That SUBC takes one less when C is 0 is the spec's decision D2 (log 14). -/
def Obligations.SubtractionResults : Prop :=
  ∀ (op1 op2 : AluOp) (dst : DataReg) (m : ParMove) (s : State) (mw : List Write), parWrites s m = .ok mw →
    (op1.isWide = false → op2.isWide = false → noClash (result16Places dst) mw = true →
      let a := val16 s op1
      let b := val16 s op2
      let after (borrow : Nat) :=
        let n := a.toInt - b.toInt - borrow
        let r := exactResult s.flagS 16 n
        Host.Outcome.next (commit mw (putFlags (putData s dst r)
          (flags16 r (!fits 16 n) (decide (b.toNat + borrow ≤ a.toNat)))))
      exec (.sub op1 op2 dst m) s = after 0 ∧ exec (.subc op1 op2 dst m) s = after (!s.flagC).toNat) ∧
    (op1 ≠ .p → (op1.isWide || op2.isWide) = true → ∀ x, dst.wideAcc = some x → noClash (accPlaces x) mw = true →
      let a := val40 s op1
      let b := val40 s op2
      let after (borrow : Nat) :=
        let n := a.toInt - b.toInt - borrow
        let r := exactResult s.flagS 40 n
        Host.Outcome.next (commit mw (putFlags (putAcc s x r)
          (flags40 r (!fits 40 n) (decide (b.toNat + borrow ≤ a.toNat)))))
      exec (.sub op1 op2 dst m) s = after 0 ∧ exec (.subc op1 op2 dst m) s = after (!s.flagC).toNat)

/-- 40_alu.md R142, R143: LSL doubles, LSLC doubles and adds the carry; the MSB leaves into C; where the doubled value
does not fit, V is set and in saturation mode the result saturates. The overflow predicate is general knowledge (R135,
log 48), the flags of a saturated result the spec's decision D19 (log 24). -/
def Obligations.ShiftLeftOneResults : Prop :=
  ∀ (op2 : AluOp) (dst : DataReg) (m : ParMove) (s : State) (mw : List Write), parWrites s m = .ok mw →
    (op2.isWide = false → noClash (result16Places dst) mw = true →
      let a := val16 s op2
      let n := 2 * a.toInt
      let k := 2 * a.toInt + s.flagC.toNat
      let r := exactResult s.flagS 16 n
      let q := exactResult s.flagS 16 k
      exec (.lsl op2 dst m) s =
        .next (commit mw (putFlags (putData s dst r) (flags16 r (!fits 16 n) (a.getLsbD 15)))) ∧
      exec (.lslc op2 dst m) s =
        .next (commit mw (putFlags (putData s dst q) (flags16 q (!fits 16 k) (a.getLsbD 15))))) ∧
    (op2 ≠ .p → op2.isWide = true → ∀ x, dst.wideAcc = some x → noClash (accPlaces x) mw = true →
      let a := val40 s op2
      let n := 2 * a.toInt
      let k := 2 * a.toInt + s.flagC.toNat
      let r := exactResult s.flagS 40 n
      let q := exactResult s.flagS 40 k
      exec (.lsl op2 dst m) s =
        .next (commit mw (putFlags (putAcc s x r) (flags40 r (!fits 40 n) (a.getLsbD 39)))) ∧
      exec (.lslc op2 dst m) s =
        .next (commit mw (putFlags (putAcc s x q) (flags40 q (!fits 40 k) (a.getLsbD 39)))))

/-- 40_alu.md R141 to R143: NOT, LSL and LSLC are XOR with ONES, ADD and ADDC with equal operands: on every state and for
every operand, stops included, the alias has the outcome of its core. -/
def Obligations.AliasesAreTheirCore : Prop :=
  ∀ (i : Instr) (s : State), exec i s = exec i.core s

/-- 43_control.md R255: after a SUB of width 16 or 40 with no move the signed conditions compare the two
operands, with and without saturation. It rests on the spec's decision D1 (log 13). -/
def Obligations.SignedConditionsCompare : Prop :=
  ∀ (op1 op2 : AluOp) (dst : DataReg) (m : ParMove) (s t : State), m.isVoid = true →
    exec (.sub op1 op2 dst m) s = .next t →
    let wide := op1.isWide || op2.isWide
    let a := if wide then (val40 s op1).toInt else (val16 s op1).toInt
    let b := if wide then (val40 s op2).toInt else (val16 s op2).toInt
    condHolds t .lt = decide (a < b) ∧ condHolds t .le = decide (a ≤ b) ∧
    condHolds t .ge = decide (b ≤ a) ∧ condHolds t .gt = decide (b < a) ∧
    condHolds t .zs = decide (a = b) ∧ condHolds t .zc = decide (a ≠ b)

/-! ## Logic and shifts -/

/-- 40_alu.md R140, R144, R145, R141: AND, OR, XOR and NOT bit by bit, from their words; Z, N and E are those of the
result, V and C are 0, whatever the mode. -/
def Obligations.LogicResults : Prop :=
  ∀ (op1 op2 : AluOp) (dst : DataReg) (m : ParMove),
    (op1 ≠ .p → m.ok = true →
      decode (0b1011#4 ++ op1.code ++ op2.code ++ dst.code ++ encodeParMove m) = .ok (.and op1 op2 dst m) ∧
      decode (0b1100#4 ++ op1.code ++ op2.code ++ dst.code ++ encodeParMove m) = .ok (.or op1 op2 dst m) ∧
      decode (0b1101#4 ++ op1.code ++ op2.code ++ dst.code ++ encodeParMove m) = .ok (.xor op1 op2 dst m) ∧
      decode (0b1101#4 ++ 0b1001#4 ++ op2.code ++ dst.code ++ encodeParMove m) =
        .ok (Instr.not op2 dst m).core) ∧
    ∀ (s : State) (mw : List Write), parWrites s m = .ok mw →
    (op1.isWide = false → op2.isWide = false → noClash (result16Places dst) mw = true →
      let a := val16 s op1
      let b := val16 s op2
      let after (r : Word) := Host.Outcome.next (commit mw (putFlags (putData s dst r) (flags16 r false false)))
      exec (.and op1 op2 dst m) s = after (a &&& b) ∧ exec (.or op1 op2 dst m) s = after (a ||| b) ∧
      exec (.xor op1 op2 dst m) s = after (a ^^^ b) ∧ exec (.not op2 dst m) s = after (~~~b)) ∧
    (∀ x, dst.wideAcc = some x → noClash (accPlaces x) mw = true →
      let a := val40 s op1
      let b := val40 s op2
      let after (r : Wide) := Host.Outcome.next (commit mw (putFlags (putAcc s x r) (flags40 r false false)))
      (op1 ≠ .p → (op1.isWide || op2.isWide) = true →
        exec (.and op1 op2 dst m) s = after (a &&& b) ∧ exec (.or op1 op2 dst m) s = after (a ||| b) ∧
        exec (.xor op1 op2 dst m) s = after (a ^^^ b)) ∧
      (op2.isWide = true → exec (.not op2 dst m) s = after (~~~b)))

/-- 40_alu.md R147, R148, R149: ASR halves the signed number downwards, LSR and LSRC the unsigned one, LSRC with C as
the new most significant bit; C takes the lowest bit, V is 0, Z, N and E are those of the result; from their words. -/
def Obligations.ShiftRightOneResults : Prop :=
  ∀ (op2 : AluOp) (dst : DataReg) (m : ParMove),
    (m.ok = true →
      decode (0b1111#4 ++ 0b0001#4 ++ op2.code ++ dst.code ++ encodeParMove m) = .ok (.asr op2 dst m) ∧
      decode (0b1111#4 ++ 0b0010#4 ++ op2.code ++ dst.code ++ encodeParMove m) = .ok (.lsr op2 dst m) ∧
      decode (0b1111#4 ++ 0b0011#4 ++ op2.code ++ dst.code ++ encodeParMove m) = .ok (.lsrc op2 dst m)) ∧
    ∀ (s : State) (mw : List Write), parWrites s m = .ok mw →
    (op2.isWide = false → noClash (result16Places dst) mw = true →
      let a := val16 s op2
      let after (r : Word) :=
        Host.Outcome.next (commit mw (putFlags (putData s dst r) (flags16 r false (decide (a.toNat % 2 = 1)))))
      exec (.asr op2 dst m) s = after (BitVec.ofInt 16 (a.toInt / 2)) ∧
      exec (.lsr op2 dst m) s = after (BitVec.ofNat 16 (a.toNat / 2)) ∧
      exec (.lsrc op2 dst m) s = after (BitVec.ofNat 16 (a.toNat / 2 + s.flagC.toNat * 2 ^ 15))) ∧
    (op2.isWide = true → ∀ x, dst.wideAcc = some x → noClash (accPlaces x) mw = true →
      let a := val40 s op2
      let after (r : Wide) :=
        Host.Outcome.next (commit mw (putFlags (putAcc s x r) (flags40 r false (decide (a.toNat % 2 = 1)))))
      exec (.asr op2 dst m) s = after (BitVec.ofInt 40 (a.toInt / 2)) ∧
      exec (.lsr op2 dst m) s = after (BitVec.ofNat 40 (a.toNat / 2)) ∧
      exec (.lsrc op2 dst m) s = after (BitVec.ofNat 40 (a.toNat / 2 + s.flagC.toNat * 2 ^ 39)))

/-- 40_alu.md R150: ASHL by a count in range: a multiplication by `2^n` to the left, where it does not fit V is set and
in saturation mode the result saturates; a division downwards to the right. The count is the whole register (D28, log
29); C is the last bit shifted out. The flags of a saturated result are the spec's decision D19 (log 24). -/
def Obligations.AshlResult : Prop :=
  ∀ (op1 op2 : AluOp) (dst : DataReg) (m : ParMove) (s : State) (mw : List Write), parWrites s m = .ok mw →
    op2.isWide = false →
    let n := (val16 s op2).toInt
    (op1.isWide = false → noClash (result16Places dst) mw = true → -15 ≤ n → n ≤ 15 →
      let a := val16 s op1
      (n = 0 → exec (.ashl op1 op2 dst m) s =
        .next (commit mw (putFlags (putData s dst a) (flags16 a false false)))) ∧
      (0 < n →
        let e := a.toInt * 2 ^ n.toNat
        let r := exactResult s.flagS 16 e
        exec (.ashl op1 op2 dst m) s =
          .next (commit mw (putFlags (putData s dst r) (flags16 r (!fits 16 e) (a.getLsbD (16 - n.toNat)))))) ∧
      (n < 0 →
        let r := BitVec.ofInt 16 (a.toInt / 2 ^ (-n).toNat)
        exec (.ashl op1 op2 dst m) s =
          .next (commit mw (putFlags (putData s dst r) (flags16 r false (a.getLsbD ((-n).toNat - 1))))))) ∧
    (op1 ≠ .p → op1.isWide = true → ∀ x, dst.wideAcc = some x → noClash (accPlaces x) mw = true → -39 ≤ n → n ≤ 39 →
      let a := val40 s op1
      (n = 0 → exec (.ashl op1 op2 dst m) s =
        .next (commit mw (putFlags (putAcc s x a) (flags40 a false false)))) ∧
      (0 < n →
        let e := a.toInt * 2 ^ n.toNat
        let r := exactResult s.flagS 40 e
        exec (.ashl op1 op2 dst m) s =
          .next (commit mw (putFlags (putAcc s x r) (flags40 r (!fits 40 e) (a.getLsbD (40 - n.toNat)))))) ∧
      (n < 0 →
        let r := BitVec.ofInt 40 (a.toInt / 2 ^ (-n).toNat)
        exec (.ashl op1 op2 dst m) s =
          .next (commit mw (putFlags (putAcc s x r) (flags40 r false (a.getLsbD ((-n).toNat - 1)))))))

/-- 40_alu.md R150, "the result is undefined": ASHL by a count out of range completes; result, V and C are some values,
Z, N and E those of the result. It is the model's choice to go on with free values (log 7). -/
def Obligations.AshlOutOfRangeCompletes : Prop :=
  ∀ (op1 op2 : AluOp) (dst : DataReg) (m : ParMove) (s : State) (mw : List Write), parWrites s m = .ok mw →
    op2.isWide = false →
    let n := (val16 s op2).toInt
    (op1.isWide = false → noClash (result16Places dst) mw = true → n < -15 ∨ 15 < n →
      ∃ (r : Word) (v c : Bool), exec (.ashl op1 op2 dst m) s =
        .next (commit mw (putFlags (putData s dst r) (flags16 r v c)))) ∧
    (op1 ≠ .p → op1.isWide = true → ∀ x, dst.wideAcc = some x → noClash (accPlaces x) mw = true → n < -39 ∨ 39 < n →
      ∃ (r : Wide) (v c : Bool), exec (.ashl op1 op2 dst m) s =
        .next (commit mw (putFlags (putAcc s x r) (flags40 r v c))))

/-! ## ABS, EXP, SAT, RND -/

/-- 40_alu.md R146: ABS: the absolute value, saturated or wrapped where it is `2^(w-1)`; C is some bit (log 9). The
flags of the saturated result are the spec's decision D19 (log 24). -/
def Obligations.AbsResult : Prop :=
  ∀ (op2 : AluOp) (dst : DataReg) (m : ParMove) (s : State) (mw : List Write), parWrites s m = .ok mw →
    (op2.isWide = false → noClash (result16Places dst) mw = true →
      let n : Int := (val16 s op2).toInt.natAbs
      let r := exactResult s.flagS 16 n
      ∃ c : Bool, exec (.abs op2 dst m) s =
        .next (commit mw (putFlags (putData s dst r) (flags16 r (!fits 16 n) c)))) ∧
    (op2.isWide = true → ∀ x, dst.wideAcc = some x → noClash (accPlaces x) mw = true →
      let n : Int := (val40 s op2).toInt.natAbs
      let r := exactResult s.flagS 40 n
      ∃ c : Bool, exec (.abs op2 dst m) s =
        .next (commit mw (putFlags (putAcc s x r) (flags40 r (!fits 40 n) c))))

/-- 40_alu.md R153: EXP counts, from the most significant bit down and including it, the bits equal to it; 0 for 0. That
the bit itself counts is the spec's decision D4 (log 16). -/
def Obligations.ExpResult : Prop :=
  ∀ (op2 : AluOp) (dst : DataReg) (m : ParMove) (s : State) (mw : List Write), parWrites s m = .ok mw →
    noClash (result16Places dst) mw = true →
    let bit (k : Nat) : Bool := if op2.isWide then (val40 s op2).getLsbD (39 - k) else (val16 s op2).getLsbD (15 - k)
    let width : Nat := if op2.isWide then 40 else 16
    let zero : Prop := if op2.isWide then val40 s op2 = 0#40 else val16 s op2 = 0#16
    ∃ r : Word,
      exec (.exp op2 dst m) s =
        .next (commit mw (putFlags (putData s dst r)
          { z := decide (r = 0#16), n := false, v := false, e := false, c := false })) ∧
      (zero → r = 0#16) ∧
      (¬ zero → 1 ≤ r.toNat ∧ r.toNat ≤ width ∧ (∀ k, k < r.toNat → bit k = bit 0) ∧
        (r.toNat < width → bit r.toNat ≠ bit 0))

/-- 40_alu.md R154, R160: SAT clamps a 40-bit operand to 32 signed bits. RND: `q` is the operand over 2^16, rounded to the
nearest with ties to even (R = 1) or toward zero (R = 0, the spec's decision D3, log 15), clamped to 16 signed bits.
V says that a clamp changed the value; E and C are 0. -/
def Obligations.SatRndResults : Prop :=
  ∀ (op2 : AluOp) (dst : DataReg) (m : ParMove) (s : State) (mw : List Write), parWrites s m = .ok mw →
    op2.isWide = true →
    let a := (val40 s op2).toInt
    (∀ x, dst.wideAcc = some x → noClash (accPlaces x) mw = true →
      let r := BitVec.ofInt 40 (max (-(2 ^ 31)) (min (2 ^ 31 - 1) a))
      exec (.sat op2 dst m) s = .next (commit mw (putFlags (putAcc s x r) (flags40 r (!fits 32 a) false)))) ∧
    (noClash (result16Places dst) mw = true → ∀ q : Int,
      (if s.flagR then 2 * (a - q * 2 ^ 16).natAbs ≤ 2 ^ 16 ∧ (2 * (a - q * 2 ^ 16).natAbs = 2 ^ 16 → q % 2 = 0)
        else q = a.tdiv (2 ^ 16)) →
      let r := BitVec.ofInt 16 (max (-(2 ^ 15)) (min (2 ^ 15 - 1) q))
      exec (.rnd op2 dst m) s = .next (commit mw (putFlags (putData s dst r) (flags16 r (!fits 16 q) false))))

/-! ## The multiplier -/

/-- 41_multiplier.md R181 to R183: MUL leaves the product of the two registers in P, doubled in fractional mode; the one
saturating case; no flag. The doubling of unsigned operands is the spec's decision D30 (log 31). -/
def Obligations.MulResult : Prop :=
  ∀ (mode : MulMode) (op1 op2 : DataReg) (m : ParMove) (s : State) (mw : List Write), parWrites s m = .ok mw →
    noClash [] mw = true →
    let x := operandValue (op1Signed mode) (s.data op1)
    let y := operandValue (op2Signed mode) (s.data op2)
    let p := if s.flagI then BitVec.ofInt 32 (x * y)
      else if s.flagS ∧ mode = .ss ∧ x * y = 2 ^ 30 then BitVec.ofInt 32 (2 ^ 31 - 1) else BitVec.ofInt 32 (2 * (x * y))
    exec (.mul mode op1 op2 m) s = .next (commit mw (putProd s p))

/-- 41_multiplier.md R184, R185: MAC and MSU accumulate the old P in 40 bits and leave the new product in P, both from
the state before. The overflow predicate is general knowledge (log 48), the flags of a saturated sum the spec's decision
D19 (log 24), the doubling of an unsigned product its decision D30 (log 31). -/
def Obligations.MacMsuResults : Prop :=
  ∀ (mode : MulMode) (op1 op2 dst : DataReg) (m : ParMove) (s : State) (mw : List Write) (x : AccName),
    parWrites s m = .ok mw → dst.wideAcc = some x → noClash (accPlaces x) mw = true →
    let a := s.acc x
    let b := s.regs.p.signExtend 40
    let n := a.toInt + s.regs.p.toInt
    let d := a.toInt - s.regs.p.toInt
    let r := exactResult s.flagS 40 n
    let q := exactResult s.flagS 40 d
    let p := product s.flagI s.flagS mode (s.data op1) (s.data op2)
    exec (.mac mode op1 op2 dst m) s =
      .next (commit mw (putProd
        (putFlags (putAcc s x r) (flags40 r (!fits 40 n) (decide (2 ^ 40 ≤ a.toNat + b.toNat)))) p)) ∧
    exec (.msu mode op1 op2 dst m) s =
      .next (commit mw (putProd
        (putFlags (putAcc s x q) (flags40 q (!fits 40 d) (decide (b.toNat ≤ a.toNat)))) p))

/-- 41_multiplier.md R191: RESP puts Op1 into P0 and Op2 into P1 and changes nothing else; its word has Op2 in bits
22:20, Op1 in bits 19:17, and every other bit after the first eight ignored. -/
def Obligations.RespResult : Prop :=
  ∀ (op1 op2 : DataReg) (s : State),
    exec (.resp op1 op2) s = .next (putProd s (s.data op2 ++ s.data op1)) ∧
    ∀ (g : BitVec 1) (h : BitVec 17), decode (0b00100010#8 ++ g ++ op2.code ++ op1.code ++ h) = .ok (.resp op1 op2)

/-! ## Loads of constants, register moves, NOP -/

/-- 42_moves.md R201, R216, R217, R230: LDC puts its constant, MV its source's value into any register of Table 10; with
the move NOP as target both do nothing. IPR0 takes only the value it holds, any other stops (D31, log 32); a MV from
the move NOP to a register is reserved (D32, log 33). MR0 drops the bits outside its mask (D5, log 11); a guard register
takes the low eight bits and gives its sign extension (D7, log 12); NULL gives 0 and discards (D12, log 21). -/
def Obligations.LdcAndMvResults : Prop :=
  ∀ (c : Word) (src dst : MoveReg) (s : State),
    ((dst = .ipr0 → c = s.regs.ipr0) → exec (.ldc c dst) s = .next (putReg s dst c)) ∧
    (dst = .ipr0 → c ≠ s.regs.ipr0 → exec (.ldc c dst) s = .fault .ipr0Move) ∧
    (src ≠ .nop ∨ dst = .nop → (dst = .ipr0 → rdreg s src = s.regs.ipr0) →
      exec (.mv src dst) s = .next (putReg s dst (rdreg s src))) ∧
    (src ≠ .nop → dst = .ipr0 → rdreg s src ≠ s.regs.ipr0 → exec (.mv src dst) s = .fault .ipr0Move) ∧
    (src = .nop → dst ≠ .nop → exec (.mv src dst) s = .refused (.reserved .mvSourceNop))

/-- 42_moves.md R231: the double register move makes both moves, both reading the state before, where neither stays in
one execution unit and the targets share no place; else it stops by name. The units, ALU A0 .. D1 and A2 .. D2, DAG
I0 .. I7, PCU LR0, LR1, MR0, LC, LS, LE, IPR0 and IPR1, NULL and the move NOP in none, are the spec's decision D34 (log
35). The move NOP as a source (D32, log 33) and another value into IPR0 (D31, log 32) stop as in MV. The stop of two
writes to one place is the spec's decision D11 (log 20), MR0's mask its decision D5 (log 11); that two moves to NULL
complete is the model's (log 51). -/
def Obligations.MvDoubleResult : Prop :=
  ∀ (xs xd ys yd : MoveReg) (s : State),
    let sourceOk (src dst : MoveReg) := src ≠ .nop ∨ dst = .nop
    let fine (src dst : MoveReg) := sourceOk src dst ∧ (dst = .ipr0 → rdreg s src = s.regs.ipr0)
    let apart := ∀ p ∈ targetPlaces xd, p ∉ targetPlaces yd
    (fine xs xd → fine ys yd →
      (StaysInUnit xs xd ∨ StaysInUnit ys yd → exec (.mvDouble xs xd ys yd) s = .fault .mvSameUnit) ∧
      (¬ StaysInUnit xs xd → ¬ StaysInUnit ys yd → apart →
        exec (.mvDouble xs xd ys yd) s = .next (putReg (putReg s xd (rdreg s xs)) yd (rdreg s ys))) ∧
      (¬ StaysInUnit xs xd → ¬ StaysInUnit ys yd → ¬ apart →
        exec (.mvDouble xs xd ys yd) s = .fault .doubleWrite)) ∧
    (¬ sourceOk xs xd ∨ (fine xs xd ∧ ¬ sourceOk ys yd) →
      exec (.mvDouble xs xd ys yd) s = .refused (.reserved .mvSourceNop)) ∧
    ((sourceOk xs xd ∧ ¬ fine xs xd) ∨ (fine xs xd ∧ sourceOk ys yd ∧ ¬ fine ys yd) →
      exec (.mvDouble xs xd ys yd) s = .fault .ipr0Move)

/-- 40_alu.md R152, 42_moves.md R200, 30_encoding.md R124: NOP makes its parallel move and nothing else, with the move NOP
nothing at all; each row of the parallel move field does alone what the field does beside NOP. How the rows stand as
instructions is log 44. -/
def Obligations.NopCarriesMoves : Prop :=
  ∀ s : State,
    (∀ m : ParMove, m.isVoid = true → exec (.nop m) s = .next s) ∧
    (∀ (m : ParMove) (mw : List Write), parWrites s m = .ok mw → noClash [] mw = true →
      exec (.nop m) s = .next (commit mw s)) ∧
    (∀ n p r, exec (.ldx n p r) s = exec (.nop (.full .x { store := false, n, p, r })) s) ∧
    (∀ n p r, exec (.stx n p r) s = exec (.nop (.full .x { store := true, n, p, r })) s) ∧
    (∀ n p r, exec (.ldy n p r) s = exec (.nop (.full .y { store := false, n, p, r })) s) ∧
    (∀ n p r, exec (.sty n p r) s = exec (.nop (.full .y { store := true, n, p, r })) s) ∧
    (∀ x y, exec (.moveShort x y) s = exec (.nop (.short x y)) s) ∧
    (∀ src dst, exec (.mv src dst) s = exec (.nop (.mv src dst)) s) ∧
    (∀ n r, exec (.ldxLong n r) s = exec (.nop (.longX false n r)) s) ∧
    (∀ n r, exec (.stxLong n r) s = exec (.nop (.longX true n r)) s) ∧
    (∀ n p x, exec (.ldi n p x) s = exec (.nop (.ibus false n p x)) s) ∧
    (∀ n p x, exec (.sti n p x) s = exec (.nop (.ibus true n p x)) s)

/-! ## Loads and stores -/

/-- 42_moves.md R220, R222: LDX and LDY load the word at In into the register and post-modify In; with the move NOP they
do nothing; they stop at an absent address (20_memory.md R68), where load and post-modification meet in one register
(D11, log 20), and where IPR0 would change (D31, log 32). A device answers by its device function and sees the read (R68,
R69, log 6), INT_GLOB_EN gives some word (60_exceptions.md R293). -/
def Obligations.LoadResults : Prop :=
  ∀ (n : IndexReg) (p : PostMod) (r : MoveReg) (s : State),
    (∀ (b : Bus) (a : Long),
      (s.kind b a = some .ram ∨ s.kind b a = some .rom → loadWord s b a = .ok (s.word b a)) ∧
      (s.kind b a = some .intGlobEn → ∃ v, loadWord s b a = .ok v) ∧
      ∀ id, s.kind b a = some (.device id) →
        loadWord s b a = .ok ((Config.deviceWord id (s.seen id) s.freeCount (busSpace b) a).extractLsb' 0 16)) ∧
    (r = .nop → exec (.ldx n p r) s = .next s ∧ exec (.ldy n p r) s = .next s) ∧
    (r ≠ .nop → (p ≠ .amount 0 → r ≠ .index n) →
      (∀ v w, loadWord s .x ((s.index n).zeroExtend 32) = .ok v → nextIndex s .x n p = .ok w →
        (r = .ipr0 → v = s.regs.ipr0) →
          exec (.ldx n p r) s =
            .next (putReg ((afterRead s .x ((s.index n).zeroExtend 32)).setIndex n w) r v)) ∧
      (∀ v w, loadWord s .y ((s.index n).zeroExtend 32) = .ok v → nextIndex s .y n p = .ok w →
        (r = .ipr0 → v = s.regs.ipr0) →
          exec (.ldy n p r) s =
            .next (putReg ((afterRead s .y ((s.index n).zeroExtend 32)).setIndex n w) r v))) ∧
    (r ≠ .nop →
      (s.kind .x ((s.index n).zeroExtend 32) = none → exec (.ldx n p r) s = .fault .unmappedAccess) ∧
      (s.kind .y ((s.index n).zeroExtend 32) = none → exec (.ldy n p r) s = .fault .unmappedAccess)) ∧
    (r = .index n → p ≠ .amount 0 →
      (∀ v w, loadWord s .x ((s.index n).zeroExtend 32) = .ok v → nextIndex s .x n p = .ok w →
        exec (.ldx n p r) s = .fault .doubleWrite) ∧
      (∀ v w, loadWord s .y ((s.index n).zeroExtend 32) = .ok v → nextIndex s .y n p = .ok w →
        exec (.ldy n p r) s = .fault .doubleWrite)) ∧
    (r = .ipr0 →
      (∀ v, loadWord s .x ((s.index n).zeroExtend 32) = .ok v → v ≠ s.regs.ipr0 →
        exec (.ldx n p r) s = .fault .ipr0Move) ∧
      (∀ v, loadWord s .y ((s.index n).zeroExtend 32) = .ok v → v ≠ s.regs.ipr0 →
        exec (.ldy n p r) s = .fault .ipr0Move))

/-- 42_moves.md R220, R222: STX and STY store the register's value before the post-modification at In: RAM takes it,
INT_GLOB_EN also counts the disable count down (60_exceptions.md R293; that its memory word is written too is log 4),
another device sees the word (R68, R69, log 6), ROM and an absent address stop (20_memory.md R68, R69). -/
def Obligations.StoreResults : Prop :=
  ∀ (n : IndexReg) (p : PostMod) (r : MoveReg) (b : Bus) (s : State),
    let i : Instr := match b with | .x => .stx n p r | .y => .sty n p r
    let a : Long := (s.index n).zeroExtend 32
    (r = .nop → exec i s = .next s) ∧
    (r ≠ .nop → ∀ w, nextIndex s b n p = .ok w →
      (s.kind b a = some .ram → exec i s = .next (putWord (s.setIndex n w) b a (rdreg s r))) ∧
      (s.kind b a = some .intGlobEn →
        exec i s = .next { putWord (s.setIndex n w) b a (rdreg s r) with intDisable := s.intDisable - 1 }) ∧
      (∀ id, s.kind b a = some (.device id) → exec i s = .next { s.setIndex n w with
        devices := .write id (busSpace b) a ((rdreg s r).zeroExtend 32) :: s.devices })) ∧
    (r ≠ .nop → s.kind b a = some .rom → exec i s = .fault .romWrite) ∧
    (r ≠ .nop → s.kind b a = none → exec i s = .fault .unmappedAccess)

/-- 20_memory.md R70, R60, R72: a load after a store to the same RAM word of the same space returns what was stored;
every other word of the space reads as before, one that nothing has written included, and the other space is
unchanged. -/
def Obligations.LoadAfterStore : Prop :=
  ∀ (n : IndexReg) (p : PostMod) (r : MoveReg) (b : Bus) (s t : State), r ≠ .nop →
    let i : Instr := match b with | .x => .stx n p r | .y => .sty n p r
    let a : Long := (s.index n).zeroExtend 32
    s.kind b a = some .ram → exec i s = .next t →
    loadWord t b a = .ok (rdreg s r) ∧ (∀ c : Long, c ≠ a → t.word b c = s.word b c) ∧
      ∀ d, d ≠ b → t.mem d = s.mem d

/-- 42_moves.md R223, R225, R221: two moves of one instruction, both reading the state before: the double full move and
the two short moves complete with the writes of both where no two writes fall on one place, else they stop (D11, log
20); one device on both sides stops (20_memory.md R71), and so does a move that stops alone. -/
def Obligations.DoubleMoveResults : Prop :=
  ∀ (s : State) (x y : FullMove) (i : Instr),
    i = .moveDouble x y ∨ (∃ u v : ShortMove, i = .moveShort u v ∧ x = shortAsFull u ∧ y = shortAsFull v) →
    let shared := x.isVoid = false ∧ y.isVoid = false ∧
      sameDevice (s.kind .x ((s.index x.n).zeroExtend 32)) (s.kind .y ((s.index y.n).zeroExtend 32)) = true
    (shared → exec i s = .fault .sameDeviceXY) ∧
    (¬ shared →
      (∀ e, fullWrites s .x x = .error e → exec i s = finish (.error e)) ∧
      ∀ xw, fullWrites s .x x = .ok xw →
        (∀ e, fullWrites s .y y = .error e → exec i s = finish (.error e)) ∧
        ∀ yw, fullWrites s .y y = .ok yw →
          (noClash [] (xw ++ yw) = true → exec i s = .next (commit yw (commit xw s))) ∧
          (noClash [] (xw ++ yw) = false → exec i s = .fault .doubleWrite))

/-- 42_moves.md R232: the long X address is the named register over its pair (the spec's decision D8, log 17); no index
register changes but one that is loaded; the stops are those of LDX and STX. That a store to INT_GLOB_EN writes its
memory word too is log 4; what a device sees and answers is log 6. -/
def Obligations.LongMoveResults : Prop :=
  ∀ (n : IndexReg) (r : MoveReg) (s : State),
    let a : Long := BitVec.ofNat 32 ((s.index n).toNat * 2 ^ 16 + (s.index (pairOf n)).toNat)
    (r = .nop → exec (.ldxLong n r) s = .next s ∧ exec (.stxLong n r) s = .next s) ∧
    (r ≠ .nop → ∀ v, loadWord s .x a = .ok v → (r = .ipr0 → v = s.regs.ipr0) →
      exec (.ldxLong n r) s = .next (putReg (afterRead s .x a) r v)) ∧
    (r = .ipr0 → ∀ v, loadWord s .x a = .ok v → v ≠ s.regs.ipr0 → exec (.ldxLong n r) s = .fault .ipr0Move) ∧
    (r ≠ .nop →
      (s.kind .x a = some .ram → exec (.stxLong n r) s = .next (putWord s .x a (rdreg s r))) ∧
      (s.kind .x a = some .intGlobEn →
        exec (.stxLong n r) s = .next { putWord s .x a (rdreg s r) with intDisable := s.intDisable - 1 }) ∧
      (∀ id, s.kind .x a = some (.device id) →
        exec (.stxLong n r) s = .next { s with devices := .write id .x a ((rdreg s r).zeroExtend 32) :: s.devices }) ∧
      (s.kind .x a = some .rom → exec (.stxLong n r) s = .fault .romWrite)) ∧
    (r ≠ .nop → s.kind .x a = none →
      exec (.ldxLong n r) s = .fault .unmappedAccess ∧ exec (.stxLong n r) s = .fault .unmappedAccess)

/-- 42_moves.md R235: LDI and STI, in page zero while IPR0 is 0 (D15, log 23): LDI sign-extends the word into the
accumulator, STI stores x1:x0 (D16); In is post-modified; a device answers and sees them (20_memory.md R68, log 6). On
another page, at an absent address and, STI, at ROM they stop. -/
def Obligations.CodeMoveResults : Prop :=
  ∀ (n : IndexReg) (p : PostMod) (x : AccName) (s : State),
    let a : Long := (s.index n).zeroExtend 32
    (s.regs.ipr0 = 0#16 → ∀ w, nextIndex s .x n p = .ok w →
      (s.codeKind a = some .ram ∨ s.codeKind a = some .rom →
        exec (.ldi n p x) s = .next (putAcc (s.setIndex n w) x (BitVec.ofInt 40 (s.codeWord a).toInt))) ∧
      (s.codeKind a = some .ram →
        exec (.sti n p x) s =
          .next { s.setIndex n w with imem := s.imem.write32 a.toNat (s.data (accHi x) ++ s.data (accLo x)) }) ∧
      ∀ id, s.codeKind a = some (.device id) →
        exec (.ldi n p x) s =
          .next { putAcc (s.setIndex n w) x (BitVec.ofInt 40 (Config.deviceWord id (s.seen id) s.freeCount .i a).toInt) with
            devices := .read id .i a :: s.devices } ∧
        exec (.sti n p x) s =
          .next { s.setIndex n w with
            devices := .write id .i a (s.data (accHi x) ++ s.data (accLo x)) :: s.devices }) ∧
    (s.regs.ipr0 ≠ 0#16 → exec (.ldi n p x) s = .fault .ldiStiPage ∧ exec (.sti n p x) s = .fault .ldiStiPage) ∧
    (s.regs.ipr0 = 0#16 →
      (s.codeKind a = none →
        exec (.ldi n p x) s = .fault .unmappedAccess ∧ exec (.sti n p x) s = .fault .unmappedAccess) ∧
      (s.codeKind a = some .rom → exec (.sti n p x) s = .fault .romWrite))

/-! ## Post-modification by the pair register -/

/-- 42_moves.md R208: with m[15:13] = 0b000 or 0b111 the pair register is added modulo 2^16, all sixteen bits of it; a load
into NULL from RAM does nothing else, on X and on Y. -/
def Obligations.StarLinear : Prop :=
  ∀ (s : State) (n : IndexReg),
    let m := s.index (pairOf n)
    let t := s.setIndex n (BitVec.ofNat 16 (((s.index n).toNat + m.toNat) % 2 ^ 16))
    m.extractLsb' 13 3 = 0b000#3 ∨ m.extractLsb' 13 3 = 0b111#3 →
    (∀ b, starMod s b n = .ok (BitVec.ofNat 16 (((s.index n).toNat + m.toNat) % 2 ^ 16))) ∧
    (s.kind .x ((s.index n).zeroExtend 32) = some .ram → exec (.ldx n .star .null) s = .next t) ∧
    (s.kind .y ((s.index n).zeroExtend 32) = some .ram → exec (.ldy n .star .null) s = .next t)

/-- 42_moves.md R209 to R212: the modulo modes give some next pointer; inside its buffer, and with a step no larger than
it, the pointer moves modulo the buffer's length from the buffer's base, a multiple of the least power of two that holds
the buffer. Elsewhere it is the model's choice to go on with a free value (log 8). -/
def Obligations.StarModulo : Prop :=
  ∀ (s : State) (b : Bus) (n : IndexReg) (len k : Nat) (step : Int), s.plat.amm.getLsbD 0 = true →
    (let m := s.index (pairOf n)
     let mode := m.extractLsb' 13 3
     (mode = 0b001#3 ∧ step = (m.extractLsb' 6 7).toInt ∧ len = (m.extractLsb' 0 6).toNat + 1) ∨
     (mode = 0b010#3 ∧ step = (m.extractLsb' 6 8).toInt ∧ len = (m.extractLsb' 0 6).toNat * 64 + 64) ∨
     (mode = 0b011#3 ∧ step = (m.extractLsb' 6 8).toInt ∧ len = (m.extractLsb' 0 6).toNat * 64 + 64) ∨
     (mode = 0b100#3 ∧ step = 1 ∧ len = (m.extractLsb' 0 13).toNat + 1) ∨
     (mode = 0b101#3 ∧ step = -1 ∧ len = (m.extractLsb' 0 13).toNat + 1)) →
    len ≤ 2 ^ k → (∀ j, len ≤ 2 ^ j → k ≤ j) →
    let off := (s.index n).toNat % 2 ^ k
    let base := (s.index n).toNat - off
    ∃ v, starMod s b n = .ok v ∧
      (off < len → step ≤ len → -(len : Int) ≤ step → (v.toNat : Int) = base + (off + step) % len)

/-- 42_moves.md R213: bit reversal keeps the bits above the buffer and adds the modifier with the carry running toward
the least significant bit: reversed, the low k bits are the sum of the reversed low bits. The case of an empty modifier,
which changes nothing, is the spec's own (D33, log 34). -/
def Obligations.StarBitReverse : Prop :=
  ∀ (s : State) (b : Bus) (n : IndexReg), s.plat.amm.getLsbD 1 = true →
    (s.index (pairOf n)).extractLsb' 13 3 = 0b110#3 →
    let mm := ((s.index (pairOf n)).extractLsb' 0 13).toNat
    (mm = 0 → starMod s b n = .ok (s.index n)) ∧
    ∀ k, 2 ^ k ≤ mm → mm < 2 ^ (k + 1) →
      ∃ v, starMod s b n = .ok v ∧ v.toNat / 2 ^ (k + 1) = (s.index n).toNat / 2 ^ (k + 1) ∧
        revBits (k + 1) (v.toNat % 2 ^ (k + 1)) =
          (revBits (k + 1) ((s.index n).toNat % 2 ^ (k + 1)) + revBits (k + 1) mm) % 2 ^ (k + 1)

/-- 42_moves.md R214: a `*` access whose mode AMM disables stops (D6, log 42), on both buses: LDX, LDY, STX, STY, either
move of a double full move or of the two short moves, LDI and STI, where the access itself is found (and a move before
it does not stop). Beside an operation it stops alike (CarriedMoveStops, NopCarriesMoves). -/
def Obligations.DisabledModeStops : Prop :=
  ∀ (n : IndexReg) (s : State),
    let mode := ((s.index (pairOf n)).extractLsb' 13 3).toNat
    let a : Long := (s.index n).zeroExtend 32
    (1 ≤ mode ∧ mode ≤ 5 ∧ s.plat.amm.getLsbD 0 = false) ∨ (mode = 6 ∧ s.plat.amm.getLsbD 1 = false) →
    (∀ b, starMod s b n = .error (.fault .ammDisabled)) ∧
    (∀ (b : Bus) (store : Bool) (r : MoveReg) (ws : List Write), r ≠ .nop → transfer s b a store r = .ok ws →
      let i : Instr :=
        match b, store with
        | .x, false => .ldx n .star r
        | .x, true => .stx n .star r
        | .y, false => .ldy n .star r
        | .y, true => .sty n .star r
      fullWrites s b { store := store, n := n, p := .star, r := r } = .error (.fault .ammDisabled) ∧
        exec i s = .fault .ammDisabled ∧
        exec (.nop (.full b { store := store, n := n, p := .star, r := r })) s = .fault .ammDisabled) ∧
    (∀ (x y : FullMove) (ws : List Write) (i : Instr),
      i = .moveDouble x y ∨ (∃ u v : ShortMove, i = .moveShort u v ∧ x = shortAsFull u ∧ y = shortAsFull v) →
      ¬ (x.isVoid = false ∧ y.isVoid = false ∧
        sameDevice (s.kind .x ((s.index x.n).zeroExtend 32)) (s.kind .y ((s.index y.n).zeroExtend 32)) = true) →
      (x.n = n ∧ x.p = .star ∧ x.isVoid = false ∧ transfer s .x a x.store x.r = .ok ws) ∨
        ((∃ us, fullWrites s .x x = .ok us) ∧ y.n = n ∧ y.p = .star ∧ y.isVoid = false ∧
          transfer s .y a y.store y.r = .ok ws) →
      exec i s = .fault .ammDisabled) ∧
    ∀ (store : Bool) (x : AccName) (ws : List Write), s.regs.ipr0 = 0#16 → ibusAccess s store a x = .ok ws →
      exec (if store then .sti n .star x else .ldi n .star x) s = .fault .ammDisabled ∧
        exec (.nop (.ibus store n .star x)) s = .fault .ammDisabled

/-! ## Control flow -/

/-- 43_control.md R258, R260, R261, R263: Jcc, CALLcc, JRcc and RETI clear L and, where the condition holds, set the
delayed transfer: to the address in the current page, to LR0 or LR1, with the page of the named index register where
one is named. CALLcc writes LR0 in any case (the spec's decision D37, log 38); RETI restores nothing else. -/
def Obligations.JumpResults : Prop :=
  ∀ (addr : Word) (n : IndexReg) (c : Cond) (s : State),
    let transfer (target : Word) (page : Option Word) : Option Transfer :=
      if condHolds s c then some { target, page } else s.pending
    exec (.jcc addr c) s = .next { s.setL false with pending := transfer addr none } ∧
    exec (.callcc addr c) s =
      .next { s.setL false with pending := transfer addr none, regs.lr0 := BitVec.ofNat 16 (s.regs.pc.toNat + 2) } ∧
    exec (.jr c) s = .next { s.setL false with pending := transfer s.regs.lr0 none } ∧
    exec (.jrPage n c) s = .next { s.setL false with pending := transfer s.regs.lr0 (some (s.index n)) } ∧
    exec .reti s = .next { s.setL false with pending := some { target := s.regs.lr1, page := none } } ∧
    exec (.retiPage n) s =
      .next { s.setL false with pending := some { target := s.regs.lr1, page := some (s.index n) } }

/-- 43_control.md R265: JMPI jumps at once to page zero and adds 0, 1 or -1 to its index register; L is unchanged and no
memory is read or written (D39, log 40). -/
def Obligations.JmpiResult : Prop :=
  ∀ (addr : Word) (mode : JmpiMode) (n : IndexReg) (s : State),
    let d : Int := match mode with | .keep => 0 | .inc => 1 | .dec => -1
    ∃ t, exec (.jmpi addr mode n) s = .next t ∧ t.regs.pc = addr ∧ t.regs.ipr0 = 0#16 ∧
      t.index n = s.index n + BitVec.ofInt 16 d ∧ (∀ k, k ≠ n → t.index k = s.index k) ∧
      t.regs.mr0 = s.regs.mr0 ∧ t.xmem = s.xmem ∧ t.ymem = s.ymem ∧ t.imem = s.imem ∧ t.pending = s.pending

/-- 43_control.md R268: LOOP loads LC, LE and LS, clears L and sets no transfer; the count is the register's old value;
a register its field cannot name is reserved (D24, D26: the numbering of the field is log 27, the refusal log 28). -/
def Obligations.LoopResult : Prop :=
  ∀ (r : MoveReg) (addr : Word) (s : State),
    (r.countable = true →
      exec (.loop r addr) s =
        .next { s.setL false with
          regs.lc := rdreg s r, regs.le := addr, regs.ls := BitVec.ofNat 16 (s.regs.pc.toNat + 2) }) ∧
    (r.countable = false → exec (.loop r addr) s = .refused (.reserved .moveRegister))

/-- 43_control.md R275, 60_exceptions.md R300, R302: HALT halts a core whose interrupt state machine is idle, and is a NOP
otherwise (the spec's decision D38, log 39); while the core is halted, a step without an event, or with a request that
is not presented, consumes the event and does nothing else. The schedule of events, and that such a request is dropped,
are the model's choice (log 37). -/
def Obligations.HaltWaits : Prop :=
  ∀ s : State,
    (s.irq = none → exec .halt s = .next { s with halted := true }) ∧ (s.irq ≠ none → exec .halt s = .next s) ∧
    (s.halted = true → nextEvent s = .idle → step s = .next (dropEvent s)) ∧
    (s.halted = true → 0 < s.intDisable → ∀ n, nextEvent s = .request n → step s = .next (dropEvent s))

/-- 43_control.md R255: what each condition tests, on the flags of MR0. The overflow term of the signed conditions is the
spec's decision D1 (log 13). -/
def Obligations.ConditionTable : Prop :=
  ∀ s : State,
    let f := s.regs.mr0
    let neg := xor (f.getLsbD 3) (f.getLsbD 2 && !f.getLsbD 10)
    condHolds s .always = true ∧ condHolds s .cs = f.getLsbD 0 ∧ condHolds s .es = f.getLsbD 1 ∧
    condHolds s .vs = f.getLsbD 2 ∧ condHolds s .ns = f.getLsbD 3 ∧ condHolds s .zs = f.getLsbD 4 ∧
    condHolds s .lt = neg ∧ condHolds s .le = (neg || f.getLsbD 4) ∧ condHolds s .cc = !f.getLsbD 0 ∧
    condHolds s .ec = !f.getLsbD 1 ∧ condHolds s .vc = !f.getLsbD 2 ∧ condHolds s .nc = !f.getLsbD 3 ∧
    condHolds s .zc = !f.getLsbD 4 ∧ condHolds s .ge = !neg ∧ condHolds s .gt = !(neg || f.getLsbD 4)

/-! ## Stops of a meaning -/

/-- 40_alu.md R132, R133, R150, R154, R160, 41_multiplier.md R184 (D26, D29; logs 28, 30): the operand combinations that
form a reserved encoding are refused by name, whatever the parallel move. -/
def Obligations.ReservedFormsRefused : Prop :=
  ∀ (op1 op2 : AluOp) (mode : MulMode) (x y dst : DataReg) (m : ParMove) (s : State),
    (op1 = .p → ∀ make ∈ [Instr.add, .sub, .addc, .subc, .ashl, .and, .or, .xor],
      exec (make op1 op2 dst m) s = .refused (.reserved .aluOperand)) ∧
    (op1 ≠ .p → (op1.isWide || op2.isWide) = true → dst.wideAcc = none →
      ∀ make ∈ [Instr.add, .sub, .addc, .subc, .and, .or, .xor],
        exec (make op1 op2 dst m) s = .refused (.reserved .aluResult40)) ∧
    (op2.isWide = true → dst.wideAcc = none → ∀ make ∈ [Instr.abs, .asr, .lsr, .lsrc, .sat, .not],
      exec (make op2 dst m) s = .refused (.reserved .aluResult40)) ∧
    (op1 ≠ .p → op2.isWide = true → exec (.ashl op1 op2 dst m) s = .refused (.reserved .ashlOp2Wide)) ∧
    (op1 ≠ .p → op1.isWide = true → op2.isWide = false → dst.wideAcc = none →
      exec (.ashl op1 op2 dst m) s = .refused (.reserved .aluResult40)) ∧
    (exec (.lsl .p dst m) s = .refused (.reserved .aluOperand) ∧
      exec (.lslc .p dst m) s = .refused (.reserved .aluOperand)) ∧
    (op2.isWide = true → op2 ≠ .p → dst.wideAcc = none →
      exec (.lsl op2 dst m) s = .refused (.reserved .aluResult40) ∧
      exec (.lslc op2 dst m) s = .refused (.reserved .aluResult40)) ∧
    (op2.isWide = false → exec (.sat op2 dst m) s = .refused (.reserved .satOperand16) ∧
      exec (.rnd op2 dst m) s = .refused (.reserved .rndOperand16)) ∧
    (dst.wideAcc = none → exec (.mac mode x y dst m) s = .refused (.reserved .aluResult40) ∧
      exec (.msu mode x y dst m) s = .refused (.reserved .aluResult40))

/-- 70_reset_and_hazards.md R335 (the spec's decision D11, log 20): an operation whose result register is also a target
of its parallel move stops, and so does one whose two parallel moves write one register. -/
def Obligations.DoubleWriteStops : Prop :=
  ∀ (op1 op2 : AluOp) (mode : MulMode) (x y dst : DataReg) (m : ParMove) (s : State) (mw : List Write),
    parWrites s m = .ok mw →
    (alu2Ok op1 op2 dst = true → noClash (resultPlaces (op1.isWide || op2.isWide) dst) mw = false →
      (∀ make ∈ [Instr.add, .sub, .addc, .subc, .and, .or, .xor],
        exec (make op1 op2 dst m) s = .fault .doubleWrite) ∧
      (op2.isWide = false → exec (.ashl op1 op2 dst m) s = .fault .doubleWrite)) ∧
    (resultOk op2.isWide dst = true → noClash (resultPlaces op2.isWide dst) mw = false →
      (∀ make ∈ [Instr.abs, .asr, .lsr, .lsrc, .not], exec (make op2 dst m) s = .fault .doubleWrite) ∧
      (op2 ≠ .p → ∀ make ∈ [Instr.lsl, .lslc], exec (make op2 dst m) s = .fault .doubleWrite) ∧
      (op2.isWide = true → exec (.sat op2 dst m) s = .fault .doubleWrite)) ∧
    (noClash (result16Places dst) mw = false →
      exec (.exp op2 dst m) s = .fault .doubleWrite ∧
      (op2.isWide = true → exec (.rnd op2 dst m) s = .fault .doubleWrite)) ∧
    (resultOk true dst = true → noClash (resultPlaces true dst) mw = false →
      ∀ make ∈ [Instr.mac, .msu], exec (make mode x y dst m) s = .fault .doubleWrite) ∧
    (noClash [] mw = false →
      exec (.mul mode x y m) s = .fault .doubleWrite ∧ exec (.nop m) s = .fault .doubleWrite)

/-- 42_moves.md R200, R224: a parallel move that stops when it stands alone stops in the same way the instruction that
carries it, whatever the operation. -/
def Obligations.CarriedMoveStops : Prop :=
  ∀ (op1 op2 : AluOp) (mode : MulMode) (x y dst : DataReg) (m : ParMove) (s : State) (e : Stop),
    parWrites s m = .error e →
    let stop := finish (.error e)
    exec (.nop m) s = stop ∧ exec (.mul mode x y m) s = stop ∧ exec (.exp op2 dst m) s = stop ∧
    (alu2Ok op1 op2 dst = true →
      (∀ make ∈ [Instr.add, .sub, .addc, .subc, .and, .or, .xor], exec (make op1 op2 dst m) s = stop) ∧
      (op2.isWide = false → exec (.ashl op1 op2 dst m) s = stop)) ∧
    (resultOk op2.isWide dst = true →
      (∀ make ∈ [Instr.abs, .asr, .lsr, .lsrc, .not], exec (make op2 dst m) s = stop) ∧
      (op2 ≠ .p → ∀ make ∈ [Instr.lsl, .lslc], exec (make op2 dst m) s = stop) ∧
      (op2.isWide = true → exec (.sat op2 dst m) s = stop)) ∧
    (op2.isWide = true → exec (.rnd op2 dst m) s = stop) ∧
    (resultOk true dst = true → ∀ make ∈ [Instr.mac, .msu], exec (make mode x y dst m) s = stop)

/-- 30_encoding.md R111: a well-formed instruction is never refused, in any state: refusals are for reserved encodings
only, and no instruction of the table is without a meaning. -/
def Obligations.WellFormedNeverRefused : Prop :=
  ∀ (i : Instr) (s : State) (r : Refusal), i.wellFormed = true → exec i s ≠ .refused r

/-! ## What an instruction changes -/

/-- The frame of every instruction: outside the places listed for it (`touches`: result, guard register, flags, P, move
targets, index registers it modifies, words it stores, at the addresses its moves compute), every register, every flag
and every byte of the three memories is as before, and a device whose words it does not access sees nothing; L changes by
a delayed change of flow or a move into MR0 only, the pending transfer by a delayed change of flow, PC by JMPI, the halt
by HALT; nothing else of the hidden state changes. -/
def Obligations.InstructionFrame : Prop :=
  ∀ (i : Instr) (s t : State), exec i s = .next t →
    SameOutside (touches s i) s t ∧ SameHidden s t ∧
    (isDelayedCof i = false → .mr0 ∉ touches s i → t.flagL = s.flagL) ∧
    (isDelayedCof i = true → t.flagL = false) ∧
    (isDelayedCof i = false → t.pending = s.pending) ∧
    (isJmpi i = false → t.regs.pc = s.regs.pc) ∧
    (i ≠ .halt → t.halted = s.halted)

/-- 43_control.md R253: Jcc, CALLcc, JRcc, RETI and LOOP clear the loop flag whether or not their condition holds; JMPI
does not affect it. -/
def Obligations.LoopFlagCleared : Prop :=
  ∀ (i : Instr) (s t : State), exec i s = .next t →
    (isDelayedCof i = true → t.flagL = false) ∧ (isJmpi i = true → t.flagL = s.flagL)

/-- 10_state.md R23: a 16-bit write of A1, B1, C1 or D1, from a bus or from the ALU, sign-extends into the guard
register; one of A0, B0, C0, D0 changes none. Shown on LDC, MV, a load and a 16-bit ALU result. -/
def Obligations.SignExtendsIntoGuard : Prop :=
  ∀ (r : DataReg) (s t : State),
    (∃ c, exec (.ldc c (.data r)) s = .next t) ∨ (∃ src, exec (.mv src (.data r)) s = .next t) ∨
      (∃ n p, exec (.ldx n p (.data r)) s = .next t) ∨ (∃ n p, exec (.ldy n p (.data r)) s = .next t) ∨
      (∃ op1 op2 m, op1.isWide = false ∧ op2.isWide = false ∧ m.isVoid = true ∧ exec (.add op1 op2 r m) s = .next t) →
    ∀ x, t.guard x = if r = accHi x then (if (t.data r).getLsbD 15 then 0xFF#8 else 0x00#8) else s.guard x

/-! ## The step -/

/-- 43_control.md R252: where the core does not wait and no interrupt is entered, with no event or with a request that is
not presented or is held back (log 37), a step runs exactly the decoded instruction: a broken restriction stops it; else its meaning, on the state with the pending transfer taken out
and the fetch seen by a device it read (log 6); then the loop hazard, the next PC and the record. A fetch where nothing
stands and a word that decodes to nothing stop (20_memory.md R68, 30_encoding.md R111). -/
def Obligations.StepRunsDecodedInstruction : Prop :=
  ∀ (s u : State) (i : Instr), AtBoundary s u →
    let w := afterFetch u
    (Runs u i →
      (∀ f, sequenceFault i w = some f → step s = .fault f) ∧
      (sequenceFault i w = none →
        (∀ f, exec i (clearPending w) = .fault f → step s = .fault f) ∧
        (∀ r, exec i (clearPending w) = .refused r → step s = .refused r) ∧
        ∀ t, exec i (clearPending w) = .next t →
          (loopHazard i w t = true → step s = .fault .loopRegisterHazard) ∧
          (loopHazard i w t = false →
            ∀ v, nextPc i w.pending w.prev2LoopWrite t = .ok v → step s = .next (record i w v)))) ∧
    (u.halted = false → entryDue u = none →
      (u.codeKind u.fetchAddr = none → step s = .fault .unmappedAccess) ∧
      ∀ w tag, fetch u = .ok w → decode w = .error tag → step s = .refused (.reserved tag))

/-- 43_control.md R251, R252: in the delay slot the instruction executes and then the transfer takes effect: PC is the
target, IPR0 the page where one is carried; a loop end there is not taken. A request in that step waits, latched or
dropped (60_exceptions.md R295; log 37). -/
def Obligations.DelaySlotThenTarget : Prop :=
  ∀ (s u t : State) (i : Instr) (tr : Transfer), AtBoundary s u →
    Executes u i t → isJmpi i = false → u.pending = some tr →
    ∃ v, step s = .next v ∧ v.regs.pc = tr.target ∧ v.regs.ipr0 = tr.page.getD t.regs.ipr0 ∧
      v.regs.lc = t.regs.lc ∧ v.pending = t.pending ∧ ∀ r, v.data r = t.data r

/-- 43_control.md R270, R271, 10_state.md R31: with no transfer pending, at LE with L = 0 the loop restarts at LS and LC
counts down, or with LC = 0 is left; anywhere else, and where a bus write two instructions before suppresses the test,
control goes to the next address; past 0xFFFF it stops (D9, log 18). So it is with a request in that step that is not
entered (log 37). -/
def Obligations.LoopEndAndAdvance : Prop :=
  ∀ (s u t : State) (i : Instr), AtBoundary s u →
    Executes u i t → isJmpi i = false → u.pending = none →
    let atEnd := t.regs.pc = t.regs.le ∧ t.flagL = false ∧ u.prev2LoopWrite = false
    (atEnd → t.regs.lc ≠ 0#16 →
      ∃ v, step s = .next v ∧ v.regs.pc = t.regs.ls ∧ v.regs.lc = t.regs.lc - 1#16 ∧ v.regs.ipr0 = t.regs.ipr0 ∧
        v.regs.mr0 = t.regs.mr0) ∧
    (¬ atEnd ∨ t.regs.lc = 0#16 →
      (t.regs.pc ≠ 0xFFFF#16 →
        ∃ v, step s = .next v ∧ v.regs.pc.toNat = t.regs.pc.toNat + 1 ∧ v.regs.lc = t.regs.lc ∧
          v.regs.ipr0 = t.regs.ipr0 ∧ v.regs.mr0 = t.regs.mr0) ∧
      (t.regs.pc = 0xFFFF#16 → step s = .fault .pcWrap))

/-- 70_reset_and_hazards.md R325 to R332, 60_exceptions.md R297, 10_state.md R51 (the spec's decisions D35, D40, logs 36,
41): the forbidden sequences stop at their second instruction, judged by the record of the first, and nothing else is
held to be one; the window of R331 stops, and nothing outside it; and a step that executes an instruction, with no event
or with a request that is not entered (log 37), leaves the record that R51 describes of it, moves the record before it
to where R271 looks, counts the wake counter down and clears the vector mark. -/
def Obligations.ForbiddenSequencesStop : Prop :=
  ∀ (s u : State) (i : Instr), AtBoundary s u → Runs u i →
    let forbidden :=
      (isCof i = true ∧ isJmpi i = false ∧ (u.regs.pc = u.regs.le ∨ u.regs.pc + 1#16 = u.regs.le)) ∨
      (isJmpi i = true ∧ u.flagL = false ∧ (u.regs.pc = u.regs.le ∨ u.regs.pc + 1#16 = u.regs.le)) ∨
      (∃ p, u.prev = some p ∧
        ((isCof i = true ∧ (p.delayedCof = true ∨ p.usedIbus = true)) ∨
          (p.wroteFlags = true ∧ ∃ c, condOf i = some c ∧ c ≠ .always) ∨
          (u.regs.ipr0 = 0#16 ∧ p.stiAddr = some u.regs.pc))) ∨
      (u.atVector = true ∧ isJmpi i = false)
    (forbidden → ∃ f, step s = .fault f) ∧ (¬ forbidden → sequenceFault i u = none) ∧
    (∀ t, sequenceFault i u = none → exec i (clearPending (afterFetch u)) = .next t →
      (LoopWindow u t i → step s = .fault .loopRegisterHazard) ∧
      (¬ LoopWindow u t i → step s ≠ .fault .loopRegisterHazard)) ∧
    ∀ v, step s = .next v →
      (∃ p, v.prev = some p ∧ Records u i p) ∧
      (v.prev2LoopWrite = true ↔ ∃ p, u.prev = some p ∧ p.busLoopWrite = true) ∧ v.wake = u.wake - 1 ∧
      v.atVector = false

/-! ## Interrupts and reset -/

/-- 60_exceptions.md R293, R295, R296 (the spec's decision D36, log 37): a latched request is entered at the first boundary
that qualifies, one latched before this step and one presented in it alike: LR1 and IPR1 take PC and IPR0, control goes
to the vector in page zero, L is set, the request is taken, and nothing else changes. A running core that can take a
request enters it in the step that presents it, and its disable count goes up. That this holds at a vector whose JMPI has
not executed (log 52) and before the first instruction after reset (log 53) is the model's choice. -/
def Obligations.InterruptEntry : Prop :=
  ∀ (s : State) (n : BitVec 5),
    (∀ u, AtBoundary s u → u.halted = false → u.irq = some n → u.wake = 0 → prevIs u Past.delayedCof = false →
      (prevIs u Past.plainJmpi = false →
        step s = .next { u with
          regs.lr1 := u.regs.pc, regs.ipr1 := u.regs.ipr0, regs.ipr0 := 0#16, regs.mr0 := packL u.regs.mr0 true
          regs.pc := BitVec.ofNat 16 (0x20 + n.toNat), irq := none, prev := none, prev2LoopWrite := false
          atVector := true }) ∧
      (prevIs u Past.plainJmpi = true → step s = .fault .interruptAfterJmpi)) ∧
    (nextEvent s = .request n → s.halted = false → s.intDisable = 0 → s.irq = none → s.wake = 0 →
      prevIs s Past.delayedCof = false → prevIs s Past.plainJmpi = false →
      step s = .next { dropEvent s with
        regs.lr1 := s.regs.pc, regs.ipr1 := s.regs.ipr0, regs.ipr0 := 0#16, regs.mr0 := packL s.regs.mr0 true
        regs.pc := BitVec.ofNat 16 (0x20 + n.toNat), intDisable := 1, prev := none, prev2LoopWrite := false
        atVector := true })

/-- 60_exceptions.md R293, R301, R302: a request is presented only while the disable count is 0 and none is latched; it is
latched and the count goes up; otherwise nothing changes. A request that wakes a halted core lets the next instruction
execute at once and leaves two more to execute before the entry; HALT among them is a NOP (D38, log 39). That the
request and that instruction share one step, and that a request not presented is dropped, is the model's schedule
(log 37). -/
def Obligations.RequestLatchesAndWakes : Prop :=
  ∀ (s : State) (n : BitVec 5),
    (s.intDisable = 0 → s.irq = none →
      presentRequest n s = { s with
        irq := some n, intDisable := 1, halted := false, wake := if s.halted then 3 else s.wake }) ∧
    (s.intDisable ≠ 0 ∨ s.irq ≠ none → presentRequest n s = s) ∧
    (nextEvent s = .request n → s.halted = true → s.intDisable = 0 → s.irq = none →
      let u := presentRequest n (dropEvent s)
      ∀ (i : Instr) (t v : State), NextIs u i → sequenceFault i u = none →
        exec i (clearPending (afterFetch u)) = .next t → retire i (afterFetch u) t = .ok v →
        step s = .next v ∧ v.irq = some n ∧ v.halted = false ∧ v.wake = 2 ∧ v.intDisable ≤ 1)

/-- 70_reset_and_hazards.md R320, 10_state.md R54, 00_scope.md R9: a reset event leaves every register and all hidden
state of the core at its reset value, PC at the platform's RESET_VECTOR, the disable count at its INT_RESET_DISABLE
(60_exceptions.md R293), whatever came before; memory and platform are as they were, and the devices see it (log 47). -/
def Obligations.ResetEvent : Prop :=
  ∀ s : State, nextEvent s = .reset →
    ∃ t, step s = .next t ∧ t.regs = Regs.reset s.plat.resetVector ∧ t.pending = none ∧ t.prev = none ∧
      t.prev2LoopWrite = false ∧ t.halted = false ∧ t.irq = none ∧ t.wake = 0 ∧ t.atVector = false ∧
      t.intDisable = s.plat.intResetDisable ∧ t.plat = s.plat ∧ t.xmem = s.xmem ∧ t.ymem = s.ymem ∧ t.imem = s.imem ∧
      t.devices = .reset :: s.devices

/-- 10_state.md R54, 00_scope.md R9, 20_memory.md R72: the registers and the hidden state after reset, on every platform
and with any initial contents of the memories. The reset state is the one of the reset platform, whose RESET_VECTOR is
0x4000 (D20, log 25), with no contents given. -/
def Obligations.ResetValues : Prop :=
  (∀ (p : Platform) (x y i : Memory),
    let s := State.boot p x y i
    (∀ r, s.data r = 0#16) ∧ (∀ q, s.guard q = 0#8) ∧ s.regs.p = 0#32 ∧ (∀ n, s.index n = 0#16) ∧ s.regs.lr0 = 0#16 ∧
    s.regs.lr1 = 0#16 ∧ s.regs.mr0 = 0#16 ∧ s.regs.lc = 0#16 ∧ s.regs.ls = 0#16 ∧ s.regs.le = 0xFFFF#16 ∧
    s.regs.ipr0 = 0#16 ∧ s.regs.ipr1 = 0#16 ∧ s.regs.pc = p.resetVector ∧ s.pending = none ∧ s.prev = none ∧
    s.prev2LoopWrite = false ∧ s.halted = false ∧ s.irq = none ∧ s.wake = 0 ∧ s.atVector = false ∧
    s.intDisable = p.intResetDisable ∧ s.plat = p ∧ s.xmem = x ∧ s.ymem = y ∧ s.imem = i) ∧
  State.reset = State.boot resetPlatform [] [] [] ∧ State.reset.regs.pc = 0x4000#16

/-! ## The whole machine -/

/-- The invariant `Inv` holds after reset, on every platform and with any initial contents in canonical form. -/
def Obligations.ResetInv : Prop :=
  Inv State.reset ∧
  ∀ (p : Platform) (x y i : Memory), x.wf = true → y.wf = true → i.wf = true → Inv (State.boot p x y i)

/-- Every step keeps the invariant `Inv`: canonical memories, MR0's unimplemented bits 0 (10_state.md R35), the wake
counter in range, no latched request in a waiting core, a transfer pending only in a delay slot, and the state at a
vector. -/
def Obligations.StepKeepsInv : Prop :=
  ∀ s t : State, Inv s → step s = .next t → Inv t

/-- 10_state.md R46: IPR0 changes by reset, by interrupt entry, by JMPI, and by the page of a JRcc or RETI that takes
effect after its delay slot; by nothing else (a move can only write the value it holds, D31, log 32). -/
def Obligations.PageWriters : Prop :=
  ∀ s t : State, step s = .next t → t.regs.ipr0 ≠ s.regs.ipr0 →
    nextEvent s = .reset ∨ (t.atVector = true ∧ t.regs.ipr0 = 0#16 ∧ t.regs.ipr1 = s.regs.ipr0) ∨
    (∃ i, NextIs (dropEvent s) i ∧ isJmpi i = true ∧ t.regs.ipr0 = 0#16) ∨
    (∃ tr page, s.pending = some tr ∧ tr.page = some page ∧ t.regs.ipr0 = page ∧ t.regs.pc = tr.target)

/-- 10_state.md R39: the loop flag is set by interrupt entry and by an instruction that moves a value into MR0, by
nothing else. -/
def Obligations.LoopFlagSetters : Prop :=
  ∀ s t : State, step s = .next t → s.flagL = false → t.flagL = true →
    (t.atVector = true ∧ t.regs.lr1 = s.regs.pc) ∨ ∃ i, NextIs (dropEvent s) i ∧ .mr0 ∈ moveTargets i

/-- 20_memory.md R75, R63: instruction memory is written by STI only, and only at the word its index register names in
page zero; that STI acts there and only while IPR0 is 0 is the spec's decision D15 (log 23). -/
def Obligations.CodeWrittenBySti : Prop :=
  ∀ s t : State, step s = .next t → t.imem ≠ s.imem →
    ∃ i n, NextIs (dropEvent s) i ∧ stiIndex i = some n ∧ s.regs.ipr0 = 0#16 ∧
      ∀ b, b / 4 ≠ (s.index n).toNat → t.imem.readByte .i b = s.imem.readByte .i b

/-- 41_multiplier.md R192: nothing but MUL, MAC, MSU and RESP writes P, reset apart. -/
def Obligations.ProductWriters : Prop :=
  ∀ s t : State, step s = .next t → t.regs.p ≠ s.regs.p →
    nextEvent s = .reset ∨ ∃ i, NextIs (dropEvent s) i ∧ writesProduct i = true

/-! ## Multi-word arithmetic -/

/-- 40_alu.md R136 to R139: without saturation ADD then ADDC add, and SUB then SUBC subtract, two 32-bit numbers held in
pairs of 16-bit registers. For SUBC it rests on the spec's decision D2 (log 14). -/
def Obligations.MultiWordArithmetic : Prop :=
  ∀ (xl xh yl yh dl dh : DataReg) (m : ParMove) (s : State), s.flagS = false → m.isVoid = true →
    dl ≠ xh → dl ≠ yh → dl ≠ dh →
    let x := s.data xh ++ s.data xl
    let y := s.data yh ++ s.data yl
    (∃ t u, exec (.add (.reg xl) (.reg yl) dl m) s = .next t ∧ exec (.addc (.reg xh) (.reg yh) dh m) t = .next u ∧
      u.data dh ++ u.data dl = x + y) ∧
    (∃ t u, exec (.sub (.reg xl) (.reg yl) dl m) s = .next t ∧ exec (.subc (.reg xh) (.reg yh) dh m) t = .next u ∧
      u.data dh ++ u.data dl = x - y)

end
end

