-- ==== Sys2Proof/Laws/Decode.lean ====
section
/-! SUPPORT. Fields of a word put together from parts, and that every operand table and every move field decodes what its
encoder writes (30_encoding.md R95 to R108). -/

namespace Sys2Proof

/-! ## Fields of a concatenation -/

/-- A field that lies in the upper part. -/
theorem bits_append_high {n m : Nat} (a : BitVec n) (b : BitVec m) (lo len : Nat) (h : m ≤ lo) :
    bits (a ++ b) lo len = bits a (lo - m) len := by
  apply BitVec.eq_of_getLsbD_eq
  intro i hi
  simp only [bits, BitVec.getLsbD_extractLsb', BitVec.getLsbD_append, hi, decide_true, Bool.true_and]
  rw [if_neg (by omega), show lo + i - m = lo - m + i by omega]

/-- A field that lies in the lower part. -/
theorem bits_append_low {n m : Nat} (a : BitVec n) (b : BitVec m) (lo len : Nat) (h : lo + len ≤ m) :
    bits (a ++ b) lo len = bits b lo len := by
  apply BitVec.eq_of_getLsbD_eq
  intro i hi
  simp only [bits, BitVec.getLsbD_extractLsb', BitVec.getLsbD_append, hi, decide_true, Bool.true_and]
  rw [if_pos (by omega)]

@[simp] theorem bits_self {n : Nat} (a : BitVec n) : bits a 0 n = a := by simp [bits]

theorem bits_bits {n : Nat} (a : BitVec n) (lo len l k : Nat) (h : l + k ≤ len) :
    bits (bits a lo len) l k = bits a (lo + l) k := by
  apply BitVec.eq_of_getLsbD_eq
  intro i hi
  simp only [bits, BitVec.getLsbD_extractLsb', hi, decide_true, Bool.true_and]
  simp [show l + i < len by omega, Nat.add_assoc]

/-! ## The operand tables -/

@[simp] theorem decodeDataReg_code (r : DataReg) : decodeDataReg r.code = r := by cases r <;> rfl

@[simp] theorem decodeAcc_code (r : AccName) : decodeAcc r.code = r := by cases r <;> rfl

@[simp] theorem decodeIndex_code (r : IndexReg) : decodeIndex r.code = r := by cases r <;> rfl

@[simp] theorem decodeMoveReg_code (r : MoveReg) : decodeMoveReg r.code = .ok r := by
  cases r with
  | data r => cases r <;> rfl
  | guard r => cases r <;> rfl
  | index r => cases r <;> rfl
  | _ => rfl

theorem decodeMoveReg_countable (r : MoveReg) (h : r.countable = true) :
    decodeMoveReg (0#1 ++ bits r.code 0 5) = .ok r := by
  cases r with
  | data r => cases r <;> rfl
  | guard r => cases h
  | index r => cases r <;> rfl
  | nop => cases h
  | ipr0 => cases h
  | ipr1 => cases h
  | _ => rfl

@[simp] theorem decodeAluOp2_code (r : AluOp) : decodeAluOp2 r.code = .ok r := by
  cases r with
  | reg r => cases r <;> rfl
  | acc r => cases r <;> rfl
  | _ => rfl

theorem decodeAluOp1_code (r : AluOp) (h : r ≠ .p) : decodeAluOp1 r.code = .ok r := by
  cases r with
  | reg r => cases r <;> rfl
  | acc r => cases r <;> rfl
  | p => exact absurd rfl h
  | _ => rfl

@[simp] theorem decodeMulMode_code (r : MulMode) : decodeMulMode r.code = r := by cases r <;> rfl

@[simp] theorem decodeCond_code (r : Cond) : decodeCond r.code = .ok r := by cases r <;> rfl

@[simp] theorem decodeJmpiMode_code (r : JmpiMode) : decodeJmpiMode r.code = .ok r := by cases r <;> rfl

theorem decodePost_code (p : PostMod) (h : p.ok = true) : decodePost p.code = p := by
  cases p with
  | star => rfl
  | amount k =>
    simp only [PostMod.ok, decide_eq_true_eq] at h
    obtain ⟨h1, h2⟩ := h
    interval_cases k <;> rfl

/-! ## The move fields -/

theorem getLsbD_append_low {n m : Nat} (a : BitVec n) (b : BitVec m) (k : Nat) (h : k < m) :
    (a ++ b).getLsbD k = b.getLsbD k := by rw [BitVec.getLsbD_append, if_pos h]

theorem getLsbD_append_high {n m : Nat} (a : BitVec n) (b : BitVec m) (k : Nat) (h : m ≤ k) :
    (a ++ b).getLsbD k = a.getLsbD (k - m) := by rw [BitVec.getLsbD_append, if_neg (by omega)]

theorem getLsbD_ofBool_zero (b : Bool) : (BitVec.ofBool b).getLsbD 0 = b := by cases b <;> rfl

theorem decodeFull_encodeFull (f : FullMove) (h : f.ok = true) : decodeFull (encodeFull f) = .ok f := by
  obtain ⟨st, n, p, r⟩ := f
  simp (disch := decide) only [decodeFull, encodeFull, bits_append_low, bits_append_high, getLsbD_append_high, bind,
    Except.bind, Nat.reduceSub, bits_self, decodeMoveReg_code, decodeIndex_code, decodePost_code p h,
    getLsbD_ofBool_zero]

theorem decodeShort_encodeShort (f : ShortMove) : decodeShort (encodeShort f) = f := by
  obtain ⟨st, n, p, r⟩ := f
  simp (disch := decide) only [decodeShort, encodeShort, bits_append_low, bits_append_high, getLsbD_append_high,
    getLsbD_append_low, Nat.reduceSub, bits_self, decodeDataReg_code, decodeIndex_code, getLsbD_ofBool_zero]

/-- The selector of a register move lies in `m[16:12]`; its source begins at bit 11 (R105). -/
theorem mv_selector (src dst : MoveReg) : bits (encodeParMove (.mv src dst)) 10 4 = 0#2 ++ bits src.code 4 2 := by
  apply BitVec.eq_of_getLsbD_eq
  intro i hi
  simp only [bits, encodeParMove, BitVec.getLsbD_extractLsb', BitVec.getLsbD_append]
  interval_cases i <;> simp

theorem decodeParMove_encodeParMove (m : ParMove) (h : m.ok = true) : decodeParMove (encodeParMove m) = .ok m := by
  cases m with
  | full b f =>
    cases b <;>
      simp (disch := decide) only [decodeParMove, encodeParMove, bits_append_low, getLsbD_append_high,
        getLsbD_append_low, decodeFull_encodeFull f h, bind, Except.bind, Bus.code, Nat.reduceSub, bits_self] <;>
      rfl
  | short x y =>
    simp (disch := decide) only [decodeParMove, encodeParMove, bits_append_low, bits_append_high, getLsbD_append_high,
      getLsbD_append_low, decodeShort_encodeShort, Nat.reduceSub, bits_self]
    rfl
  | mv src dst =>
    have e : (bits (encodeParMove (.mv src dst)) 10 4).toNat < 4 := by
      rw [mv_selector, BitVec.toNat_append]
      simpa using (bits src.code 4 2).isLt
    have h1 : bits (encodeParMove (.mv src dst)) 6 6 = src.code := by
      simp (disch := decide) only [encodeParMove, bits_append_low, bits_append_high, Nat.reduceSub, bits_self]
    have h2 : bits (encodeParMove (.mv src dst)) 0 6 = dst.code := by
      simp (disch := decide) only [encodeParMove, bits_append_low, bits_self]
    have h3 : (encodeParMove (.mv src dst)).getLsbD 16 = false := by
      simp (disch := decide) only [encodeParMove, getLsbD_append_high, Nat.reduceSub]; rfl
    have h4 : (encodeParMove (.mv src dst)).getLsbD 14 = true := by
      simp (disch := decide) only [encodeParMove, getLsbD_append_high, Nat.reduceSub]; rfl
    have h5 : (encodeParMove (.mv src dst)).getLsbD 15 = false := by
      simp (disch := decide) only [encodeParMove, getLsbD_append_high, Nat.reduceSub]; rfl
    unfold decodeParMove decodeSpecialMove
    rw [h3, h4, h5, h1, h2]
    generalize (bits (encodeParMove (.mv src dst)) 10 4).toNat = k at e
    interval_cases k <;> simp [bind, Except.bind]
  | longX store n r =>
    simp (disch := decide) only [decodeParMove, encodeParMove, decodeSpecialMove, bits_append_low, bits_append_high,
      getLsbD_append_high, getLsbD_append_low, Nat.reduceSub, bits_self, decodeMoveReg_code, decodeIndex_code,
      getLsbD_ofBool_zero, bind, Except.bind]
    rfl
  | ibus store n p x =>
    simp (disch := decide) only [decodeParMove, encodeParMove, decodeSpecialMove, bits_append_low, bits_append_high,
      getLsbD_append_high, getLsbD_append_low, Nat.reduceSub, bits_self, decodeIndex_code, getLsbD_ofBool_zero, bind,
      Except.bind, decodeAcc_code, decodePost_code p h]
    rfl

end Sys2Proof
end

