-- ==== Sys2Proof/Laws/State.lean ====
section
/-! SUPPORT. What each named update of State leaves in each field and register (Machine/Ops.lean): the lemmas that keep
later proofs from unfolding a record update. -/

namespace Sys2Proof.Machine

/-! ## Reading what was written -/

@[simp] theorem State.data_setData_same (s : State) (r : DataReg) (v : Word) : (s.setData r v).data r = v := by
  cases r <;> rfl

theorem State.data_setData_of_ne (s : State) {r q : DataReg} (v : Word) (h : q ≠ r) :
    (s.setData r v).data q = s.data q := by
  cases r <;> cases q <;> first | rfl | exact absurd rfl h

@[simp] theorem State.guard_setGuard_same (s : State) (x : AccName) (v : Byte) : (s.setGuard x v).guard x = v := by
  cases x <;> rfl

theorem State.guard_setGuard_of_ne (s : State) {x y : AccName} (v : Byte) (h : y ≠ x) :
    (s.setGuard x v).guard y = s.guard y := by
  cases x <;> cases y <;> first | rfl | exact absurd rfl h

@[simp] theorem State.index_setIndex_same (s : State) (n : IndexReg) (v : Word) : (s.setIndex n v).index n = v := by
  cases n <;> rfl

theorem State.index_setIndex_of_ne (s : State) {n k : IndexReg} (v : Word) (h : k ≠ n) :
    (s.setIndex n v).index k = s.index k := by
  cases n <;> cases k <;> first | rfl | exact absurd rfl h

/-! ## What an update leaves alone -/

@[simp] theorem State.guard_setData (s : State) (r : DataReg) (v : Word) (y : AccName) : (s.setData r v).guard y = s.guard y := by
  cases r <;> cases y <;> rfl

@[simp] theorem State.index_setData (s : State) (r : DataReg) (v : Word) (k : IndexReg) : (s.setData r v).index k = s.index k := by
  cases r <;> cases k <;> rfl

@[simp] theorem State.pending_setData (s : State) (r : DataReg) (v : Word) : (s.setData r v).pending = s.pending := by
  cases r <;> rfl

@[simp] theorem State.prev_setData (s : State) (r : DataReg) (v : Word) : (s.setData r v).prev = s.prev := by
  cases r <;> rfl

@[simp] theorem State.prev2LoopWrite_setData (s : State) (r : DataReg) (v : Word) : (s.setData r v).prev2LoopWrite = s.prev2LoopWrite := by
  cases r <;> rfl

@[simp] theorem State.halted_setData (s : State) (r : DataReg) (v : Word) : (s.setData r v).halted = s.halted := by
  cases r <;> rfl

@[simp] theorem State.irq_setData (s : State) (r : DataReg) (v : Word) : (s.setData r v).irq = s.irq := by
  cases r <;> rfl

@[simp] theorem State.wake_setData (s : State) (r : DataReg) (v : Word) : (s.setData r v).wake = s.wake := by
  cases r <;> rfl

@[simp] theorem State.atVector_setData (s : State) (r : DataReg) (v : Word) : (s.setData r v).atVector = s.atVector := by
  cases r <;> rfl

@[simp] theorem State.intDisable_setData (s : State) (r : DataReg) (v : Word) : (s.setData r v).intDisable = s.intDisable := by
  cases r <;> rfl

@[simp] theorem State.xmem_setData (s : State) (r : DataReg) (v : Word) : (s.setData r v).xmem = s.xmem := by
  cases r <;> rfl

@[simp] theorem State.ymem_setData (s : State) (r : DataReg) (v : Word) : (s.setData r v).ymem = s.ymem := by
  cases r <;> rfl

@[simp] theorem State.imem_setData (s : State) (r : DataReg) (v : Word) : (s.setData r v).imem = s.imem := by
  cases r <;> rfl

@[simp] theorem State.plat_setData (s : State) (r : DataReg) (v : Word) : (s.setData r v).plat = s.plat := by
  cases r <;> rfl

@[simp] theorem State.events_setData (s : State) (r : DataReg) (v : Word) : (s.setData r v).events = s.events := by
  cases r <;> rfl

@[simp] theorem State.freeCount_setData (s : State) (r : DataReg) (v : Word) : (s.setData r v).freeCount = s.freeCount := by
  cases r <;> rfl

@[simp] theorem State.devices_setData (s : State) (r : DataReg) (v : Word) : (s.setData r v).devices = s.devices := by
  cases r <;> rfl

@[simp] theorem State.p_setData (s : State) (r : DataReg) (v : Word) : (s.setData r v).regs.p = s.regs.p := by
  cases r <;> rfl

@[simp] theorem State.pc_setData (s : State) (r : DataReg) (v : Word) : (s.setData r v).regs.pc = s.regs.pc := by
  cases r <;> rfl

@[simp] theorem State.lr0_setData (s : State) (r : DataReg) (v : Word) : (s.setData r v).regs.lr0 = s.regs.lr0 := by
  cases r <;> rfl

@[simp] theorem State.lr1_setData (s : State) (r : DataReg) (v : Word) : (s.setData r v).regs.lr1 = s.regs.lr1 := by
  cases r <;> rfl

@[simp] theorem State.mr0_setData (s : State) (r : DataReg) (v : Word) : (s.setData r v).regs.mr0 = s.regs.mr0 := by
  cases r <;> rfl

@[simp] theorem State.lc_setData (s : State) (r : DataReg) (v : Word) : (s.setData r v).regs.lc = s.regs.lc := by
  cases r <;> rfl

@[simp] theorem State.ls_setData (s : State) (r : DataReg) (v : Word) : (s.setData r v).regs.ls = s.regs.ls := by
  cases r <;> rfl

@[simp] theorem State.le_setData (s : State) (r : DataReg) (v : Word) : (s.setData r v).regs.le = s.regs.le := by
  cases r <;> rfl

@[simp] theorem State.ipr0_setData (s : State) (r : DataReg) (v : Word) : (s.setData r v).regs.ipr0 = s.regs.ipr0 := by
  cases r <;> rfl

@[simp] theorem State.ipr1_setData (s : State) (r : DataReg) (v : Word) : (s.setData r v).regs.ipr1 = s.regs.ipr1 := by
  cases r <;> rfl

@[simp] theorem State.data_setGuard (s : State) (x : AccName) (v : Byte) (q : DataReg) : (s.setGuard x v).data q = s.data q := by
  cases x <;> cases q <;> rfl

@[simp] theorem State.index_setGuard (s : State) (x : AccName) (v : Byte) (k : IndexReg) : (s.setGuard x v).index k = s.index k := by
  cases x <;> cases k <;> rfl

@[simp] theorem State.pending_setGuard (s : State) (x : AccName) (v : Byte) : (s.setGuard x v).pending = s.pending := by
  cases x <;> rfl

@[simp] theorem State.prev_setGuard (s : State) (x : AccName) (v : Byte) : (s.setGuard x v).prev = s.prev := by
  cases x <;> rfl

@[simp] theorem State.prev2LoopWrite_setGuard (s : State) (x : AccName) (v : Byte) : (s.setGuard x v).prev2LoopWrite = s.prev2LoopWrite := by
  cases x <;> rfl

@[simp] theorem State.halted_setGuard (s : State) (x : AccName) (v : Byte) : (s.setGuard x v).halted = s.halted := by
  cases x <;> rfl

@[simp] theorem State.irq_setGuard (s : State) (x : AccName) (v : Byte) : (s.setGuard x v).irq = s.irq := by
  cases x <;> rfl

@[simp] theorem State.wake_setGuard (s : State) (x : AccName) (v : Byte) : (s.setGuard x v).wake = s.wake := by
  cases x <;> rfl

@[simp] theorem State.atVector_setGuard (s : State) (x : AccName) (v : Byte) : (s.setGuard x v).atVector = s.atVector := by
  cases x <;> rfl

@[simp] theorem State.intDisable_setGuard (s : State) (x : AccName) (v : Byte) : (s.setGuard x v).intDisable = s.intDisable := by
  cases x <;> rfl

@[simp] theorem State.xmem_setGuard (s : State) (x : AccName) (v : Byte) : (s.setGuard x v).xmem = s.xmem := by
  cases x <;> rfl

@[simp] theorem State.ymem_setGuard (s : State) (x : AccName) (v : Byte) : (s.setGuard x v).ymem = s.ymem := by
  cases x <;> rfl

@[simp] theorem State.imem_setGuard (s : State) (x : AccName) (v : Byte) : (s.setGuard x v).imem = s.imem := by
  cases x <;> rfl

@[simp] theorem State.plat_setGuard (s : State) (x : AccName) (v : Byte) : (s.setGuard x v).plat = s.plat := by
  cases x <;> rfl

@[simp] theorem State.events_setGuard (s : State) (x : AccName) (v : Byte) : (s.setGuard x v).events = s.events := by
  cases x <;> rfl

@[simp] theorem State.freeCount_setGuard (s : State) (x : AccName) (v : Byte) : (s.setGuard x v).freeCount = s.freeCount := by
  cases x <;> rfl

@[simp] theorem State.devices_setGuard (s : State) (x : AccName) (v : Byte) : (s.setGuard x v).devices = s.devices := by
  cases x <;> rfl

@[simp] theorem State.p_setGuard (s : State) (x : AccName) (v : Byte) : (s.setGuard x v).regs.p = s.regs.p := by
  cases x <;> rfl

@[simp] theorem State.pc_setGuard (s : State) (x : AccName) (v : Byte) : (s.setGuard x v).regs.pc = s.regs.pc := by
  cases x <;> rfl

@[simp] theorem State.lr0_setGuard (s : State) (x : AccName) (v : Byte) : (s.setGuard x v).regs.lr0 = s.regs.lr0 := by
  cases x <;> rfl

@[simp] theorem State.lr1_setGuard (s : State) (x : AccName) (v : Byte) : (s.setGuard x v).regs.lr1 = s.regs.lr1 := by
  cases x <;> rfl

@[simp] theorem State.mr0_setGuard (s : State) (x : AccName) (v : Byte) : (s.setGuard x v).regs.mr0 = s.regs.mr0 := by
  cases x <;> rfl

@[simp] theorem State.lc_setGuard (s : State) (x : AccName) (v : Byte) : (s.setGuard x v).regs.lc = s.regs.lc := by
  cases x <;> rfl

@[simp] theorem State.ls_setGuard (s : State) (x : AccName) (v : Byte) : (s.setGuard x v).regs.ls = s.regs.ls := by
  cases x <;> rfl

@[simp] theorem State.le_setGuard (s : State) (x : AccName) (v : Byte) : (s.setGuard x v).regs.le = s.regs.le := by
  cases x <;> rfl

@[simp] theorem State.ipr0_setGuard (s : State) (x : AccName) (v : Byte) : (s.setGuard x v).regs.ipr0 = s.regs.ipr0 := by
  cases x <;> rfl

@[simp] theorem State.ipr1_setGuard (s : State) (x : AccName) (v : Byte) : (s.setGuard x v).regs.ipr1 = s.regs.ipr1 := by
  cases x <;> rfl

@[simp] theorem State.data_setIndex (s : State) (n : IndexReg) (v : Word) (q : DataReg) : (s.setIndex n v).data q = s.data q := by
  cases n <;> cases q <;> rfl

@[simp] theorem State.guard_setIndex (s : State) (n : IndexReg) (v : Word) (y : AccName) : (s.setIndex n v).guard y = s.guard y := by
  cases n <;> cases y <;> rfl

@[simp] theorem State.pending_setIndex (s : State) (n : IndexReg) (v : Word) : (s.setIndex n v).pending = s.pending := by
  cases n <;> rfl

@[simp] theorem State.prev_setIndex (s : State) (n : IndexReg) (v : Word) : (s.setIndex n v).prev = s.prev := by
  cases n <;> rfl

@[simp] theorem State.prev2LoopWrite_setIndex (s : State) (n : IndexReg) (v : Word) : (s.setIndex n v).prev2LoopWrite = s.prev2LoopWrite := by
  cases n <;> rfl

@[simp] theorem State.halted_setIndex (s : State) (n : IndexReg) (v : Word) : (s.setIndex n v).halted = s.halted := by
  cases n <;> rfl

@[simp] theorem State.irq_setIndex (s : State) (n : IndexReg) (v : Word) : (s.setIndex n v).irq = s.irq := by
  cases n <;> rfl

@[simp] theorem State.wake_setIndex (s : State) (n : IndexReg) (v : Word) : (s.setIndex n v).wake = s.wake := by
  cases n <;> rfl

@[simp] theorem State.atVector_setIndex (s : State) (n : IndexReg) (v : Word) : (s.setIndex n v).atVector = s.atVector := by
  cases n <;> rfl

@[simp] theorem State.intDisable_setIndex (s : State) (n : IndexReg) (v : Word) : (s.setIndex n v).intDisable = s.intDisable := by
  cases n <;> rfl

@[simp] theorem State.xmem_setIndex (s : State) (n : IndexReg) (v : Word) : (s.setIndex n v).xmem = s.xmem := by
  cases n <;> rfl

@[simp] theorem State.ymem_setIndex (s : State) (n : IndexReg) (v : Word) : (s.setIndex n v).ymem = s.ymem := by
  cases n <;> rfl

@[simp] theorem State.imem_setIndex (s : State) (n : IndexReg) (v : Word) : (s.setIndex n v).imem = s.imem := by
  cases n <;> rfl

@[simp] theorem State.plat_setIndex (s : State) (n : IndexReg) (v : Word) : (s.setIndex n v).plat = s.plat := by
  cases n <;> rfl

@[simp] theorem State.events_setIndex (s : State) (n : IndexReg) (v : Word) : (s.setIndex n v).events = s.events := by
  cases n <;> rfl

@[simp] theorem State.freeCount_setIndex (s : State) (n : IndexReg) (v : Word) : (s.setIndex n v).freeCount = s.freeCount := by
  cases n <;> rfl

@[simp] theorem State.devices_setIndex (s : State) (n : IndexReg) (v : Word) : (s.setIndex n v).devices = s.devices := by
  cases n <;> rfl

@[simp] theorem State.p_setIndex (s : State) (n : IndexReg) (v : Word) : (s.setIndex n v).regs.p = s.regs.p := by
  cases n <;> rfl

@[simp] theorem State.pc_setIndex (s : State) (n : IndexReg) (v : Word) : (s.setIndex n v).regs.pc = s.regs.pc := by
  cases n <;> rfl

@[simp] theorem State.lr0_setIndex (s : State) (n : IndexReg) (v : Word) : (s.setIndex n v).regs.lr0 = s.regs.lr0 := by
  cases n <;> rfl

@[simp] theorem State.lr1_setIndex (s : State) (n : IndexReg) (v : Word) : (s.setIndex n v).regs.lr1 = s.regs.lr1 := by
  cases n <;> rfl

@[simp] theorem State.mr0_setIndex (s : State) (n : IndexReg) (v : Word) : (s.setIndex n v).regs.mr0 = s.regs.mr0 := by
  cases n <;> rfl

@[simp] theorem State.lc_setIndex (s : State) (n : IndexReg) (v : Word) : (s.setIndex n v).regs.lc = s.regs.lc := by
  cases n <;> rfl

@[simp] theorem State.ls_setIndex (s : State) (n : IndexReg) (v : Word) : (s.setIndex n v).regs.ls = s.regs.ls := by
  cases n <;> rfl

@[simp] theorem State.le_setIndex (s : State) (n : IndexReg) (v : Word) : (s.setIndex n v).regs.le = s.regs.le := by
  cases n <;> rfl

@[simp] theorem State.ipr0_setIndex (s : State) (n : IndexReg) (v : Word) : (s.setIndex n v).regs.ipr0 = s.regs.ipr0 := by
  cases n <;> rfl

@[simp] theorem State.ipr1_setIndex (s : State) (n : IndexReg) (v : Word) : (s.setIndex n v).regs.ipr1 = s.regs.ipr1 := by
  cases n <;> rfl

@[simp] theorem State.data_setL (s : State) (l : Bool) (q : DataReg) : (s.setL l).data q = s.data q := by
  cases q <;> rfl

@[simp] theorem State.guard_setL (s : State) (l : Bool) (y : AccName) : (s.setL l).guard y = s.guard y := by
  cases y <;> rfl

@[simp] theorem State.index_setL (s : State) (l : Bool) (k : IndexReg) : (s.setL l).index k = s.index k := by
  cases k <;> rfl

@[simp] theorem State.pending_setL (s : State) (l : Bool) : (s.setL l).pending = s.pending := rfl

@[simp] theorem State.prev_setL (s : State) (l : Bool) : (s.setL l).prev = s.prev := rfl

@[simp] theorem State.prev2LoopWrite_setL (s : State) (l : Bool) : (s.setL l).prev2LoopWrite = s.prev2LoopWrite := rfl

@[simp] theorem State.halted_setL (s : State) (l : Bool) : (s.setL l).halted = s.halted := rfl

@[simp] theorem State.irq_setL (s : State) (l : Bool) : (s.setL l).irq = s.irq := rfl

@[simp] theorem State.wake_setL (s : State) (l : Bool) : (s.setL l).wake = s.wake := rfl

@[simp] theorem State.atVector_setL (s : State) (l : Bool) : (s.setL l).atVector = s.atVector := rfl

@[simp] theorem State.intDisable_setL (s : State) (l : Bool) : (s.setL l).intDisable = s.intDisable := rfl

@[simp] theorem State.xmem_setL (s : State) (l : Bool) : (s.setL l).xmem = s.xmem := rfl

@[simp] theorem State.ymem_setL (s : State) (l : Bool) : (s.setL l).ymem = s.ymem := rfl

@[simp] theorem State.imem_setL (s : State) (l : Bool) : (s.setL l).imem = s.imem := rfl

@[simp] theorem State.plat_setL (s : State) (l : Bool) : (s.setL l).plat = s.plat := rfl

@[simp] theorem State.events_setL (s : State) (l : Bool) : (s.setL l).events = s.events := rfl

@[simp] theorem State.freeCount_setL (s : State) (l : Bool) : (s.setL l).freeCount = s.freeCount := rfl

@[simp] theorem State.devices_setL (s : State) (l : Bool) : (s.setL l).devices = s.devices := rfl

@[simp] theorem State.p_setL (s : State) (l : Bool) : (s.setL l).regs.p = s.regs.p := rfl

@[simp] theorem State.pc_setL (s : State) (l : Bool) : (s.setL l).regs.pc = s.regs.pc := rfl

@[simp] theorem State.lr0_setL (s : State) (l : Bool) : (s.setL l).regs.lr0 = s.regs.lr0 := rfl

@[simp] theorem State.lr1_setL (s : State) (l : Bool) : (s.setL l).regs.lr1 = s.regs.lr1 := rfl

@[simp] theorem State.mr0_setL (s : State) (l : Bool) : (s.setL l).regs.mr0 = packL s.regs.mr0 l := rfl

@[simp] theorem State.lc_setL (s : State) (l : Bool) : (s.setL l).regs.lc = s.regs.lc := rfl

@[simp] theorem State.ls_setL (s : State) (l : Bool) : (s.setL l).regs.ls = s.regs.ls := rfl

@[simp] theorem State.le_setL (s : State) (l : Bool) : (s.setL l).regs.le = s.regs.le := rfl

@[simp] theorem State.ipr0_setL (s : State) (l : Bool) : (s.setL l).regs.ipr0 = s.regs.ipr0 := rfl

@[simp] theorem State.ipr1_setL (s : State) (l : Bool) : (s.setL l).regs.ipr1 = s.regs.ipr1 := rfl

/-! ## A fetch, which changes what the devices have seen only -/

@[simp] theorem regs_afterFetch (s : State) : (afterFetch s).regs = s.regs := rfl

@[simp] theorem pending_afterFetch (s : State) : (afterFetch s).pending = s.pending := rfl

@[simp] theorem prev_afterFetch (s : State) : (afterFetch s).prev = s.prev := rfl

@[simp] theorem prev2LoopWrite_afterFetch (s : State) : (afterFetch s).prev2LoopWrite = s.prev2LoopWrite := rfl

@[simp] theorem halted_afterFetch (s : State) : (afterFetch s).halted = s.halted := rfl

@[simp] theorem irq_afterFetch (s : State) : (afterFetch s).irq = s.irq := rfl

@[simp] theorem wake_afterFetch (s : State) : (afterFetch s).wake = s.wake := rfl

@[simp] theorem atVector_afterFetch (s : State) : (afterFetch s).atVector = s.atVector := rfl

@[simp] theorem intDisable_afterFetch (s : State) : (afterFetch s).intDisable = s.intDisable := rfl

@[simp] theorem xmem_afterFetch (s : State) : (afterFetch s).xmem = s.xmem := rfl

@[simp] theorem ymem_afterFetch (s : State) : (afterFetch s).ymem = s.ymem := rfl

@[simp] theorem imem_afterFetch (s : State) : (afterFetch s).imem = s.imem := rfl

@[simp] theorem plat_afterFetch (s : State) : (afterFetch s).plat = s.plat := rfl

@[simp] theorem events_afterFetch (s : State) : (afterFetch s).events = s.events := rfl

@[simp] theorem freeCount_afterFetch (s : State) : (afterFetch s).freeCount = s.freeCount := rfl

@[simp] theorem data_afterFetch (s : State) (r : DataReg) : (afterFetch s).data r = s.data r := rfl

@[simp] theorem index_afterFetch (s : State) (n : IndexReg) : (afterFetch s).index n = s.index n := rfl

@[simp] theorem flagL_afterFetch (s : State) : (afterFetch s).flagL = s.flagL := rfl

/-- A fetch from memory changes nothing (R69). -/
theorem afterFetch_memory {s : State} (h : ∀ id, s.codeKind s.fetchAddr ≠ some (.device id)) : afterFetch s = s := by
  unfold afterFetch
  split <;> first | rfl | exact absurd ‹_› (h _)

end Sys2Proof.Machine
end

