-- ==== Sys2Proof/Laws/Flags.lean ====
section
/-! SUPPORT. The bits of MR0 after its partial writes: the flag write of the ALU (`packFlags`), the write of L (`packL`),
the mask of a whole write (10_state.md R34, R35). -/

namespace Sys2Proof.Machine

/-- Every bit of MR0 after a flag write: five flags, the rest as it was. -/
theorem packFlags_bit (m : Word) (f : Flags) (k : Nat) :
    (packFlags m f).getLsbD k =
      if k = 0 then f.c else if k = 1 then f.e else if k = 2 then f.v else if k = 3 then f.n
      else if k = 4 then f.z else m.getLsbD k := by
  by_cases h : k < 16
  · obtain ⟨z, n, v, e, c⟩ := f
    have : ∀ j < 16, (packFlags m ⟨z, n, v, e, c⟩).getLsbD j =
        if j = 0 then c else if j = 1 then e else if j = 2 then v else if j = 3 then n
        else if j = 4 then z else m.getLsbD j := by
      intro j hj
      interval_cases j <;> simp only [packFlags, BitVec.getLsbD_append] <;> simp
    exact this k h
  · rw [BitVec.getLsbD_of_ge _ _ (by omega), BitVec.getLsbD_of_ge m _ (by omega)]
    split <;> first | omega | skip
    split <;> first | omega | skip
    split <;> first | omega | skip
    split <;> first | omega | skip
    split <;> first | omega | rfl

/-- Every bit of MR0 after a write of L. -/
theorem packL_bit (m : Word) (l : Bool) (k : Nat) :
    (packL m l).getLsbD k = if k = 7 then l else m.getLsbD k := by
  by_cases h : k < 16
  · have : ∀ j < 16, (packL m l).getLsbD j = if j = 7 then l else m.getLsbD j := by
      intro j hj
      interval_cases j <;> simp only [packL, BitVec.getLsbD_append] <;> simp
    exact this k h
  · rw [BitVec.getLsbD_of_ge _ _ (by omega), BitVec.getLsbD_of_ge m _ (by omega)]
    split <;> first | omega | rfl

@[simp] theorem State.flagL_setL (s : State) (l : Bool) : (s.setL l).flagL = l := by
  simp only [State.flagL, State.mr0_setL, packL_bit]; rfl

/-- A flag write keeps MR0 inside its mask. -/
theorem packFlags_mask (m : Word) (f : Flags) (h : m &&& ~~~mr0Mask = 0) : packFlags m f &&& ~~~mr0Mask = 0 := by
  ext k hk
  have hb : (m &&& ~~~mr0Mask).getLsbD k = false := by rw [h]; simp
  simp only [BitVec.getLsbD_and, ← BitVec.getLsbD_eq_getElem, packFlags_bit] at hb ⊢
  interval_cases k <;> simp_all [mr0Mask]

/-- A write of L keeps MR0 inside its mask. -/
theorem packL_mask (m : Word) (l : Bool) (h : m &&& ~~~mr0Mask = 0) : packL m l &&& ~~~mr0Mask = 0 := by
  ext k hk
  have hb : (m &&& ~~~mr0Mask).getLsbD k = false := by rw [h]; simp
  simp only [BitVec.getLsbD_and, ← BitVec.getLsbD_eq_getElem, packL_bit] at hb ⊢
  interval_cases k <;> simp_all [mr0Mask]

/-- A masked write keeps MR0 inside its mask. -/
theorem and_mask (v : Word) : (v &&& mr0Mask) &&& ~~~mr0Mask = 0 := by
  ext k hk
  simp

end Sys2Proof.Machine
end

