-- ==== Sys2Proof/Laws/Memory.lean ====
section
/-! SUPPORT. The memory lists: the canonical form is kept by every write, a read after a write gives what was written, and
every other byte is as before (20_memory.md R70), in any memory. -/

namespace Sys2Proof.Machine

/-! ## The canonical form -/

theorem Memory.wfFrom_mono {lo hi : Nat} (m : Memory) (h : lo ≤ hi) (hm : m.wfFrom hi = true) :
    m.wfFrom lo = true := by
  cases m with
  | nil => rfl
  | cons c t =>
    obtain ⟨k, b⟩ := c
    simp only [Memory.wfFrom, Bool.and_eq_true, decide_eq_true_eq] at hm ⊢
    exact ⟨by omega, hm.2⟩

theorem Memory.writeByte_wfFrom (m : Memory) (lo a : Nat) (v : Byte) (h : lo ≤ a) (hm : m.wfFrom lo = true) :
    (m.writeByte a v).wfFrom lo = true := by
  induction m generalizing lo with
  | nil => simp [Memory.writeByte, Memory.wfFrom, h]
  | cons c t ih =>
    obtain ⟨k, b⟩ := c
    simp only [Memory.wfFrom, Bool.and_eq_true, decide_eq_true_eq] at hm
    simp only [Memory.writeByte]
    split
    · have : a + 1 ≤ k := by omega
      simp [Memory.wfFrom, *]
    · split
      · subst_vars; simp [Memory.wfFrom, h, hm.2]
      · simp only [Memory.wfFrom, Bool.and_eq_true, decide_eq_true_eq]
        exact ⟨hm.1, ih (k + 1) (by omega) hm.2⟩

/-- A byte write keeps the canonical form. -/
theorem Memory.writeByte_wf (m : Memory) (a : Nat) (v : Byte) (h : m.wf = true) : (m.writeByte a v).wf = true :=
  m.writeByte_wfFrom 0 a v (Nat.zero_le a) h

/-- A 16-bit write keeps the canonical form. -/
theorem Memory.write16_wf (m : Memory) (a : Nat) (v : Word) (h : m.wf = true) : (m.write16 a v).wf = true :=
  Memory.writeByte_wf _ _ _ (Memory.writeByte_wf _ _ _ h)

/-- A 32-bit write keeps the canonical form. -/
theorem Memory.write32_wf (m : Memory) (a : Nat) (v : Long) (h : m.wf = true) : (m.write32 a v).wf = true :=
  Memory.writeByte_wf _ _ _ (Memory.writeByte_wf _ _ _ (Memory.writeByte_wf _ _ _ (Memory.writeByte_wf _ _ _ h)))

/-- Reset's memories are canonical. -/
theorem State.reset_memory_wf :
    State.reset.xmem.wf = true ∧ State.reset.ymem.wf = true ∧ State.reset.imem.wf = true := by decide

/-! ## Reading a byte -/

/-- What is listed after a byte write: the byte written, and every other byte as before. -/
theorem Memory.find_writeByte (m : Memory) (a b : Nat) (v : Byte) :
    (m.writeByte a v).find b = if b = a then some v else m.find b := by
  induction m with
  | nil => simp [Memory.writeByte, Memory.find, eq_comm]
  | cons c t ih =>
    obtain ⟨k, x⟩ := c
    simp only [Memory.writeByte]
    split
    · by_cases hb : b = a
      · subst hb; simp [Memory.find]
      · simp [Memory.find, hb, Ne.symm hb]
    · split
      · subst_vars
        by_cases hb : b = k
        · subst hb; simp [Memory.find]
        · simp [Memory.find, hb, Ne.symm hb]
      · rename_i hak
        simp only [Memory.find, ih]
        by_cases hkb : k = b
        · subst hkb; simp [Ne.symm hak]
        · simp [hkb]

/-- Reading a byte after a byte write. -/
theorem Memory.readByte_writeByte (m : Memory) (sp : Space) (a b : Nat) (v : Byte) :
    (m.writeByte a v).readByte sp b = if b = a then v else m.readByte sp b := by
  simp only [Memory.readByte, Memory.find_writeByte]
  split <;> rfl

/-! ## Reading a word -/

/-- A 16-bit write leaves every byte outside its two as it was. -/
theorem Memory.readByte_write16 (m : Memory) (sp : Space) (a b : Nat) (v : Word) (hb : b ≠ 2 * a ∧ b ≠ 2 * a + 1) :
    (m.write16 a v).readByte sp b = m.readByte sp b := by
  simp only [Memory.write16, Memory.readByte_writeByte, if_neg hb.2, if_neg hb.1]

/-- A 32-bit write leaves every byte outside its four as it was. -/
theorem Memory.readByte_write32 (m : Memory) (sp : Space) (a b : Nat) (v : Long)
    (hb : b ≠ 4 * a ∧ b ≠ 4 * a + 1 ∧ b ≠ 4 * a + 2 ∧ b ≠ 4 * a + 3) :
    (m.write32 a v).readByte sp b = m.readByte sp b := by
  simp only [Memory.write32, Memory.readByte_writeByte, if_neg hb.1, if_neg hb.2.1, if_neg hb.2.2.1, if_neg hb.2.2.2]

theorem word_of_bytes (v : Word) : v.extractLsb' 8 8 ++ v.extractLsb' 0 8 = v := by
  apply BitVec.eq_of_getLsbD_eq
  intro k hk
  simp only [BitVec.getLsbD_append, BitVec.getLsbD_extractLsb']
  interval_cases k <;> simp

theorem long_of_bytes (v : Long) :
    v.extractLsb' 24 8 ++ v.extractLsb' 16 8 ++ v.extractLsb' 8 8 ++ v.extractLsb' 0 8 = v := by
  apply BitVec.eq_of_getLsbD_eq
  intro k hk
  simp only [BitVec.getLsbD_append, BitVec.getLsbD_extractLsb']
  interval_cases k <;> simp

/-- A word reads back what was written. -/
theorem Memory.read16_write16_same (m : Memory) (sp : Space) (a : Nat) (v : Word) :
    (m.write16 a v).read16 sp a = v := by
  simp only [Memory.read16, Memory.write16, Memory.readByte_writeByte, if_pos, show ¬ (2 * a = 2 * a + 1) by omega,
    if_false]
  exact word_of_bytes v

/-- Another word reads as before. -/
theorem Memory.read16_write16_of_ne (m : Memory) (sp : Space) (a b : Nat) (v : Word) (hb : b ≠ a) :
    (m.write16 a v).read16 sp b = m.read16 sp b := by
  simp only [Memory.read16]
  rw [Memory.readByte_write16 _ _ _ _ _ (by omega), Memory.readByte_write16 _ _ _ _ _ (by omega)]

/-- An instruction word reads back what was written. -/
theorem Memory.read32_write32_same (m : Memory) (sp : Space) (a : Nat) (v : Long) :
    (m.write32 a v).read32 sp a = v := by
  simp only [Memory.read32, Memory.write32, Memory.readByte_writeByte]
  simp only [if_true, Nat.add_right_inj, Nat.left_eq_add, OfNat.ofNat_ne_zero, one_ne_zero, if_false,
    show (1 : Nat) ≠ 2 by decide, show (1 : Nat) ≠ 3 by decide, show (2 : Nat) ≠ 3 by decide]
  exact long_of_bytes v

/-- Another instruction word reads as before. -/
theorem Memory.read32_write32_of_ne (m : Memory) (sp : Space) (a b : Nat) (v : Long) (hb : b ≠ a) :
    (m.write32 a v).read32 sp b = m.read32 sp b := by
  simp only [Memory.read32]
  rw [Memory.readByte_write32 _ _ _ _ _ (by omega), Memory.readByte_write32 _ _ _ _ _ (by omega),
    Memory.readByte_write32 _ _ _ _ _ (by omega), Memory.readByte_write32 _ _ _ _ _ (by omega)]

end Sys2Proof.Machine
end

