-- ==== Sys2Proof/Laws/Writes.lean ====
section
/-! SUPPORT. The writes of an instruction: what committing them leaves alone, that it keeps the memories canonical and MR0
masked, and when `commitAll` answers (00_scope.md R15, 70_reset_and_hazards.md R335). -/

namespace Sys2Proof.Machine

/-! ## Same outside a list of places -/

theorem SameOutside.refl (ps : List Place) (s : State) : SameOutside ps s s := by
  constructor <;> intros <;> rfl

theorem SameOutside.mono {ps qs : List Place} {s t : State} (h : ∀ p ∈ ps, p ∈ qs) (k : SameOutside ps s t) :
    SameOutside qs s t where
  data r hr := k.data r fun m => hr (h _ m)
  guard x hx := k.guard x fun m => hx (h _ m)
  prod hp := k.prod fun m => hp (h _ m)
  index n hn := k.index n fun m => hn (h _ m)
  lr0 hp := k.lr0 fun m => hp (h _ m)
  lr1 hp := k.lr1 fun m => hp (h _ m)
  lc hp := k.lc fun m => hp (h _ m)
  ls hp := k.ls fun m => hp (h _ m)
  le hp := k.le fun m => hp (h _ m)
  ipr0 hp := k.ipr0 fun m => hp (h _ m)
  ipr1 hp := k.ipr1 fun m => hp (h _ m)
  flags hm hf := k.flags (fun m => hm (h _ m)) fun m => hf (h _ m)
  modes hm := k.modes fun m => hm (h _ m)
  xmem b hb := k.xmem b fun a m => hb a (h _ m)
  ymem b hb := k.ymem b fun a m => hb a (h _ m)
  imem b hb := k.imem b fun a m => hb a (h _ m)
  intDisable hp := k.intDisable fun m => hp (h _ m)
  devices id hd := k.devices id fun m => hd (h _ m)

theorem SameOutside.trans {ps : List Place} {s t u : State} (h : SameOutside ps s t) (k : SameOutside ps t u) :
    SameOutside ps s u where
  data r hr := (k.data r hr).trans (h.data r hr)
  guard x hx := (k.guard x hx).trans (h.guard x hx)
  prod hp := (k.prod hp).trans (h.prod hp)
  index n hn := (k.index n hn).trans (h.index n hn)
  lr0 hp := (k.lr0 hp).trans (h.lr0 hp)
  lr1 hp := (k.lr1 hp).trans (h.lr1 hp)
  lc hp := (k.lc hp).trans (h.lc hp)
  ls hp := (k.ls hp).trans (h.ls hp)
  le hp := (k.le hp).trans (h.le hp)
  ipr0 hp := (k.ipr0 hp).trans (h.ipr0 hp)
  ipr1 hp := (k.ipr1 hp).trans (h.ipr1 hp)
  flags hm hf j hj := (k.flags hm hf j hj).trans (h.flags hm hf j hj)
  modes hm j hj hk := (k.modes hm j hj hk).trans (h.modes hm j hj hk)
  xmem b hb := (k.xmem b hb).trans (h.xmem b hb)
  ymem b hb := (k.ymem b hb).trans (h.ymem b hb)
  imem b hb := (k.imem b hb).trans (h.imem b hb)
  intDisable hp := (k.intDisable hp).trans (h.intDisable hp)
  devices id hd := (k.devices id hd).trans (h.devices id hd)

theorem SameHidden.refl (s : State) : SameHidden s s := by constructor <;> rfl

theorem SameHidden.trans {s t u : State} (h : SameHidden s t) (k : SameHidden t u) : SameHidden s u where
  prev := k.prev.trans h.prev
  prev2LoopWrite := k.prev2LoopWrite.trans h.prev2LoopWrite
  irq := k.irq.trans h.irq
  wake := k.wake.trans h.wake
  atVector := k.atVector.trans h.atVector
  plat := k.plat.trans h.plat
  events := k.events.trans h.events
  freeCount := k.freeCount.trans h.freeCount

/-- The three memories are canonical. -/
structure MemoriesWf (s : State) : Prop where
  x : s.xmem.wf = true
  y : s.ymem.wf = true
  i : s.imem.wf = true

/-! ## One write -/

/-- What one write leaves alone. -/
theorem Write.apply_sameOutside (w : Write) (s : State) : SameOutside [w.place] s (w.apply s) := by
  cases w with
  | data r v =>
    constructor <;> intros <;>
      simp_all [Write.apply, Write.place, State.data_setData_of_ne, State.seen]
  | guard x v =>
    constructor <;> intros <;>
      simp_all [Write.apply, Write.place, State.guard_setGuard_of_ne, State.seen]
  | index n v =>
    constructor <;> intros <;>
      simp_all [Write.apply, Write.place, State.index_setIndex_of_ne, State.seen]
  | flags f =>
    have hm : ∀ k, 5 ≤ k → (packFlags s.regs.mr0 f).getLsbD k = s.regs.mr0.getLsbD k := by
      intro k hk
      rw [packFlags_bit]
      repeat rw [if_neg (by omega)]
    constructor <;> intros <;> first | rfl | exact hm _ ‹_› | simp_all [Write.place]
  | mem b a v =>
    cases b
    · have hx : ∀ k, k ≠ 2 * a.toNat ∧ k ≠ 2 * a.toNat + 1 →
          (s.xmem.write16 a.toNat v).readByte .x k = s.xmem.readByte .x k :=
        fun k hk => Memory.readByte_write16 _ _ _ _ _ hk
      constructor <;> intros <;> first | rfl | exact hx _ (by simp_all [Write.place])
    · have hy : ∀ k, k ≠ 2 * a.toNat ∧ k ≠ 2 * a.toNat + 1 →
          (s.ymem.write16 a.toNat v).readByte .y k = s.ymem.readByte .y k :=
        fun k hk => Memory.readByte_write16 _ _ _ _ _ hk
      constructor <;> intros <;> first | rfl | exact hy _ (by simp_all [Write.place])
  | code a v =>
    have hi : ∀ k, k / 4 ≠ a.toNat → (s.imem.write32 a.toNat v).readByte .i k = s.imem.readByte .i k :=
      fun k hk => Memory.readByte_write32 _ _ _ _ _ (by omega)
    constructor <;> intros <;> first | rfl | exact hi _ (by simp_all [Write.place])
  | deviceRead id sp a =>
    constructor <;> intros <;> first | rfl | simp_all [Write.place, Write.apply, State.seen, seenBy, eq_comm]
  | deviceWrite id sp a v =>
    constructor <;> intros <;> first | rfl | simp_all [Write.place, Write.apply, State.seen, seenBy, eq_comm]
  | _ => constructor <;> intros <;> first | rfl | simp_all [Write.place]

/-- No write touches the hidden fields. -/
theorem Write.apply_sameHidden (w : Write) (s : State) : SameHidden s (w.apply s) := by
  cases w with
  | mem b a v => cases b <;> constructor <;> rfl
  | _ => constructor <;> simp [Write.apply]

/-- No write touches PC, the pending transfer or the halt. -/
theorem Write.apply_control (w : Write) (s : State) :
    (w.apply s).regs.pc = s.regs.pc ∧ (w.apply s).pending = s.pending ∧ (w.apply s).halted = s.halted := by
  cases w with
  | mem b a v => cases b <;> exact ⟨rfl, rfl, rfl⟩
  | _ => simp [Write.apply]

/-- Every write keeps the memories canonical. -/
theorem Write.apply_memoriesWf (w : Write) (s : State) (h : MemoriesWf s) : MemoriesWf (w.apply s) := by
  cases w with
  | mem b a v =>
    cases b
    · exact ⟨Memory.write16_wf _ _ _ h.x, h.y, h.i⟩
    · exact ⟨h.x, Memory.write16_wf _ _ _ h.y, h.i⟩
  | code a v => exact ⟨h.x, h.y, Memory.write32_wf _ _ _ h.i⟩
  | _ => exact ⟨by simpa [Write.apply] using h.x, by simpa [Write.apply] using h.y, by simpa [Write.apply] using h.i⟩

/-- Every write keeps MR0 inside its mask. -/
theorem Write.apply_mr0Masked (w : Write) (s : State) (h : s.regs.mr0 &&& ~~~mr0Mask = 0) :
    (w.apply s).regs.mr0 &&& ~~~mr0Mask = 0 := by
  cases w with
  | mem b a v => cases b <;> exact h
  | mr0 v => exact and_mask v
  | flags f => exact packFlags_mask _ f h
  | _ => simpa [Write.apply] using h

/-- L changes by a write of MR0 as a whole only (10_state.md R39). -/
theorem Write.apply_flagL (w : Write) (s : State) (h : w.place ≠ .mr0) : (w.apply s).flagL = s.flagL := by
  cases w with
  | mem b a v => cases b <;> rfl
  | mr0 v => exact absurd rfl h
  | flags f => simp only [State.flagL, Write.apply, packFlags_bit]; rfl
  | _ => simp [Write.apply, State.flagL]

/-! ## All writes of an instruction -/

@[simp] theorem commit_nil (s : State) : commit [] s = s := rfl

@[simp] theorem commit_cons (w : Write) (ws : List Write) (s : State) : commit (w :: ws) s = commit ws (w.apply s) := rfl

theorem commit_append (vs ws : List Write) (s : State) : commit (vs ++ ws) s = commit ws (commit vs s) := by
  induction vs generalizing s with
  | nil => rfl
  | cons w t ih => exact ih _

theorem commit_memoriesWf (ws : List Write) (s : State) (h : MemoriesWf s) : MemoriesWf (commit ws s) := by
  induction ws generalizing s with
  | nil => exact h
  | cons w t ih => exact ih _ (w.apply_memoriesWf s h)

/-- What the writes of an instruction leave alone: everything outside their places. -/
theorem commit_sameOutside (ws : List Write) (s : State) :
    SameOutside (ws.map Write.place) s (commit ws s) := by
  induction ws generalizing s with
  | nil => exact SameOutside.refl _ s
  | cons w t ih =>
    have h1 : SameOutside ((w :: t).map Write.place) s (w.apply s) :=
      (w.apply_sameOutside s).mono (by simp)
    have h2 : SameOutside ((w :: t).map Write.place) (w.apply s) (commit t (w.apply s)) :=
      (ih _).mono (by intro p hp; exact List.mem_cons_of_mem _ hp)
    exact h1.trans h2

theorem commit_sameHidden (ws : List Write) (s : State) : SameHidden s (commit ws s) := by
  induction ws generalizing s with
  | nil => exact SameHidden.refl s
  | cons w t ih => exact (w.apply_sameHidden s).trans (ih _)

theorem commit_control (ws : List Write) (s : State) :
    (commit ws s).regs.pc = s.regs.pc ∧ (commit ws s).pending = s.pending ∧ (commit ws s).halted = s.halted := by
  induction ws generalizing s with
  | nil => exact ⟨rfl, rfl, rfl⟩
  | cons w t ih =>
    obtain ⟨h1, h2, h3⟩ := ih (w.apply s)
    obtain ⟨k1, k2, k3⟩ := w.apply_control s
    exact ⟨h1.trans k1, h2.trans k2, h3.trans k3⟩

theorem commit_mr0Masked (ws : List Write) (s : State) (h : s.regs.mr0 &&& ~~~mr0Mask = 0) :
    (commit ws s).regs.mr0 &&& ~~~mr0Mask = 0 := by
  induction ws generalizing s with
  | nil => exact h
  | cons w t ih => exact ih _ (w.apply_mr0Masked s h)

theorem commit_flagL (ws : List Write) (s : State) (h : ∀ w ∈ ws, w.place ≠ .mr0) :
    (commit ws s).flagL = s.flagL := by
  induction ws generalizing s with
  | nil => rfl
  | cons w t ih =>
    rw [commit_cons, ih _ fun v hv => h v (List.mem_cons_of_mem _ hv), w.apply_flagL s (h w (by simp))]

/-! ## When the commitment answers -/

/-- `commitAll` answers exactly where no two writes collide. -/
theorem commitAll_ok {ws : List Write} {s t : State} :
    commitAll ws s = .ok t ↔ distinctPlaces ws = true ∧ t = commit ws s := by
  unfold commitAll
  split
  · rename_i h
    exact ⟨fun k => ⟨h, by cases k; rfl⟩, fun ⟨_, k⟩ => by rw [k]⟩
  · rename_i h
    exact ⟨fun k => (by cases k), fun ⟨k, _⟩ => absurd k h⟩

/-- A meaning answers a next state exactly where its computation does. -/
theorem finish_next {e : Except Stop State} {t : State} : finish e = .next t ↔ e = .ok t := by
  cases e with
  | ok s => exact ⟨fun h => by cases h; rfl, fun h => by cases h; rfl⟩
  | error x => cases x <;> exact ⟨fun h => (by cases h), fun h => (by cases h)⟩

theorem bind_ok {α β : Type} {e : Except Stop α} {f : α → Except Stop β} {b : β} :
    (e >>= f) = .ok b ↔ ∃ a, e = .ok a ∧ f a = .ok b := by
  cases e with
  | ok a => exact ⟨fun h => ⟨a, rfl, h⟩, fun ⟨_, h, k⟩ => by cases h; exact k⟩
  | error x => exact ⟨fun h => (by cases h), fun ⟨_, h, _⟩ => (by cases h)⟩

theorem distinctPlaces_cons {w : Write} {t : List Write} :
    distinctPlaces (w :: t) = true ↔ (∀ v ∈ t, v.place ≠ w.place) ∧ distinctPlaces t = true := by
  simp [distinctPlaces]

/-- The writes of two parts do not collide exactly where neither part's do and no place is shared. -/
theorem distinctPlaces_append {vs ws : List Write} :
    distinctPlaces (vs ++ ws) = true ↔
      distinctPlaces vs = true ∧ distinctPlaces ws = true ∧ ∀ v ∈ vs, ∀ w ∈ ws, w.place ≠ v.place := by
  induction vs with
  | nil => simp [distinctPlaces]
  | cons v t ih =>
    rw [List.cons_append, distinctPlaces_cons, distinctPlaces_cons, ih]
    constructor
    · rintro ⟨h1, h2, h3, h4⟩
      refine ⟨⟨fun u hu => h1 u (List.mem_append_left _ hu), h2⟩, h3, ?_⟩
      intro u hu w hw
      rcases List.mem_cons.mp hu with rfl | hu
      · exact h1 w (List.mem_append_right _ hw)
      · exact h4 u hu w hw
    · rintro ⟨⟨h1, h2⟩, h3, h4⟩
      refine ⟨?_, h2, h3, fun u hu w hw => h4 u (List.mem_cons_of_mem _ hu) w hw⟩
      intro u hu
      rcases List.mem_append.mp hu with hu | hu
      · exact h1 u hu
      · exact h4 v (by simp) u hu

/-- `noClash` says that the moves' writes collide neither among themselves nor with the places `ps`. -/
theorem noClash_iff {ps : List Place} {ws : List Write} :
    noClash ps ws = true ↔ distinctPlaces ws = true ∧ ∀ w ∈ ws, w.place ∉ ps := by
  simp [noClash]

/-- An instruction with a parallel move answers exactly where both parts do and nothing collides; then all writes are
made, the move's last. -/
theorem runWith_next {ws : Except Stop (List Write)} {m : ParMove} {s t : State} :
    runWith ws m s = .next t ↔
      ∃ a b, ws = .ok a ∧ parWrites s m = .ok b ∧ distinctPlaces (a ++ b) = true ∧ t = commit (a ++ b) s := by
  simp only [runWith, finish_next, bind_ok, commitAll_ok]
  constructor
  · rintro ⟨a, ha, b, hb, h⟩
    exact ⟨a, b, ha, hb, h⟩
  · rintro ⟨a, b, ha, hb, h⟩
    exact ⟨a, ha, b, hb, h⟩

/-- A move alone answers exactly where its writes are found and do not collide. -/
theorem runMove_next {ws : Except Stop (List Write)} {s t : State} :
    runMove ws s = .next t ↔ ∃ a, ws = .ok a ∧ distinctPlaces a = true ∧ t = commit a s := by
  simp only [runMove, finish_next, bind_ok, commitAll_ok]

end Sys2Proof.Machine
end

