-- ==== Sys2Proof/Laws/Moves.lean ====
section
/-! SUPPORT. The shared operations of the moves: what their writes are, where they go, and when they are found
(20_memory.md R68, R69; 42_moves.md R206 to R235). -/

namespace Sys2Proof.Machine

/-! ## Register writes -/

theorem writeData16_places (r : DataReg) (v : Word) :
    (writeData16 r v).map Write.place = targetPlaces (.data r) := by
  cases r <;> rfl

theorem writeAcc40_places (x : AccName) (v : Wide) : (writeAcc40 x v).map Write.place = accPlaces x := rfl

/-- The most significant bit is the sign. -/
theorem msb_eq_toInt_neg {w : Nat} (v : BitVec w) : v.msb = decide (v.toInt < 0) := by
  rw [BitVec.msb_eq_toInt]

/-- A 16-bit write of A0 .. D1 with its sign extension (10_state.md R23). -/
theorem commit_writeData16 (r : DataReg) (v : Word) (s : State) : commit (writeData16 r v) s = putData s r v := by
  unfold writeData16 putData
  cases h : r.wideAcc with
  | none => rfl
  | some x => simp [Write.apply, msb_eq_toInt_neg]

/-- A 40-bit write of an accumulator (R24). -/
theorem commit_writeAcc40 (x : AccName) (v : Wide) (s : State) : commit (writeAcc40 x v) s = putAcc s x v := rfl

/-- The places of a register write are the register's. -/
theorem wrreg_places {s : State} {v : Word} {r : MoveReg} {ws : List Write} (h : wrreg s v r = .ok ws) :
    ws.map Write.place = targetPlaces r := by
  cases r with
  | data d => cases h; exact writeData16_places d v
  | ipr0 =>
    simp only [wrreg] at h
    split at h
    · cases h; rfl
    · cases h
  | _ => cases h; rfl

/-- What a register write does, where IPR0 is the one of the state it was computed in. -/
theorem commit_wrreg {s t : State} {v : Word} {r : MoveReg} {ws : List Write} (h : wrreg s v r = .ok ws)
    (hp : t.regs.ipr0 = s.regs.ipr0) : commit ws t = putReg t r v := by
  cases r with
  | data d => cases h; exact commit_writeData16 d v t
  | ipr0 =>
    simp only [wrreg] at h
    split at h
    · rename_i hv
      cases h
      show { t with regs.ipr0 := v } = t
      rw [hv, ← hp]
    · cases h
  | _ => cases h; rfl

/-- Only IPR0 refuses a value: any but the one it holds (C14). -/
theorem wrreg_ok (s : State) (v : Word) (r : MoveReg) :
    (∃ ws, wrreg s v r = .ok ws) ↔ (r = .ipr0 → v = s.regs.ipr0) := by
  cases r with
  | ipr0 =>
    by_cases hv : v = s.regs.ipr0 <;> simp [wrreg, hv]
  | _ => simp [wrreg]

/-! ## Memory accesses -/

/-- A load answers where anything stands at the address: the word of RAM or ROM, an unspecified word from INT_GLOB_EN,
a device's answer. -/
theorem loadWord_ok {s : State} {b : Bus} {a : Long} {v : Word} (h : loadWord s b a = .ok v) :
    ∃ k, s.kind b a = some k ∧
      v = match k with
        | .ram | .rom => s.word b a
        | .intGlobEn => Config.freeRead s.freeCount (busIsY b)
        | .device id => (deviceAnswer s id (busSpace b) a).extractLsb' 0 16 := by
  unfold loadWord at h
  cases hk : s.kind b a with
  | none => rw [hk] at h; cases h
  | some k =>
    rw [hk] at h
    refine ⟨k, rfl, ?_⟩
    cases k <;> cases h <;> rfl

/-- A store answers at RAM, at INT_GLOB_EN and at another device. -/
theorem storeWord_ok {s : State} {b : Bus} {a : Long} {v : Word} {ws : List Write}
    (h : storeWord s b a v = .ok ws) :
    (s.kind b a = some .ram ∧ ws = [.mem b a v]) ∨ (∃ id, s.kind b a = some (.device id) ∧
        ws = [.deviceWrite id (busSpace b) a (v.zeroExtend 32)]) ∨
      (s.kind b a = some .intGlobEn ∧ ws = [.mem b a v, .intEnable]) := by
  unfold storeWord at h
  cases hk : s.kind b a with
  | none => rw [hk] at h; cases h
  | some k =>
    rw [hk] at h
    cases k with
    | ram => cases h; exact .inl ⟨rfl, rfl⟩
    | rom => cases h
    | device id => cases h; exact .inr (.inl ⟨id, rfl, rfl⟩)
    | intGlobEn => cases h; exact .inr (.inr ⟨rfl, rfl⟩)

theorem storeWord_places {s : State} {b : Bus} {a : Long} {v : Word} {ws : List Write} (r : MoveReg)
    (h : storeWord s b a v = .ok ws) : ∀ w ∈ ws, w.place ∈ accessPlaces s b a true r := by
  rcases storeWord_ok h with ⟨hk, rfl⟩ | ⟨id, hk, rfl⟩ | ⟨hk, rfl⟩ <;>
    simp [accessPlaces, storePlaces, hk, Write.place]

/-- A read is seen by the device read, and by nothing else (R69). -/
theorem readNotice_places (s : State) (b : Bus) (a : Long) :
    (readNotice s b a).map Write.place = noticePlaces (s.kind b a) := by
  unfold readNotice noticePlaces
  split <;> simp [*, Write.place]

/-- What a read does beside the value it gives. -/
theorem commit_readNotice (s : State) (b : Bus) (a : Long) : commit (readNotice s b a) s = afterRead s b a := by
  unfold readNotice afterRead
  split <;> simp [*, Write.apply]

/-- A store to the I space answers at RAM and at a device. -/
theorem storeCode_ok {s : State} {a v : Long} {ws : List Write} (h : storeCode s a v = .ok ws) :
    (s.codeKind a = some .ram ∧ ws = [.code a v]) ∨
      ∃ id, s.codeKind a = some (.device id) ∧ ws = [.deviceWrite id .i a v] := by
  unfold storeCode at h
  split at h <;> cases h
  · exact .inl ⟨‹_›, rfl⟩
  · exact .inr ⟨_, ‹_›, rfl⟩

/-- A load from the I space answers where anything stands: the word, or a device's answer. -/
theorem loadCode_ok {s : State} {a v : Long} (h : loadCode s a = .ok v) :
    ∃ k, s.codeKind a = some k ∧
      v = match k with
        | .ram | .rom => s.codeWord a
        | .device id => deviceAnswer s id .i a := by
  unfold loadCode at h
  cases hk : s.codeKind a with
  | none => rw [hk] at h; cases h
  | some k =>
    rw [hk] at h
    refine ⟨k, rfl, ?_⟩
    cases k <;> cases h <;> rfl

/-- LDI's read is seen by the device read, and by nothing else. -/
theorem commit_codeReadNotice (s : State) (a : Long) : commit (codeReadNotice s a) s = afterCodeRead s a := by
  unfold codeReadNotice afterCodeRead
  split <;> simp [*, Write.apply]

/-! ## Post-modification -/

/-- A post-modification writes the index register, or nothing for the amount 0 (R206). -/
theorem postWrites_ok {s : State} {b : Bus} {n : IndexReg} {p : PostMod} {ws : List Write}
    (h : postWrites s b n p = .ok ws) :
    (p = .amount 0 ∧ ws = []) ∨ (p ≠ .amount 0 ∧ ∃ v, nextIndex s b n p = .ok v ∧ ws = [.index n v]) := by
  cases p with
  | amount k =>
    simp only [postWrites, Except.ok.injEq] at h
    split at h
    · rename_i hk
      subst hk
      exact .inl ⟨rfl, h.symm⟩
    · rename_i hk
      exact .inr ⟨fun e => hk (by cases e; rfl), _, rfl, h.symm⟩
  | star =>
    obtain ⟨v, hv, hw⟩ := bind_ok.mp h
    cases hw
    exact .inr ⟨(by intro e; cases e), v, hv, rfl⟩

theorem postWrites_places {s : State} {b : Bus} {n : IndexReg} {p : PostMod} {ws : List Write}
    (h : postWrites s b n p = .ok ws) : ws.map Write.place = postPlaces n p := by
  rcases postWrites_ok h with ⟨rfl, rfl⟩ | ⟨hp, v, -, rfl⟩
  · rfl
  · cases p with
    | amount k =>
      have hk : k ≠ 0 := fun e => hp (by rw [e])
      simp [postPlaces, hk, Write.place]
    | star => rfl

/-! ## Moves -/

theorem transfer_places {s : State} {b : Bus} {a : Long} {store : Bool} {r : MoveReg} {ws : List Write}
    (h : transfer s b a store r = .ok ws) : ∀ w ∈ ws, w.place ∈ accessPlaces s b a store r := by
  unfold transfer at h
  cases store with
  | true => exact storeWord_places r h
  | false =>
    obtain ⟨v, -, h⟩ := bind_ok.mp h
    obtain ⟨us, hw, h⟩ := bind_ok.mp h
    cases h
    intro w hw'
    rw [accessPlaces, if_neg (by simp), ← wrreg_places hw, ← readNotice_places, ← List.map_append]
    exact List.mem_map_of_mem hw'

/-- A full move, taken apart (R220): void, or an access at In and a post-modification. -/
theorem fullWrites_ok {s : State} {b : Bus} {f : FullMove} {ws : List Write} (h : fullWrites s b f = .ok ws) :
    (f.isVoid = true ∧ ws = []) ∨
      (f.isVoid = false ∧ ∃ us ps, transfer s b ((s.index f.n).zeroExtend 32) f.store f.r = .ok us ∧
        postWrites s b f.n f.p = .ok ps ∧ ws = us ++ ps) := by
  unfold fullWrites at h
  split at h
  · cases h; exact .inl ⟨‹_›, rfl⟩
  · obtain ⟨us, hu, h⟩ := bind_ok.mp h
    obtain ⟨ps, hp, h⟩ := bind_ok.mp h
    cases h
    exact .inr ⟨by simp_all, us, ps, hu, hp, rfl⟩

theorem fullWrites_places {s : State} {b : Bus} {f : FullMove} {ws : List Write} (h : fullWrites s b f = .ok ws) :
    ∀ w ∈ ws, w.place ∈ fullPlaces s b f := by
  rcases fullWrites_ok h with ⟨hv, rfl⟩ | ⟨hv, us, ps, hu, hp, rfl⟩
  · simp
  · intro w hw
    rw [fullPlaces, hv, if_neg (by simp), List.mem_append]
    rcases List.mem_append.mp hw with hw | hw
    · exact .inl (transfer_places hu w hw)
    · exact .inr (postWrites_places hp ▸ List.mem_map_of_mem hw)

/-- Two moves, taken apart (R223, R225). -/
theorem twoWrites_ok {s : State} {x y : FullMove} {ws : List Write} (h : twoWrites s x y = .ok ws) :
    ∃ us vs, fullWrites s .x x = .ok us ∧ fullWrites s .y y = .ok vs ∧ ws = us ++ vs := by
  unfold twoWrites at h
  simp only at h
  split at h
  · cases h
  · obtain ⟨us, hu, h⟩ := bind_ok.mp h
    obtain ⟨vs, hv, h⟩ := bind_ok.mp h
    cases h
    exact ⟨us, vs, hu, hv, rfl⟩

theorem twoWrites_places {s : State} {x y : FullMove} {ws : List Write} (h : twoWrites s x y = .ok ws) :
    ∀ w ∈ ws, w.place ∈ fullPlaces s .x x ++ fullPlaces s .y y := by
  obtain ⟨us, vs, hu, hv, rfl⟩ := twoWrites_ok h
  intro w hw
  rcases List.mem_append.mp hw with hw | hw
  · exact List.mem_append_left _ (fullWrites_places hu w hw)
  · exact List.mem_append_right _ (fullWrites_places hv w hw)

/-- A register move, taken apart (R230). -/
theorem moveWrites_ok {s : State} {src dst : MoveReg} {ws : List Write} (h : moveWrites s src dst = .ok ws) :
    (dst = .nop ∧ ws = []) ∨ (dst ≠ .nop ∧ src ≠ .nop ∧ wrreg s (rdreg s src) dst = .ok ws) := by
  unfold moveWrites at h
  split at h
  · cases h; exact .inl ⟨‹_›, rfl⟩
  · split at h
    · cases h
    · exact .inr ⟨‹_›, ‹_›, h⟩

theorem moveWrites_places {s : State} {src dst : MoveReg} {ws : List Write} (h : moveWrites s src dst = .ok ws) :
    ws.map Write.place = targetPlaces dst := by
  rcases moveWrites_ok h with ⟨rfl, rfl⟩ | ⟨-, -, h⟩
  · rfl
  · exact wrreg_places h

theorem longWrites_places {s : State} {store : Bool} {n : IndexReg} {r : MoveReg} {ws : List Write}
    (h : longWrites s store n r = .ok ws) : ∀ w ∈ ws, w.place ∈ movePlaces s (.longX store n r) := by
  unfold longWrites at h
  unfold movePlaces
  split at h
  · cases h; simp
  · rename_i hr
    simpa [hr] using transfer_places h

/-- The access of LDI or STI, taken apart. -/
theorem ibusAccess_ok {s : State} {store : Bool} {a : Long} {x : AccName} {ws : List Write}
    (h : ibusAccess s store a x = .ok ws) :
    (store = true ∧ storeCode s a (s.data (accHi x) ++ s.data (accLo x)) = .ok ws) ∨
      (store = false ∧ ∃ v, loadCode s a = .ok v ∧ ws = writeAcc40 x (v.signExtend 40) ++ codeReadNotice s a) := by
  cases store with
  | true => exact .inl ⟨rfl, h⟩
  | false =>
    obtain ⟨v, hv, hw⟩ := bind_ok.mp h
    cases hw
    exact .inr ⟨rfl, v, hv, rfl⟩

/-- The writes of that access go to its places. -/
theorem ibusAccess_places {s : State} {store : Bool} {a : Long} {x : AccName} {ws : List Write}
    (h : ibusAccess s store a x = .ok ws) : ∀ w ∈ ws, w.place ∈ ibusPlaces store a x (s.codeKind a) := by
  intro w hw
  rcases ibusAccess_ok h with ⟨rfl, h⟩ | ⟨rfl, v, hv, rfl⟩
  · rcases storeCode_ok h with ⟨hk, rfl⟩ | ⟨id, hk, rfl⟩ <;>
      (rw [List.mem_singleton] at hw; subst hw; simp [ibusPlaces, hk, Write.place])
  · obtain ⟨k, hk, -⟩ := loadCode_ok hv
    have hp : (writeAcc40 x (v.signExtend 40)).map Write.place = accPlaces x := rfl
    rcases List.mem_append.mp hw with hw | hw
    · have := List.mem_map_of_mem (f := Write.place) hw
      rw [hp] at this
      cases k <;> simp_all [ibusPlaces]
    · cases k <;> simp_all [ibusPlaces, codeReadNotice, Write.place]

/-- LDI and STI, taken apart (R235): page zero, the access, the post-modification. -/
theorem ibusWrites_ok {s : State} {store : Bool} {n : IndexReg} {p : PostMod} {x : AccName} {ws : List Write}
    (h : ibusWrites s store n p x = .ok ws) :
    s.regs.ipr0 = 0 ∧ ∃ us ps, ibusAccess s store ((s.index n).zeroExtend 32) x = .ok us ∧
      postWrites s .x n p = .ok ps ∧ ws = us ++ ps := by
  unfold ibusWrites at h
  split at h
  · cases h
  · rename_i hp
    obtain ⟨us, hu, h⟩ := bind_ok.mp h
    obtain ⟨ps, hs, h⟩ := bind_ok.mp h
    cases h
    exact ⟨by simpa using hp, us, ps, hu, hs, rfl⟩

theorem ibusWrites_places {s : State} {store : Bool} {n : IndexReg} {p : PostMod} {x : AccName} {ws : List Write}
    (h : ibusWrites s store n p x = .ok ws) : ∀ w ∈ ws, w.place ∈ movePlaces s (.ibus store n p x) := by
  obtain ⟨-, us, ps, hu, hp, rfl⟩ := ibusWrites_ok h
  intro w hw
  rw [movePlaces, List.mem_append]
  rcases List.mem_append.mp hw with hw | hw
  · exact .inl (ibusAccess_places hu w hw)
  · exact .inr (postWrites_places hp ▸ List.mem_map_of_mem hw)

/-- Every write of a parallel move field goes to one of the field's places. -/
theorem parWrites_places {s : State} {m : ParMove} {ws : List Write} (h : parWrites s m = .ok ws) :
    ∀ w ∈ ws, w.place ∈ movePlaces s m := by
  cases m with
  | full b f => exact fullWrites_places h
  | short x y => exact twoWrites_places h
  | mv src dst =>
    intro w hw
    have hp : ws.map Write.place = targetPlaces dst := moveWrites_places h
    rw [movePlaces, ← hp]
    exact List.mem_map_of_mem hw
  | longX store n r => exact longWrites_places h
  | ibus store n p x => exact ibusWrites_places h

/-! ## Execution units (R231) -/

/-- The test of the double register move is the rule's. -/
theorem sameUnit_iff {src dst : MoveReg} : sameUnit src dst = true ↔ StaysInUnit src dst := by
  cases src <;> cases dst <;> simp [sameUnit, unitOf, StaysInUnit, InAlu, InDag, InPcu]

end Sys2Proof.Machine
end

