-- ==== Sys2Proof/Laws/Meanings.lean ====
section
/-! SUPPORT. When an instruction with a parallel move completes, and what it then leaves: the shared shape of the ALU and
multiplier meanings (40_alu.md R133, R134, R161; 41_multiplier.md R184). -/

namespace Sys2Proof.Machine

/-! ## A parallel move never writes the flags or P -/

theorem targetPlaces_plain {r : MoveReg} {p : Place} (h : p ∈ targetPlaces r) : p ≠ .flags ∧ p ≠ .prod := by
  cases r with
  | data d => cases d <;> simp_all [targetPlaces, DataReg.wideAcc] <;> (rcases h with rfl | rfl <;> simp)
  | null => simp [targetPlaces] at h
  | nop => simp [targetPlaces] at h
  | _ => simp_all [targetPlaces]

theorem accessPlaces_plain {s : State} {b : Bus} {a : Long} {store : Bool} {r : MoveReg} {p : Place}
    (h : p ∈ accessPlaces s b a store r) : p ≠ .flags ∧ p ≠ .prod := by
  unfold accessPlaces at h
  split at h
  · unfold storePlaces at h
    split at h <;> simp at h <;> first | (subst h; simp) | (rcases h with rfl | rfl <;> simp)
  · rcases List.mem_append.mp h with h | h
    · exact targetPlaces_plain h
    · unfold noticePlaces at h
      split at h <;> simp at h
      subst h; simp

theorem postPlaces_plain {n : IndexReg} {q : PostMod} {p : Place} (h : p ∈ postPlaces n q) : p ≠ .flags ∧ p ≠ .prod := by
  cases q with
  | amount k =>
    simp only [postPlaces] at h
    split at h
    · simp at h
    · simp at h; subst h; simp
  | star => simp [postPlaces] at h; subst h; simp

theorem fullPlaces_plain {s : State} {b : Bus} {f : FullMove} {p : Place} (h : p ∈ fullPlaces s b f) :
    p ≠ .flags ∧ p ≠ .prod := by
  unfold fullPlaces at h
  split at h
  · simp at h
  · rcases List.mem_append.mp h with h | h
    · exact accessPlaces_plain h
    · exact postPlaces_plain h

/-- No move writes the arithmetic flags (they are MR0's, written as a whole) or P (41_multiplier.md R192). -/
theorem movePlaces_plain {s : State} {m : ParMove} {p : Place} (h : p ∈ movePlaces s m) : p ≠ .flags ∧ p ≠ .prod := by
  cases m with
  | full b f => exact fullPlaces_plain h
  | short x y =>
    rcases List.mem_append.mp h with h | h
    · exact fullPlaces_plain h
    · exact fullPlaces_plain h
  | mv src dst => exact targetPlaces_plain h
  | longX store n r =>
    simp only [movePlaces] at h
    split at h
    · simp at h
    · exact accessPlaces_plain h
  | ibus store n q x =>
    rcases List.mem_append.mp h with h | h
    · unfold ibusPlaces at h
      split at h <;> cases store <;> simp [accPlaces] at h <;>
        first | (subst h; simp) | (rcases h with rfl | rfl | rfl | rfl <;> simp)
    · exact postPlaces_plain h

/-! ## The shape of a completing instruction -/

/-- An operation whose writes are `a`, on places `ps` and the flags and P, completes beside any move that does not clash
with `ps`: its own writes first, then the move's. -/
theorem runWith_completes {a mw : List Write} {m : ParMove} {s : State} {ps : List Place}
    (hm : parWrites s m = .ok mw) (hd : distinctPlaces a = true)
    (ha : ∀ w ∈ a, w.place ∈ ps ∨ w.place = .flags ∨ w.place = .prod) (hc : noClash ps mw = true) :
    runWith (.ok a) m s = .next (commit mw (commit a s)) := by
  rw [runWith_next]
  refine ⟨a, mw, rfl, hm, ?_, (commit_append a mw s).symm⟩
  obtain ⟨h1, h2⟩ := noClash_iff.mp hc
  rw [distinctPlaces_append]
  refine ⟨hd, h1, fun v hv w hw e => ?_⟩
  have hp := movePlaces_plain (parWrites_places hm w hw)
  rcases ha v hv with h | h | h
  · exact h2 w hw (e ▸ h)
  · exact hp.1 (e.trans h)
  · exact hp.2 (e.trans h)

/-- A clash stops an instruction with a parallel move (70_reset_and_hazards.md R335). -/
theorem runWith_clash {a mw : List Write} {m : ParMove} {s : State} (hm : parWrites s m = .ok mw)
    (hd : distinctPlaces (a ++ mw) = false) : runWith (.ok a) m s = .fault .doubleWrite := by
  simp [runWith, hm, commitAll, hd, finish, bind, Except.bind]

/-- A stop of the operation itself is the instruction's, whatever the move. -/
theorem runWith_error {e : Stop} {m : ParMove} {s : State} : runWith (.error e) m s = finish (.error e) := rfl

/-- The writes of a 16-bit result. -/
theorem commit_result16 (dst : DataReg) (o : AluOut 16) (s : State) :
    commit (result16 dst o) s = putFlags (putData s dst o.r) (flagsOf o) := by
  rw [result16, commit_append, commit_writeData16]
  rfl

theorem result16_distinct (dst : DataReg) (o : AluOut 16) : distinctPlaces (result16 dst o) = true := by
  cases dst <;> rfl

theorem result16_places (dst : DataReg) (o : AluOut 16) :
    ∀ w ∈ result16 dst o, w.place ∈ result16Places dst ∨ w.place = .flags ∨ w.place = .prod := by
  intro w hw
  rcases List.mem_append.mp hw with h | h
  · left
    rw [result16Places, ← writeData16_places dst o.r]
    exact List.mem_map_of_mem h
  · simp at h; subst h; exact .inr (.inl rfl)

/-- The writes of a 40-bit result. -/
theorem commit_result40 (x : AccName) (o : AluOut 40) (s : State) :
    commit (writeAcc40 x o.r ++ [.flags (flagsOf o)]) s = putFlags (putAcc s x o.r) (flagsOf o) := by
  rw [commit_append, commit_writeAcc40]
  rfl

theorem result40_distinct (x : AccName) (r : Wide) (f : Flags) :
    distinctPlaces (writeAcc40 x r ++ [.flags f]) = true := by
  cases x <;> rfl

theorem result40_places (x : AccName) (r : Wide) (f : Flags) :
    ∀ w ∈ writeAcc40 x r ++ [.flags f], w.place ∈ accPlaces x ∨ w.place = .flags ∨ w.place = .prod := by
  intro w hw
  rcases List.mem_append.mp hw with h | h
  · left
    rw [← writeAcc40_places x r]
    exact List.mem_map_of_mem h
  · simp at h; subst h; exact .inr (.inl rfl)

/-- An operation with a 16-bit result completes. -/
theorem runWith_result16 {dst : DataReg} {o : AluOut 16} {m : ParMove} {s : State} {mw : List Write}
    (hm : parWrites s m = .ok mw) (hc : noClash (result16Places dst) mw = true) :
    runWith (.ok (result16 dst o)) m s = .next (commit mw (putFlags (putData s dst o.r) (flagsOf o))) := by
  rw [runWith_completes hm (result16_distinct dst o) (result16_places dst o) hc, commit_result16]

/-- An operation with a 40-bit result completes. -/
theorem runWith_result40 {dst : DataReg} {x : AccName} {o : AluOut 40} {m : ParMove} {s : State} {mw : List Write}
    (hx : dst.wideAcc = some x) (hm : parWrites s m = .ok mw) (hc : noClash (accPlaces x) mw = true) :
    runWith (result40 dst o) m s = .next (commit mw (putFlags (putAcc s x o.r) (flagsOf o))) := by
  have h : result40 dst o = .ok (writeAcc40 x o.r ++ [.flags (flagsOf o)]) := by simp [result40, hx]
  rw [h, runWith_completes hm (result40_distinct x _ _) (result40_places x _ _) hc, commit_result40]

/-! ## Which writes a two-operand or single-operand operation makes -/

theorem alu2_narrow {f : (w : Nat) → BitVec w → BitVec w → AluOut w} {op1 op2 : AluOp} {dst : DataReg} {s : State}
    (h1 : op1.isWide = false) (h2 : op2.isWide = false) :
    alu2 f op1 op2 dst s = .ok (result16 dst (f 16 (val16 s op1) (val16 s op2))) := by
  have : op1 ≠ .p := fun e => by simp [e, AluOp.isWide] at h1
  simp [alu2, this, h1, h2]

theorem alu2_wide {f : (w : Nat) → BitVec w → BitVec w → AluOut w} {op1 op2 : AluOp} {dst : DataReg} {s : State}
    (hp : op1 ≠ .p) (h : (op1.isWide || op2.isWide) = true) :
    alu2 f op1 op2 dst s = result40 dst (f 40 (val40 s op1) (val40 s op2)) := by
  simp [alu2, hp, h]

theorem alu1_narrow {f : (w : Nat) → BitVec w → AluOut w} {op2 : AluOp} {dst : DataReg} {s : State}
    (h : op2.isWide = false) : alu1 f op2 dst s = .ok (result16 dst (f 16 (val16 s op2))) := by
  simp [alu1, h]

theorem alu1_wide {f : (w : Nat) → BitVec w → AluOut w} {op2 : AluOp} {dst : DataReg} {s : State}
    (h : op2.isWide = true) : alu1 f op2 dst s = result40 dst (f 40 (val40 s op2)) := by
  simp [alu1, h]

end Sys2Proof.Machine
end

