-- ==== Sys2Proof/Laws/Exec.lean ====
section
/-! SUPPORT. Everything a meaning can do, said once: outside control flow and HALT a completed instruction has committed
writes to its own places (`touches`), and nothing else (00_scope.md R15). -/

namespace Sys2Proof.Machine

/-! ## The places of the operations' writes -/

theorem result16_touches {dst : DataReg} {o : AluOut 16} :
    ∀ w ∈ result16 dst o, w.place ∈ Place.flags :: resultPlaces false dst := by
  intro w hw
  rcases List.mem_append.mp hw with h | h
  · have := List.mem_map_of_mem (f := Write.place) h
    rw [writeData16_places] at this
    exact List.mem_cons_of_mem _ this
  · simp at h; subst h; exact List.mem_cons_self

theorem acc_touches {x : AccName} {dst : DataReg} {v : Wide} (hx : dst.wideAcc = some x) :
    ∀ w ∈ writeAcc40 x v, w.place ∈ resultPlaces true dst := by
  intro w hw
  have := List.mem_map_of_mem (f := Write.place) hw
  rw [writeAcc40_places] at this
  simpa [resultPlaces, hx] using this

theorem result40_touches {dst : DataReg} {o : AluOut 40} {ws : List Write} (h : result40 dst o = .ok ws) :
    ∀ w ∈ ws, w.place ∈ Place.flags :: resultPlaces true dst := by
  unfold result40 at h
  split at h
  · rename_i x hx
    cases h
    intro w hw
    rcases List.mem_append.mp hw with h | h
    · exact List.mem_cons_of_mem _ (acc_touches hx w h)
    · simp at h; subst h; exact List.mem_cons_self
  · cases h

theorem alu2_touches {f : (w : Nat) → BitVec w → BitVec w → AluOut w} {op1 op2 : AluOp} {dst : DataReg} {s : State}
    {ws : List Write} (h : alu2 f op1 op2 dst s = .ok ws) :
    ∀ w ∈ ws, w.place ∈ Place.flags :: resultPlaces (op1.isWide || op2.isWide) dst := by
  unfold alu2 at h
  split at h
  · cases h
  · split at h
    · rename_i hw; rw [hw]; exact result40_touches h
    · rename_i hw; cases h; rw [Bool.eq_false_iff.mpr hw]; exact result16_touches

theorem alu1_touches {f : (w : Nat) → BitVec w → AluOut w} {op2 : AluOp} {dst : DataReg} {s : State}
    {ws : List Write} (h : alu1 f op2 dst s = .ok ws) :
    ∀ w ∈ ws, w.place ∈ Place.flags :: resultPlaces op2.isWide dst := by
  unfold alu1 at h
  split at h
  · rename_i hw; rw [hw]; exact result40_touches h
  · rename_i hw; cases h; rw [Bool.eq_false_iff.mpr hw]; exact result16_touches

theorem ashlWrites_touches {op1 op2 : AluOp} {dst : DataReg} {s : State} {ws : List Write}
    (h : ashlWrites op1 op2 dst s = .ok ws) : ∀ w ∈ ws, w.place ∈ Place.flags :: resultPlaces op1.isWide dst := by
  unfold ashlWrites at h
  split at h
  · cases h
  · split at h
    · cases h
    · simp only at h
      split at h
      · rename_i hw; rw [hw]; exact result40_touches h
      · rename_i hw; cases h; rw [Bool.eq_false_iff.mpr hw]; exact result16_touches

theorem macWrites_touches {f : (w : Nat) → BitVec w → BitVec w → AluOut w} {mode : MulMode} {op1 op2 dst : DataReg}
    {s : State} {ws : List Write} (h : macWrites f mode op1 op2 dst s = .ok ws) :
    ∀ w ∈ ws, w.place ∈ Place.flags :: Place.prod :: resultPlaces true dst := by
  unfold macWrites at h
  split at h
  · rename_i x hx
    cases h
    intro w hw
    rcases List.mem_append.mp hw with h | h
    · exact List.mem_cons_of_mem _ (List.mem_cons_of_mem _ (acc_touches hx w h))
    · simp at h; rcases h with rfl | rfl <;> simp [Write.place]
  · cases h

theorem expWrites_touches {op2 : AluOp} {dst : DataReg} {s : State} :
    ∀ w ∈ expWrites op2 dst s, w.place ∈ Place.flags :: result16Places dst := by
  intro w hw
  rcases List.mem_append.mp hw with h | h
  · have := List.mem_map_of_mem (f := Write.place) h
    rw [writeData16_places] at this
    exact List.mem_cons_of_mem _ this
  · simp at h; subst h; exact List.mem_cons_self

theorem satWrites_touches {op2 : AluOp} {dst : DataReg} {s : State} {ws : List Write}
    (h : satWrites op2 dst s = .ok ws) : ∀ w ∈ ws, w.place ∈ Place.flags :: resultPlaces true dst := by
  unfold satWrites at h
  split at h
  · split at h
    · rename_i x hx
      cases h
      intro w hw
      rcases List.mem_append.mp hw with h | h
      · exact List.mem_cons_of_mem _ (acc_touches hx w h)
      · simp at h; subst h; exact List.mem_cons_self
    · cases h
  · cases h

theorem rndWrites_touches {op2 : AluOp} {dst : DataReg} {s : State} {ws : List Write}
    (h : rndWrites op2 dst s = .ok ws) : ∀ w ∈ ws, w.place ∈ Place.flags :: result16Places dst := by
  unfold rndWrites at h
  split at h
  · cases h
    intro w hw
    rcases List.mem_append.mp hw with h | h
    · have := List.mem_map_of_mem (f := Write.place) h
      rw [writeData16_places] at this
      exact List.mem_cons_of_mem _ this
    · simp at h; subst h; exact List.mem_cons_self
  · cases h

/-! ## The places of an instruction's writes -/

/-- Writes to the places `ps`, committed to `s`. -/
def Commits (ps : List Place) (s t : State) : Prop := ∃ ws, t = commit ws s ∧ ∀ w ∈ ws, w.place ∈ ps

theorem runWith_commits {e : Except Stop (List Write)} {m : ParMove} {s t : State} {ps : List Place}
    (h : runWith e m s = .next t) (he : ∀ ws, e = .ok ws → ∀ w ∈ ws, w.place ∈ ps) :
    Commits (ps ++ movePlaces s m) s t := by
  obtain ⟨a, b, ha, hb, -, rfl⟩ := runWith_next.mp h
  refine ⟨_, rfl, fun w hw => ?_⟩
  rcases List.mem_append.mp hw with h | h
  · exact List.mem_append_left _ (he a ha w h)
  · exact List.mem_append_right _ (parWrites_places hb w h)

theorem runMove_commits {e : Except Stop (List Write)} {s t : State} {ps : List Place}
    (h : runMove e s = .next t) (he : ∀ ws, e = .ok ws → ∀ w ∈ ws, w.place ∈ ps) : Commits ps s t := by
  obtain ⟨a, ha, -, rfl⟩ := runMove_next.mp h
  exact ⟨a, rfl, he a ha⟩

theorem execMvDouble_commits {xs xd ys yd : MoveReg} {s t : State} (h : execMvDouble xs xd ys yd s = .next t) :
    Commits (targetPlaces xd ++ targetPlaces yd) s t := by
  unfold execMvDouble at h
  rw [finish_next] at h
  obtain ⟨a, ha, h⟩ := bind_ok.mp h
  obtain ⟨b, hb, h⟩ := bind_ok.mp h
  split at h
  · cases h
  · obtain ⟨-, rfl⟩ := commitAll_ok.mp h
    refine ⟨_, rfl, fun w hw => ?_⟩
    rw [← moveWrites_places ha, ← moveWrites_places hb, ← List.map_append]
    exact List.mem_map_of_mem hw

/-- Outside change of flow and HALT a completed instruction has committed writes to its places, and done nothing else. -/
theorem exec_commits {i : Instr} {s t : State} (h : exec i s = .next t) (hc : isCof i = false) (hh : i ≠ .halt) :
    Commits (touches s i) s t := by
  cases i with
  | jr c => cases hc
  | jrPage n c => cases hc
  | reti => cases hc
  | retiPage n => cases hc
  | loop c a => cases hc
  | jcc a c => cases hc
  | callcc a c => cases hc
  | jmpi a mode n => cases hc
  | halt => exact absurd rfl hh
  | ldc c r =>
    exact runMove_commits h fun ws e w hw => by
      show w.place ∈ targetPlaces r
      rw [← wrreg_places e]
      exact List.mem_map_of_mem hw
  | resp a b =>
    cases h
    exact ⟨[.prod (s.data b ++ s.data a)], rfl, by simp [touches, Write.place]⟩
  | mvDouble xs xd ys yd => exact execMvDouble_commits h
  | moveDouble x y => exact runMove_commits h fun ws e => twoWrites_places e
  | add op1 op2 dst m => exact runWith_commits h fun ws e => alu2_touches e
  | sub op1 op2 dst m => exact runWith_commits h fun ws e => alu2_touches e
  | addc op1 op2 dst m => exact runWith_commits h fun ws e => alu2_touches e
  | subc op1 op2 dst m => exact runWith_commits h fun ws e => alu2_touches e
  | and op1 op2 dst m => exact runWith_commits h fun ws e => alu2_touches e
  | or op1 op2 dst m => exact runWith_commits h fun ws e => alu2_touches e
  | xor op1 op2 dst m => exact runWith_commits h fun ws e => alu2_touches e
  | ashl op1 op2 dst m => exact runWith_commits h fun ws e => ashlWrites_touches e
  | mac mode op1 op2 dst m => exact runWith_commits h fun ws e => macWrites_touches e
  | msu mode op1 op2 dst m => exact runWith_commits h fun ws e => macWrites_touches e
  | abs op2 dst m => exact runWith_commits h fun ws e => alu1_touches e
  | asr op2 dst m => exact runWith_commits h fun ws e => alu1_touches e
  | lsr op2 dst m => exact runWith_commits h fun ws e => alu1_touches e
  | lsrc op2 dst m => exact runWith_commits h fun ws e => alu1_touches e
  | not op2 dst m => exact runWith_commits h fun ws e => alu1_touches e
  | lsl op2 dst m =>
    refine runWith_commits h fun ws e => ?_
    split at e
    · cases e
    · exact alu1_touches e
  | lslc op2 dst m =>
    refine runWith_commits h fun ws e => ?_
    split at e
    · cases e
    · exact alu1_touches e
  | exp op2 dst m => exact runWith_commits h fun ws e => by cases e; exact expWrites_touches
  | sat op2 dst m => exact runWith_commits h fun ws e => satWrites_touches e
  | rnd op2 dst m => exact runWith_commits h fun ws e => rndWrites_touches e
  | nop m => exact runWith_commits (ps := []) h fun ws e => by cases e; simp
  | mul mode op1 op2 m =>
    exact runWith_commits (ps := [.prod]) h fun ws e => by cases e; simp [Write.place]
  | ldx n p r => exact runMove_commits h fun ws e => fullWrites_places e
  | stx n p r => exact runMove_commits h fun ws e => fullWrites_places e
  | ldy n p r => exact runMove_commits h fun ws e => fullWrites_places e
  | sty n p r => exact runMove_commits h fun ws e => fullWrites_places e
  | moveShort x y => exact runMove_commits h fun ws e => twoWrites_places e
  | mv src dst =>
    exact runMove_commits h fun ws e w hw => by
      show w.place ∈ targetPlaces dst
      rw [← moveWrites_places e]
      exact List.mem_map_of_mem hw
  | ldxLong n r => exact runMove_commits h fun ws e => longWrites_places e
  | stxLong n r => exact runMove_commits h fun ws e => longWrites_places e
  | ldi n p x => exact runMove_commits h fun ws e => ibusWrites_places e
  | sti n p x => exact runMove_commits h fun ws e => ibusWrites_places e

/-- Every meaning leaves the record, the request, the wake counter, the vector mark, the platform, the schedule and the
count of free values alone. -/
theorem exec_sameHidden {i : Instr} {s t : State} (h : exec i s = .next t) : SameHidden s t := by
  by_cases hc : isCof i = false
  · by_cases hh : i = .halt
    · subst hh
      cases h
      show SameHidden s (if s.irq = none then _ else _)
      split <;> constructor <;> rfl
    · obtain ⟨ws, rfl, -⟩ := exec_commits h hc hh
      exact commit_sameHidden ws s
  · cases i with
    | jr c =>
      cases h
      show SameHidden s (if _ then _ else _)
      split <;> constructor <;> rfl
    | jrPage n c =>
      cases h
      show SameHidden s (if _ then _ else _)
      split <;> constructor <;> rfl
    | reti => cases h; constructor <;> rfl
    | retiPage n => cases h; constructor <;> rfl
    | loop c a =>
      replace h : execLoop c a s = .next t := h
      unfold execLoop at h
      split at h
      · cases h; constructor <;> rfl
      · cases h
    | jcc a c => cases h; constructor <;> rfl
    | callcc a c => cases h; constructor <;> rfl
    | jmpi a mode n => cases h; cases n <;> constructor <;> rfl
    | _ => exact absurd rfl hc

/-- What a delayed change-of-flow instruction does: L is cleared, the transfer stays or is set, CALLcc writes LR0, LOOP
the three loop registers (43_control.md R253 to R268). -/
theorem exec_delayedCof {i : Instr} {s t : State} (h : exec i s = .next t) (hc : isDelayedCof i = true) :
    ∃ lr0 lc ls le p,
      t = { s.setL false with pending := p, regs.lr0 := lr0, regs.lc := lc, regs.ls := ls, regs.le := le } ∧
      (p = s.pending ∨ ∃ tr, p = some tr) ∧ (.lr0 ∉ touches s i → lr0 = s.regs.lr0) ∧
      (.lc ∉ touches s i → lc = s.regs.lc) ∧ (.ls ∉ touches s i → ls = s.regs.ls) ∧
      (.le ∉ touches s i → le = s.regs.le) := by
  cases i with
  | jr c =>
    replace h : Host.Outcome.next (if condHolds s c then delayedReturn s.regs.lr0 none s else s.setL false) = .next t := h
    split at h <;> cases h
    · exact ⟨_, _, _, _, _, rfl, .inr ⟨_, rfl⟩, by simp, by simp, by simp, by simp⟩
    · exact ⟨_, _, _, _, _, rfl, .inl rfl, by simp, by simp, by simp, by simp⟩
  | jrPage n c =>
    replace h : Host.Outcome.next
      (if condHolds s c then delayedReturn s.regs.lr0 (some (s.index n)) s else s.setL false) = .next t := h
    split at h <;> cases h
    · exact ⟨_, _, _, _, _, rfl, .inr ⟨_, rfl⟩, by simp, by simp, by simp, by simp⟩
    · exact ⟨_, _, _, _, _, rfl, .inl rfl, by simp, by simp, by simp, by simp⟩
  | reti => cases h; exact ⟨_, _, _, _, _, rfl, .inr ⟨_, rfl⟩, by simp, by simp, by simp, by simp⟩
  | retiPage n => cases h; exact ⟨_, _, _, _, _, rfl, .inr ⟨_, rfl⟩, by simp, by simp, by simp, by simp⟩
  | jcc a c =>
    cases h
    refine ⟨_, _, _, _, _, rfl, ?_, by simp, by simp, by simp, by simp⟩
    by_cases hh : condHolds s c <;> simp [hh]
  | callcc a c =>
    cases h
    refine ⟨s.regs.pc + 2#16, _, _, _, _, rfl, ?_, by simp [touches], by simp, by simp, by simp⟩
    split
    · exact .inr ⟨_, rfl⟩
    · exact .inl rfl
  | loop c a =>
    replace h : execLoop c a s = .next t := h
    unfold execLoop at h
    split at h
    · cases h
      exact ⟨_, _, _, _, _, rfl, .inl rfl, by simp, by simp [touches], by simp [touches], by simp [touches]⟩
    · cases h
  | _ => cases hc

/-- JMPI is the one instruction of its kind. -/
theorem isJmpi_iff {i : Instr} : isJmpi i = true ↔ ∃ a mode n, i = .jmpi a mode n := by
  cases i <;> simp [isJmpi]

end Sys2Proof.Machine
end

