-- ==== Sys2Proof/Laws/Step.lean ====
section
/-! SUPPORT. Everything a step can do, said once (43_control.md R252, 60_exceptions.md R293 to R300): the event, the halt,
the interrupt entry, the instruction with what precedes and follows its meaning. -/

namespace Sys2Proof.Machine

/-- The restrictions, the window of R331 and the record do not look at the devices. -/
@[simp] theorem sequenceFault_afterFetch (i : Instr) (s : State) : sequenceFault i (afterFetch s) = sequenceFault i s := rfl

@[simp] theorem loopHazard_afterFetch (i : Instr) (s t : State) : loopHazard i (afterFetch s) t = loopHazard i s t := rfl

@[simp] theorem pastOf_afterFetch (i : Instr) (s : State) : pastOf i (afterFetch s) = pastOf i s := rfl

/-- Where control goes after an instruction (R252). -/
theorem nextPc_ok {i : Instr} {was : Option Transfer} {sup : Bool} {t u : State}
    (h : nextPc i was sup t = .ok u) :
    (isJmpi i = true ∧ u = t) ∨
      (isJmpi i = false ∧ ∃ tr, was = some tr ∧ u = takeTransfer tr t) ∨
      (isJmpi i = false ∧ was = none ∧ loopEndDetected t sup = true ∧ t.regs.lc ≠ 0 ∧
        u = { t with regs.lc := t.regs.lc - 1#16, regs.pc := t.regs.ls }) ∨
      (isJmpi i = false ∧ was = none ∧ (loopEndDetected t sup = true → t.regs.lc = 0) ∧ t.regs.pc ≠ 0xFFFF#16 ∧
        u = { t with regs.pc := t.regs.pc + 1#16 }) := by
  unfold nextPc at h
  split at h
  · cases h; exact .inl ⟨‹_›, rfl⟩
  · rename_i hj
    have hj' : isJmpi i = false := by simpa using hj
    cases was with
    | some tr => cases h; exact .inr (.inl ⟨hj', tr, rfl, rfl⟩)
    | none =>
      simp only at h
      split at h
      · rename_i hl
        simp only [Bool.and_eq_true, decide_eq_true_eq] at hl
        cases h
        exact .inr (.inr (.inl ⟨hj', rfl, hl.1, hl.2, rfl⟩))
      · rename_i hl
        simp only [Bool.and_eq_true, decide_eq_true_eq, not_and, not_not] at hl
        by_cases hp : t.regs.pc = 0xFFFF#16
        · simp only [advance, advancePc, if_pos hp] at h
          cases h
        · simp only [advance, advancePc, if_neg hp] at h
          cases h
          exact .inr (.inr (.inr ⟨hj', rfl, hl, hp, rfl⟩))

/-- What follows a meaning: no loop hazard, the next PC, the record. -/
theorem retire_ok {i : Instr} {s t u : State} (h : retire i s t = .ok u) :
    loopHazard i s t = false ∧ ∃ v, nextPc i s.pending s.prev2LoopWrite t = .ok v ∧ u = record i s v := by
  unfold retire at h
  split at h
  · cases h
  · obtain ⟨v, hv, h⟩ := bind_ok.mp h
    cases h
    exact ⟨by simp_all, v, hv, rfl⟩

/-- A decoded instruction that completes: no restriction broken, its meaning, what follows it. -/
theorem runInstr_next {i : Instr} {s u : State} (h : runInstr i s = .next u) :
    sequenceFault i s = none ∧ ∃ t, exec i (clearPending s) = .next t ∧ retire i s t = .ok u := by
  unfold runInstr at h
  split at h
  · cases h
  · rename_i hq
    split at h
    · exact ⟨hq, _, ‹_›, finish_next.mp h⟩
    · cases h
    · cases h

/-- A completed instruction was fetched and decoded. -/
theorem runNext_next {s u : State} (h : runNext s = .next u) :
    ∃ w i, fetch s = .ok w ∧ decode w = .ok i ∧ runInstr i (afterFetch s) = .next u := by
  unfold runNext at h
  split at h
  · rw [finish_next] at h; cases h
  · split at h
    · cases h
    · exact ⟨_, _, ‹_›, ‹_›, h⟩

/-- The core's step: it waits, it enters an interrupt, or it runs an instruction. -/
theorem coreStep_next {s u : State} (h : coreStep s = .next u) :
    (s.halted = true ∧ u = s) ∨
      (s.halted = false ∧ ∃ n, entryDue s = some n ∧ prevIs s Past.plainJmpi = false ∧ u = enterInterrupt n s) ∨
      (s.halted = false ∧ entryDue s = none ∧ runNext s = .next u) := by
  unfold coreStep at h
  split at h
  · cases h; exact .inl ⟨‹_›, rfl⟩
  · rename_i hh
    have hh' : s.halted = false := by simpa using hh
    split at h
    · rename_i n hn
      rw [finish_next, entryStep] at h
      split at h
      · cases h
      · rename_i hj
        cases h
        exact .inr (.inl ⟨hh', n, hn, by simpa using hj, rfl⟩)
    · exact .inr (.inr ⟨hh', ‹_›, h⟩)

/-- A step: reset, or the event of this boundary and then the core. -/
theorem step_next {s u : State} (h : step s = .next u) :
    (nextEvent s = .reset ∧ u = resetCore (dropEvent s)) ∨
      (nextEvent s = .idle ∧ coreStep (dropEvent s) = .next u) ∨
      ∃ n, nextEvent s = .request n ∧ coreStep (presentRequest n (dropEvent s)) = .next u := by
  unfold step runEvent at h
  split at h
  · exact .inr (.inl ⟨‹_›, h⟩)
  · exact .inr (.inr ⟨_, ‹_›, h⟩)
  · cases h; exact .inl ⟨‹_›, rfl⟩

/-- A step that is no reset is the core's step at its boundary. -/
theorem AtBoundary.step_eq {s u : State} (h : AtBoundary s u) : step s = coreStep u := by
  rcases h with ⟨h, rfl⟩ | ⟨n, h, rfl⟩ <;> simp only [step, runEvent, h]

/-- A core that runs `i` next does so: the restrictions, the meaning, what follows it. -/
theorem Runs.coreStep_eq {u : State} {i : Instr} (h : Runs u i) : coreStep u = runInstr i (afterFetch u) := by
  obtain ⟨hh, he, w, hf, hd⟩ := h
  simp [coreStep, hh, he, runNext, hf, hd]

/-- A request is presented in full or not at all (60_exceptions.md R293). -/
theorem presentRequest_cases (n : BitVec 5) (s : State) :
    (s.intDisable = 0 ∧ s.irq = none ∧
        presentRequest n s =
          { s with
            irq := some n, intDisable := s.intDisable + 1
            wake := if s.halted then haltWake else s.wake, halted := false }) ∨
      (¬ (s.intDisable = 0 ∧ s.irq = none) ∧ presentRequest n s = s) := by
  unfold presentRequest
  split
  · exact .inl ⟨(‹_ ∧ _›).1, (‹_ ∧ _›).2, rfl⟩
  · exact .inr ⟨‹_›, rfl⟩

/-- An interrupt is entered only when one is latched, the wake counter is 0 and the last instruction has no delay slot
outstanding (R295). -/
theorem entryDue_some {s : State} {n : BitVec 5} :
    entryDue s = some n ↔ s.irq = some n ∧ s.wake = 0 ∧ prevIs s Past.delayedCof = false := by
  unfold entryDue
  cases h : s.irq with
  | none => simp
  | some k =>
    simp only
    split
    · rename_i hk; simp [hk]
    · rename_i hk
      constructor
      · intro e; cases e
      · rintro ⟨-, h1, h2⟩; exact absurd ⟨h1, h2⟩ hk

end Sys2Proof.Machine
end

