-- ==== Sys2Proof/Tests/Slice0.lean ====
section
/-! SUPPORT. The model's own tests. The words and the expected results are those of 95_test_vectors.md and of the formats
of 30_encoding.md; the witnesses show states and operands that meet the hypotheses of the statements. -/

namespace Sys2Proof.Machine.Tests

/-! ## Helpers -/

/-- The full move with the move NOP: no parallel move (R104). -/
def void : ParMove := .full .x { store := false, n := .i0, p := .amount 0, r := .nop }

/-- `LDX (I0)+1,B1`. -/
def loadB1 : ParMove := .full .x { store := false, n := .i0, p := .amount 1, r := .data .b1 }

/-- Right after reset. -/
def s0 : State := State.reset

/-- Right after reset but for MR0. -/
def s1 (mr0 : Word) : State := { s0 with regs.mr0 := mr0 }

/-- A 40-bit value in an accumulator. -/
def inAcc (s : State) (x : AccName) (v : Wide) : State := putAcc s x v

/-- A word in X memory. -/
def inX (s : State) (a : Nat) (v : Word) : State := { s with xmem := s.xmem.write16 a v }

/-- A word in Y memory. -/
def inY (s : State) (a : Nat) (v : Word) : State := { s with ymem := s.ymem.write16 a v }

/-- `w` placed where the next step fetches, one step made, and the test `p` of the state after it. -/
def after (w : Nat) (s : State) (p : State → Bool) : Bool :=
  match step (s.withFetchWord 32 w) with
  | .next t => p t
  | _ => false

/-- The fault that one step with `w` ends in. -/
def stopsIn (w : Nat) (s : State) : Option Fault :=
  match step (s.withFetchWord 32 w) with
  | .fault f => some f
  | _ => none

/-- The reserved encoding that one step with `w` is refused for. -/
def refusedFor (w : Nat) (s : State) : Option Refusal :=
  match step (s.withFetchWord 32 w) with
  | .refused r => some r
  | _ => none

/-! ## Well-formedness: an ill-formed term for each check -/

theorem test_wf_amount_above : (Instr.ldx .i0 (.amount 8) (.data .a0)).wellFormed = false := by decide
theorem test_wf_amount_below : (Instr.sty .i0 (.amount (-8)) (.data .a0)).wellFormed = false := by decide
theorem test_wf_amount_double :
    (Instr.moveDouble ⟨false, .i0, .amount 0, .nop⟩ ⟨false, .i0, .amount 8, .nop⟩).wellFormed = false := by decide
theorem test_wf_amount_ibus : (Instr.ldi .i0 (.amount (-8)) .a).wellFormed = false := by decide
theorem test_wf_move_nop_alone : (Instr.stx .i0 .star .nop).wellFormed = false := by decide
theorem test_wf_mv_from_nop : (Instr.mv .nop (.data .a0)).wellFormed = false := by decide
theorem test_wf_mv_double_from_nop : (Instr.mvDouble .nop .nop .nop .lr0).wellFormed = false := by decide
theorem test_wf_loop_count : (Instr.loop (.guard .a) 0).wellFormed = false := by decide
theorem test_wf_p_as_op1 : (Instr.add .p (.acc .a) .a1 void).wellFormed = false := by decide
theorem test_wf_wide_into_even : (Instr.sub (.acc .a) .null .b0 void).wellFormed = false := by decide
theorem test_wf_single_wide_into_even : (Instr.asr .p .c0 void).wellFormed = false := by decide
theorem test_wf_mac_into_even : (Instr.mac .ss .a0 .a0 .d0 void).wellFormed = false := by decide
theorem test_wf_ashl_wide_count : (Instr.ashl (.reg .a0) .p .a1 void).wellFormed = false := by decide
theorem test_wf_sat_narrow : (Instr.sat (.reg .a0) .b1 void).wellFormed = false := by decide
theorem test_wf_sat_into_even : (Instr.sat (.acc .a) .b0 void).wellFormed = false := by decide
theorem test_wf_rnd_narrow : (Instr.rnd .ones .b0 void).wellFormed = false := by decide
theorem test_wf_lsl_of_p : (Instr.lsl .p .a1 void).wellFormed = false := by decide
theorem test_wf_nop_with_move : (Instr.nop loadB1).wellFormed = false := by decide
theorem test_wf_par_move : (Instr.mul .ss .a0 .a0 (.mv .nop .lr0)).wellFormed = false := by decide

/-! ## Decoding: a word for every constructor, from the formats R82 to R94 and 95_test_vectors.md -/

theorem test_decode_ldc : decode 0x00013490#32 = .ok (.ldc 1234#16 (.index .i0)) := by rfl
theorem test_decode_jr : decode 0x20000001#32 = .ok (.jr .cs) := by rfl
theorem test_decode_jr_page : decode 0x208001C0#32 = .ok (.jrPage .i7 .always) := by rfl
theorem test_decode_reti : decode 0x21000000#32 = .ok .reti := by rfl
theorem test_decode_reti_page : decode 0x218000C0#32 = .ok (.retiPage .i3) := by rfl
theorem test_decode_resp : decode 0x22100000#32 = .ok (.resp .a0 .a1) := by rfl
theorem test_decode_loop : decode 0x24100081#32 = .ok (.loop (.data .a1) 0x4002#16) := by rfl
theorem test_decode_jcc : decode 0x28104019#32 = .ok (.jcc 0x4100#16 .gt) := by rfl
theorem test_decode_callcc : decode 0x29140015#32 = .ok (.callcc 0x5000#16 .zc) := by rfl
theorem test_decode_jmpi : decode 0x2A10401E#32 = .ok (.jmpi 0x4100#16 .dec .i6) := by rfl
theorem test_decode_mv_double :
    decode 0x2B2015CD#32 = .ok (.mvDouble .lr0 (.data .a1) (.index .i7) .lc) := by rfl
theorem test_decode_halt : decode 0x2D000000#32 = .ok .halt := by rfl
theorem test_decode_move_double :
    decode 0x30702840#32 =
      .ok (.moveDouble ⟨false, .i0, .amount 7, .data .a0⟩ ⟨true, .i2, .amount 1, .data .a0⟩) := by rfl
theorem test_decode_add : decode 0x48BA0024#32 = .ok (.add .null .p .c1 void) := by rfl
theorem test_decode_sub :
    decode 0x60140710#32 =
      .ok (.sub (.reg .a0) (.reg .a1) .b0 (.full .x ⟨false, .i1, .amount (-4), .index .i0⟩)) := by rfl
theorem test_decode_addc : decode 0x8CB20024#32 = .ok (.addc (.acc .a) .p .a1 void) := by rfl
theorem test_decode_subc : decode 0x90140024#32 = .ok (.subc (.reg .a0) (.reg .a1) .b0 void) := by rfl
theorem test_decode_ashl : decode 0xA0220024#32 = .ok (.ashl (.reg .a0) (.reg .b0) .a1 void) := by rfl
theorem test_decode_and : decode 0xBC820024#32 = .ok (.and (.acc .a) .null .a1 void) := by rfl
theorem test_decode_or : decode 0xCC960024#32 = .ok (.or (.acc .a) .ones .b1 void) := by rfl
theorem test_decode_xor : decode 0xD57E0024#32 = .ok (.xor (.reg .c1) (.reg .d1) .d1 void) := by rfl
theorem test_decode_mac :
    decode 0x50170829#32 = .ok (.mac .ss .a0 .a1 .b1 (.short ⟨false, .i0, true, .a0⟩ ⟨false, .i2, true, .a1⟩)) := by rfl
theorem test_decode_msu : decode 0x76220024#32 = .ok (.msu .ss .b1 .b0 .a1 void) := by rfl
theorem test_decode_abs : decode 0xF0C20024#32 = .ok (.abs (.acc .a) .a1 void) := by rfl
theorem test_decode_asr : decode 0xF1D60024#32 = .ok (.asr (.acc .b) .b1 void) := by rfl
theorem test_decode_lsr : decode 0xF2000024#32 = .ok (.lsr (.reg .a0) .a0 void) := by rfl
theorem test_decode_lsrc : decode 0xF3C20024#32 = .ok (.lsrc (.acc .a) .a1 void) := by rfl
theorem test_decode_exp : decode 0xF5060024#32 = .ok (.exp (.reg .a0) .b1 void) := by rfl
theorem test_decode_sat : decode 0xF6C60024#32 = .ok (.sat (.acc .a) .b1 void) := by rfl
theorem test_decode_rnd : decode 0xF7C40024#32 = .ok (.rnd (.acc .a) .b0 void) := by rfl
theorem test_decode_nop : decode 0xF4000024#32 = .ok (.nop void) := by rfl
theorem test_decode_mul : decode 0xFF260024#32 = .ok (.mul .us .b1 .b0 void) := by rfl
theorem test_decode_not : decode 0xD9000024#32 = .ok (Instr.not (.reg .a0) .a0 void).core := by rfl
theorem test_decode_lsl : decode 0x4DD60024#32 = .ok (Instr.lsl (.acc .b) .b1 void).core := by rfl
theorem test_decode_lslc : decode 0x8CC20024#32 = .ok (Instr.lslc (.acc .a) .a1 void).core := by rfl
theorem test_decode_ldx : decode 0xF4000241#32 = .ok (.ldx .i0 (.amount (-7)) (.data .a1)) := by rfl
theorem test_decode_stx : decode 0xF4002840#32 = .ok (.stx .i2 (.amount 1) (.data .a0)) := by rfl
theorem test_decode_ldy : decode 0xF4008600#32 = .ok (.ldy .i1 .star (.data .a0)) := by rfl
theorem test_decode_sty : decode 0xF400A820#32 = .ok (.sty .i2 (.amount 0) (.guard .a)) := by rfl
/-- 1, then s rrr p RRR of X and of Y (R102): LDX (I0)*,A0 and LDY (I2)*,A1. -/
theorem test_decode_move_short :
    decode (0xF4#8 ++ 0#7 ++ 0b1#1 ++ 0b00001000#8 ++ 0b00101001#8) =
      .ok (.moveShort ⟨false, .i0, true, .a0⟩ ⟨false, .i2, true, .a1⟩) := by rfl
theorem test_decode_mv : decode 0xF4004280#32 = .ok (.mv .mr0 (.data .a0)) := by rfl
/-- 0010100, then s rrr RRRRRR (R106). -/
theorem test_decode_ldx_long :
    decode (0xF4#8 ++ 0#7 ++ 0b0010100#7 ++ 0b0#1 ++ 0b101#3 ++ 0b001110#6) = .ok (.ldxLong .i5 .ls) := by rfl
theorem test_decode_stx_long :
    decode (0xF4#8 ++ 0#7 ++ 0b0010100#7 ++ 0b1#1 ++ 0b010#3 ++ 0b111111#6) = .ok (.stxLong .i2 .ipr1) := by rfl
theorem test_decode_ldi : decode 0xF4005404#32 = .ok (.ldi .i0 (.amount 1) .a) := by rfl
theorem test_decode_sti : decode 0xF4005641#32 = .ok (.sti .i1 (.amount 0) .b) := by rfl
/-- Rows of 17 bits are read as the field of an instruction whose arithmetic is NOP (log 44). -/
theorem test_table_word : decodeTableWord 24 0x00180 = some (.ldx .i0 (.amount 6) (.data .a0)) := by rfl

/-! ## One step of each instruction, with the results of 95_test_vectors.md -/

theorem test_ldc_sign_extends : after 0x003FFFC1 s0 (fun t => t.acc .a == 0xFFFFFF0000#40) = true := by decide
theorem test_ldc_mr0_masked : after 0x003FFFCA s0 (fun t => t.regs.mr0 == 0x079F#16) = true := by decide
theorem test_jr :
    after 0x20000000 { s1 0x80 with regs.lr0 := 0x4321 }
      (fun t => t.pending == some ⟨0x4321, none⟩ && t.regs.mr0 == 0 && t.regs.pc == 0x4001) = true := by decide
theorem test_jr_page :
    after 0x208001C0 { (s1 0x80).setIndex .i7 2 with regs.lr0 := 0x4321 }
      (fun t => t.pending == some ⟨0x4321, some 2⟩ && t.regs.ipr0 == 0) = true := by decide
theorem test_reti :
    after 0x21000000 { s1 0x9F with regs.lr1 := 0x4003 }
      (fun t => t.pending == some ⟨0x4003, none⟩ && t.regs.mr0 == 0x1F) = true := by decide
theorem test_reti_page :
    after 0x218000C0 { (s1 0x80).setIndex .i3 1 with regs.lr1 := 0x4003 }
      (fun t => t.pending == some ⟨0x4003, some 1⟩ && t.regs.mr0 == 0) = true := by decide
theorem test_resp :
    after 0x22100000 (((s1 0x1F).setData .a0 0x5678).setData .a1 0x1234)
      (fun t => t.regs.p == 0x12345678#32 && t.regs.mr0 == 0x1F) = true := by decide
theorem test_loop :
    after 0x2410040E { s1 0x80 with regs.ls := 0xF }
      (fun t => t.regs.lc == 0xF && t.regs.ls == 0x4002 && t.regs.le == 0x4010 && t.regs.mr0 == 0 &&
        t.pending == none) = true := by decide
theorem test_jcc_taken : after 0x28104008 (s1 0x40C) (fun t => t.pending == some ⟨0x4100, none⟩) = true := by decide
theorem test_jcc_not_taken :
    after 0x28104008 (s1 0x0C) (fun t => t.pending == none && t.regs.pc == 0x4001) = true := by decide
theorem test_callcc_not_taken :
    after 0x29140015 (s1 0x10) (fun t => t.regs.lr0 == 0x4002 && t.pending == none) = true := by decide
theorem test_jmpi :
    after 0x2A10400E { (s1 0x80).setIndex .i6 0x500 with regs.ipr0 := 3 }
      (fun t => t.index .i6 == 0x501 && t.regs.ipr0 == 0 && t.regs.pc == 0x4100 && t.regs.mr0 == 0x80) = true := by
  decide
theorem test_mv_double :
    after 0x2B2015CD { s0.setIndex .i7 9 with regs.lr0 := 0x8123 }
      (fun t => t.data .a1 == 0x8123 && t.guard .a == 0xFF && t.regs.lc == 9) = true := by decide
theorem test_halt : after 0x2D000000 (s1 0x1F) (fun t => t.halted && t.regs.pc == 0x4001) = true := by decide
theorem test_move_double :
    after 0x30702840 (inX (((s0.setIndex .i0 0x10).setIndex .i2 0x20).setData .a0 0x5555) 0x10 0xAAAA)
      (fun t => t.data .a0 == 0xAAAA && t.word .y 0x20 == 0x5555 && t.index .i0 == 0x17 && t.index .i2 == 0x21) =
      true := by decide
theorem test_add_saturates :
    after 0x40160024 (((s1 0x400).setData .a0 0x8000).setData .a1 0x8000)
      (fun t => t.data .b1 == 0x8000 && t.guard .b == 0xFF && t.regs.mr0 == 0x40D) = true := by decide
theorem test_add_wide_overflow :
    after 0x4CD20024 (inAcc (inAcc s0 .a 0x7FFFFFFFFF) .b 1)
      (fun t => t.acc .a == 0x8000000000 && t.regs.mr0 == 0x0E) = true := by decide
theorem test_sub_wraps :
    after 0x60140024 ((s0.setData .a0 0x8000).setData .a1 1)
      (fun t => t.data .b0 == 0x7FFF && t.regs.mr0 == 5) = true := by decide
theorem test_sub_reads_before_the_move :
    after 0x60140710 (inX (((s0.setData .a0 9).setData .a1 4).setIndex .i1 0x44) 0x44 0x77)
      (fun t => t.data .b0 == 5 && t.index .i0 == 0x77 && t.index .i1 == 0x40) = true := by decide
theorem test_addc :
    after 0x8CB20024 { inAcc (s1 1) .a 5 with regs.p := 0xFFFFFFFF }
      (fun t => t.acc .a == 5 && t.regs.mr0 == 1) = true := by decide
theorem test_subc_borrows :
    after 0x90140024 s0 (fun t => t.data .b0 == 0xFFFF && t.regs.mr0 == 8) = true := by decide
theorem test_ashl_left_saturates :
    after 0xAC220024 ((inAcc (s1 0x400) .a 3).setData .b0 0x27)
      (fun t => t.acc .a == 0x7FFFFFFFFF && t.regs.mr0 == 0x407) = true := by decide
theorem test_ashl_right :
    after 0xA0200024 ((s0.setData .a0 0x8005).setData .b0 0xFFFE)
      (fun t => t.data .a0 == 0xE001 && t.regs.mr0 == 8) = true := by decide
theorem test_and_widens :
    after 0xBC220024 ((inAcc s0 .a 0xFFFFFFFFFF).setData .b0 0x8001)
      (fun t => t.acc .a == 0xFF80010000 && t.regs.mr0 == 8) = true := by decide
theorem test_or :
    after 0xC0140024 ((s0.setData .a0 0xF0).setData .a1 0xF00)
      (fun t => t.data .b0 == 0xFF0 && t.regs.mr0 == 0) = true := by decide
theorem test_xor :
    after 0xD57E0024 ((s0.setData .c1 0x4000).setData .d1 0x8000)
      (fun t => t.data .d1 == 0xC000 && t.guard .d == 0xFF && t.regs.mr0 == 8) = true := by decide
theorem test_not :
    after 0xD9C20024 (inAcc s0 .a 0xFF) (fun t => t.acc .a == 0xFFFFFFFF00 && t.regs.mr0 == 8) = true := by decide
theorem test_lsl :
    after 0x4DD60024 (inAcc s0 .b 0xC0000001)
      (fun t => t.acc .b == 0x0180000002 && t.regs.mr0 == 2) = true := by decide
theorem test_lslc :
    after 0x8CC20024 (inAcc (s1 1) .a 0x8000000000) (fun t => t.acc .a == 1 && t.regs.mr0 == 5) = true := by decide
theorem test_mac :
    after 0x56220024
      { ((inAcc (s1 0x600) .a 0x7FFFFFFFFF).setData .b1 3).setData .b0 5 with regs.p := 1 }
      (fun t => t.acc .a == 0x7FFFFFFFFF && t.regs.p == 15 && t.regs.mr0 == 0x606) = true := by decide
theorem test_mac_with_short_moves :
    after 0x50170829
      { inY (inX (((((((s1 0x200).setData .a0 2).setData .a1 3).setIndex .i0 0x10).setIndex .i1 1).setIndex .i2
          0x20).setIndex .i3 0xFFFF) 0x10 0x11) 0x20 0x22 with regs.p := 7 }
      (fun t => t.acc .b == 7 && t.regs.p == 6 && t.data .a0 == 0x11 && t.data .a1 == 0x22 && t.index .i0 == 0x11 &&
        t.index .i2 == 0x1F) = true := by decide
theorem test_msu :
    after 0x76220024 { ((inAcc (s1 0x200) .a 0x1000).setData .b1 3).setData .b0 5 with regs.p := 0x234 }
      (fun t => t.acc .a == 0xDCC && t.regs.p == 15 && t.regs.mr0 == 0x201) = true := by decide
theorem test_abs : after 0xF0040024 ((s1 0x400).setData .a0 0x8000) (fun t => t.data .b0 == 0x7FFF) = true := by decide
/-- C after ABS is a free value: the flags are looked at for both. -/
theorem test_abs_flags : ∀ c, flagsOf (absOut false c 16 0x8000#16) = ⟨false, true, true, false, c⟩ := by decide
theorem test_asr :
    after 0xF1D60024 (inAcc s0 .b 0x8000000001)
      (fun t => t.acc .b == 0xC000000000 && t.regs.mr0 == 0x0B) = true := by decide
theorem test_lsr :
    after 0xF2C20024 (inAcc s0 .a 0xFFFFFFFFFF)
      (fun t => t.acc .a == 0x7FFFFFFFFF && t.regs.mr0 == 3) = true := by decide
theorem test_lsrc :
    after 0xF3000024 ((s1 1).setData .a0 2) (fun t => t.data .a0 == 0x8001 && t.regs.mr0 == 8) = true := by decide
theorem test_exp :
    after 0xF5C40024 (inAcc (s1 0x1F) .a 0x10000) (fun t => t.data .b0 == 0x17 && t.regs.mr0 == 0) = true := by decide
theorem test_exp_zero : after 0xF5C40024 s0 (fun t => t.data .b0 == 0 && t.regs.mr0 == 0x10) = true := by decide
theorem test_sat :
    after 0xF6C60024 (inAcc s0 .a 0xFF7FFFFFFF)
      (fun t => t.acc .b == 0xFF80000000 && t.regs.mr0 == 0x0C) = true := by decide
theorem test_rnd_ties_to_even :
    after 0xF7C40024 (inAcc (s1 0x100) .a 0x28000)
      (fun t => t.data .b0 == 2 && t.regs.mr0 == 0x100) = true := by decide
theorem test_rnd_truncates :
    after 0xF7C40024 (inAcc s0 .a 0xFFFFFD8000) (fun t => t.data .b0 == 0xFFFE && t.regs.mr0 == 8) = true := by decide
theorem test_nop :
    after 0xF4000024 ((s1 0x1F).setData .a0 0x1234)
      (fun t => t.data .a0 == 0x1234 && t.regs.mr0 == 0x1F && t.regs.pc == 0x4001) = true := by decide
theorem test_mul_saturates :
    after 0xFE260024 (((s1 0x400).setData .b1 0x8000).setData .b0 0x8000)
      (fun t => t.regs.p == 0x7FFFFFFF) = true := by decide
theorem test_mul_mixed :
    after 0xFEA60024 (((s1 0x200).setData .b1 0xFFFF).setData .b0 0xFFFF)
      (fun t => t.regs.p == 0xFFFF0001) = true := by decide
theorem test_ldx :
    after 0xF4000241 (inX (s0.setIndex .i0 3) 3 0x8001)
      (fun t => t.data .a1 == 0x8001 && t.guard .a == 0xFF && t.index .i0 == 0xFFFC) = true := by decide
theorem test_ldx_collides : stopsIn 0xF4000050 (s0.setIndex .i0 0x20) = some .doubleWrite := by decide
theorem test_stx :
    after 0xF4002840 ((s0.setIndex .i2 0xFFFF).setData .a0 0xCAFE)
      (fun t => t.word .x 0xFFFF == 0xCAFE && t.index .i2 == 0) = true := by decide
/-- P4 of 95_test_vectors.md: a store to INT_GLOB_EN counts the disable count down. -/
theorem test_stx_int_glob_en :
    after 0xF400380A { s0.setIndex .i6 0xC01F with intDisable := 2 } (fun t => t.intDisable == 1) = true := by decide
theorem test_ldy :
    after 0xF4008600 (inY ((s0.setIndex .i1 0x10).setIndex .i0 0x1FFF) 0x10 0x55)
      (fun t => t.data .a0 == 0x55 && t.index .i1 == 0x200F) = true := by decide
theorem test_sty :
    after 0xF400A820 ((s0.setIndex .i2 0x20).setGuard .a 0x80)
      (fun t => t.word .y 0x20 == 0xFF80) = true := by decide
theorem test_move_short :
    after 0xF4010829 (inY (inX ((((s0.setIndex .i0 4).setIndex .i1 1).setIndex .i2 6).setIndex .i3 0xFFFF) 4 7) 6 8)
      (fun t => t.data .a0 == 7 && t.data .a1 == 8 && t.index .i0 == 5 && t.index .i2 == 5) = true := by decide
theorem test_mv : after 0xF4004280 (s1 0x415) (fun t => t.data .a0 == 0x415 && t.regs.mr0 == 0x415) = true := by decide
theorem test_mv_wins_over_flags :
    after 0x4000404A ((s0.setData .a0 0x8000).setData .a1 0x600)
      (fun t => t.data .a0 == 0 && t.regs.mr0 == 0x600) = true := by decide
/-- The named register gives the upper half of the address (D8). -/
theorem test_ldx_long :
    after 0xF400514E (inX ((s0.setIndex .i5 1).setIndex .i4 2) 0x10002 0x99) (fun t => t.regs.ls == 0x99) = true := by
  decide
theorem test_stx_long :
    after 0xF40052BF { (s0.setIndex .i2 3).setIndex .i3 4 with regs.ipr1 := 0x77 }
      (fun t => t.word .x 0x30004 == 0x77 && t.index .i2 == 3) = true := by decide
theorem test_ldi :
    after 0xF4005404 { s0.setIndex .i0 0x4100 with imem := Memory.write32 [] 0x4100 0x89ABCDEF }
      (fun t => t.acc .a == 0xFF89ABCDEF && t.index .i0 == 0x4101) = true := by decide
theorem test_sti :
    after 0xF4005641 (inAcc (s0.setIndex .i1 0x4200) .b 0x12F4000024)
      (fun t => t.codeWord 0x4200 == 0xF4000024#32 && t.index .i1 == 0x4200) = true := by decide

/-! ## The step around an instruction (95_test_vectors.md 5.2, 6.1) -/

/-- A post-modification given by the pair register. -/
def star (cur pair : Word) : Option Word := (starMod ((s0.setIndex .i0 cur).setIndex .i1 pair) .x .i0).toOption

theorem test_star_linear : star 0x1000 0xFFF6 = some 0x0FF6 := by decide
theorem test_star_modulo_up : star 0x0104 0x8004 = some 0x0100 := by decide
theorem test_star_modulo_down : star 0x0100 0xA004 = some 0x0104 := by decide
theorem test_star_modulo_short_step : star 0x0200 0x3F49 = some 0x0207 := by decide
theorem test_star_modulo_long_step : star 0x04BF 0x6702 = some 0x045B := by decide
theorem test_star_bit_reversal : star 0x3030 0xC03F = some 0x3010 := by decide

theorem test_loop_end :
    after 0xF4000024 { s0 with regs.pc := 0x4005, regs.le := 0x4005, regs.ls := 0x4003, regs.lc := 3 }
      (fun t => t.regs.lc == 2 && t.regs.pc == 0x4003) = true := by decide
theorem test_loop_end_left :
    after 0xF4000024 { s0 with regs.pc := 0x4005, regs.le := 0x4005, regs.ls := 0x4003 }
      (fun t => t.regs.lc == 0 && t.regs.pc == 0x4006) = true := by decide
theorem test_loop_end_suppressed :
    after 0xF4000024 { s0 with regs.pc := 0x4005, regs.le := 0x4005, regs.lc := 3, prev2LoopWrite := true }
      (fun t => t.regs.lc == 3 && t.regs.pc == 0x4006) = true := by decide
theorem test_jump_at_loop_end :
    stopsIn 0x28104000 { s0 with regs.pc := 0x4005, regs.le := 0x4005 } = some .cofAtLoopEnd := by decide
theorem test_loop_register_at_loop_end :
    stopsIn 0x000001CD { s0 with regs.pc := 0x4005, regs.le := 0x4005, regs.lc := 3 } = some .loopRegisterHazard := by
  decide
theorem test_reserved_condition : refusedFor 0x28104006 s0 = some (.reserved .conditionCode) := by decide
theorem test_reserved_ashl : refusedFor 0xA0C00024 s0 = some (.reserved .ashlOp2Wide) := by decide
theorem test_vector_not_jmpi :
    stopsIn 0xF4000024 { s0 with regs.pc := 0x20, atVector := true } = some .vectorNotJmpi := by decide

/-- The state of the next step, or the state itself where it stops. -/
def next (s : State) : State :=
  match step s with
  | .next t => t
  | _ => s

theorem test_interrupt_entry :
    (next { s1 1 with regs.pc := 0x4003, regs.ipr0 := 2, events := [.request 5] }).regs =
      { (s1 0x81).regs with pc := 0x25, lr1 := 0x4003, ipr1 := 2 } := by decide
theorem test_request_not_presented :
    next { s0 with halted := true, intDisable := 1, events := [.request 5] } =
      { s0 with halted := true, intDisable := 1, freeCount := 1 } := by decide
theorem test_wake :
    (next { (s0.withFetchWord 32 0xF4000024) with halted := true, events := [.request 5] }).wake = 2 := by decide

/-- The word lies where the step fetches. -/
theorem test_fetch_word : fetch (s0.withFetchWord 32 0xF4000024) = .ok 0xF4000024#32 := by rfl

/-! ## Witnesses: states and operands that meet the hypotheses of each statement -/

theorem witness_decode_encode :
    (Instr.add (.acc .a) .p .c1 loadB1).wellFormed = true ∧ (Instr.lsl (.reg .a0) .b0 void).wellFormed = true ∧
      (Instr.ldx .i7 (.amount (-7)) .ipr1).wellFormed = true ∧ (Instr.sty .i0 (.amount 7) (.data .a0)).wellFormed = true := by
  decide

theorem witness_ignored_bits : (MoveReg.index .i7).countable = true ∧ void.isVoid = true ∧
    (FullMove.mk false .i0 (.amount 0) .nop).ok = true ∧ PostMod.star.ok = true ∧ (PostMod.amount (-7)).ok = true ∧
    MoveReg.null ≠ .nop := by decide

theorem witness_reserved_control : (0b0011#4 : BitVec 4) = 0b0011#4 ∨ (0b0011#4 : BitVec 4) = 0b1100#4 := by decide

theorem witness_reserved_single : 8 ≤ (8#4).toNat ∧ (8#4).toNat ≤ 13 ∧ 8 ≤ (13#4).toNat ∧ (13#4).toNat ≤ 13 := by decide

/-- The ends of the three ranges of reserved register codes. -/
theorem witness_reserved_register : ∀ r ∈ [0b001011#6, 0b011000#6, 0b011111#6, 0b100101#6, 0b111101#6], badRegister r := by
  unfold badRegister; decide

theorem witness_reserved_condition : badCondition 0b000110#6 := by intro k; cases k <;> decide

/-- A field for each way to be reserved: selector 011; special selectors 6 and 15; register code 0b011000 in a full move on
X and on Y, in a register move as source and as target, in a long-address move. -/
theorem witness_reserved_parallel :
    reservedMove 0x0C000#17 .parallelMove ∧ reservedMove 0x05800#17 .parallelMove ∧ reservedMove 0x07C00#17 .parallelMove ∧
    reservedMove 0x00018#17 .moveRegister ∧ reservedMove 0x08018#17 .moveRegister ∧ reservedMove 0x04600#17 .moveRegister ∧
    reservedMove 0x04018#17 .moveRegister ∧ reservedMove 0x05018#17 .moveRegister := by
  have bad : badRegister 0b011000#6 := .inr (.inl (by decide))
  exact ⟨.inl ⟨rfl, .inl rfl⟩, .inl ⟨rfl, .inr (by decide)⟩, .inl ⟨rfl, .inr (by decide)⟩,
    .inr ⟨rfl, .inl ⟨.inl rfl, bad⟩⟩, .inr ⟨rfl, .inl ⟨.inr rfl, bad⟩⟩, .inr ⟨rfl, .inr (.inl ⟨rfl, .inl bad⟩)⟩,
    .inr ⟨rfl, .inr (.inl ⟨rfl, .inr bad⟩)⟩, .inr ⟨rfl, .inr (.inr ⟨rfl, bad⟩)⟩⟩

/-- The state of the arithmetic witnesses: I0 = 16, X[16] = 0x8001. -/
def sX : State := inX (s0.setIndex .i0 16) 16 0x8001

/-- The writes of `LDX (I0)+1,B1` in `sX`. -/
def wX : List Write := [.data .b1 0x8001, .guard .b 0xFF, .index .i0 17]

/-- For AdditionResults, SubtractionResults, LogicResults, ShiftLeftOneResults, ShiftRightOneResults, AbsResult, ExpResult
and SatRndResults: a move made beside a 16-bit and beside a 40-bit result. -/
theorem witness_alu : parWrites sX loadB1 = .ok wX ∧ noClash (result16Places .a1) wX = true ∧
    noClash (accPlaces .a) wX = true ∧ DataReg.a1.wideAcc = some .a ∧ (AluOp.reg .a0).isWide = false ∧
    AluOp.null.isWide = false ∧ (AluOp.acc .d).isWide = true ∧ AluOp.p.isWide = true ∧ AluOp.acc .d ≠ .p :=
  ⟨rfl, by decide, by decide, rfl, rfl, rfl, rfl, rfl, by decide⟩

/-- For SatRndResults: `q` in convergent rounding at a tie, and in truncation of a negative number. -/
theorem witness_rnd :
    (let a := (val40 (inAcc (s1 0x100) .a 0x28000) (.acc .a)).toInt
     (s1 0x100).flagR = true ∧ 2 * (a - 2 * 2 ^ 16).natAbs ≤ 2 ^ 16 ∧
      (2 * (a - 2 * 2 ^ 16).natAbs = 2 ^ 16 → (2 : Int) % 2 = 0)) ∧
    (s0.flagR = false ∧ (-2 : Int) = (val40 (inAcc s0 .a 0xFFFFFD8000) (.acc .a)).toInt.tdiv (2 ^ 16)) := by decide

theorem witness_signed_conditions : void.isVoid = true ∧
    (∃ t, exec (.sub (.reg .a0) .ones .b0 void) s0 = .next t) ∧ ∃ t, exec (.sub (.acc .a) .p .b1 void) s0 = .next t :=
  ⟨rfl, ⟨_, rfl⟩, ⟨_, rfl⟩⟩

/-- For AshlResult and AshlOutOfRangeCompletes: counts 0, the ends of the ranges and just outside. -/
theorem witness_ashl : (AluOp.reg .b0).isWide = false ∧
    ∀ n : Int, n = 0 ∨ n = 15 ∨ n = -15 ∨ n = 16 ∨ n = -16 ∨ n = 39 ∨ n = -39 ∨ n = 40 ∨ n = -40 →
      (val16 (s0.setData .b0 (BitVec.ofInt 16 n)) (.reg .b0)).toInt = n := by
  refine ⟨rfl, ?_⟩
  rintro n (rfl | rfl | rfl | rfl | rfl | rfl | rfl | rfl | rfl) <;> decide

/-- For MulResult, NopCarriesMoves and MacMsuResults. -/
theorem witness_multiplier : parWrites sX loadB1 = .ok wX ∧ noClash [] wX = true ∧ noClash (accPlaces .d) wX = true ∧
    DataReg.d1.wideAcc = some .d := ⟨rfl, by decide, by decide, rfl⟩

/-- For LdcAndMvResults and MvDoubleResult: the value IPR0 holds and another, the move NOP as source and as target,
registers of one unit and of two, targets apart and not. -/
theorem witness_register_moves :
    rdreg s0 .lr0 = s0.regs.ipr0 ∧ rdreg { s0 with regs.lr0 := 1 } .lr0 ≠ s0.regs.ipr0 ∧ MoveReg.lr0 ≠ .nop ∧
    (∀ p ∈ targetPlaces (.data .a1), p ∉ targetPlaces .lc) ∧
    ¬ ∀ p ∈ targetPlaces (.data .a1), p ∉ targetPlaces (.guard .a) := by decide

/-- For MvDoubleResult: moves inside each unit, between units, and with NULL and the move NOP. -/
theorem witness_units : StaysInUnit (.data .d1) (.guard .a) ∧ StaysInUnit (.index .i0) (.index .i7) ∧
    StaysInUnit .lr0 .ipr1 ∧ ¬ StaysInUnit .lr0 (.data .a1) ∧ ¬ StaysInUnit (.index .i7) .lc ∧
    ¬ StaysInUnit .null .null ∧ ¬ StaysInUnit .nop .nop := by
  simp [StaysInUnit, InAlu, InDag, InPcu]

/-- For LoadResults, StoreResults, LongMoveResults, LoadAfterStore: RAM at the first and the last address. -/
theorem witness_memory :
    loadWord sX .x ((sX.index .i0).zeroExtend 32) = .ok 0x8001 ∧ nextIndex sX .x .i0 (.amount 7) = .ok 23 ∧
    nextIndex sX .y .i0 .star = .ok 16 ∧ s0.kind .x 0#32 = some .ram ∧ s0.kind .x 0xFFFFFFFF#32 = some .ram ∧
    s0.kind .y 0xFFFF#32 = some .ram ∧ s0.kind .x 0xC01F#32 = some .intGlobEn ∧
    ∃ v, loadWord sX .y ((sX.index .i0).zeroExtend 32) = .ok v := ⟨rfl, rfl, rfl, rfl, rfl, rfl, rfl, _, rfl⟩

/-- A platform with every kind of address: ROM at 0, a device at 1 in all spaces, RAM at 2 and 3, nothing from 4 on; it
enables no `*` mode. -/
def platMap : Platform where
  x := [⟨0, 1, .rom⟩, ⟨1, 1, .device 7⟩, ⟨2, 2, .ram⟩]
  y := [⟨0, 1, .rom⟩, ⟨1, 1, .device 7⟩, ⟨2, 2, .ram⟩]
  i := [⟨0, 1, .rom⟩, ⟨1, 1, .device 7⟩, ⟨2, 2, .ram⟩]
  amm := 0
  resetVector := 0x10
  intResetDisable := 1

/-- Right after reset on that platform. -/
def sMap : State := State.boot platMap [] [] []

/-- For the stops of loads, stores, double moves and code moves. -/
theorem witness_kinds : sMap.kind .x 0#32 = some .rom ∧ sMap.kind .x 1#32 = some (.device 7) ∧
    sMap.kind .x 3#32 = some .ram ∧ sMap.kind .x 4#32 = none ∧ sMap.kind .y 4#32 = none ∧
    sMap.codeKind 0#32 = some .rom ∧ sMap.codeKind 1#32 = some (.device 7) ∧ sMap.codeKind 3#32 = some .ram ∧
    sMap.codeKind 4#32 = none ∧ sameDevice (sMap.kind .x 1#32) (sMap.kind .y 1#32) = true := by decide

/-- For the ends of loads into IPR0 and into the index register itself. -/
theorem witness_load_stops : (∃ v, loadWord sX .x ((sX.index .i0).zeroExtend 32) = .ok v ∧ v ≠ sX.regs.ipr0) ∧
    (∃ v, loadWord (inX s0 0 0) .x ((s0.index .i0).zeroExtend 32) = .ok v ∧ v = s0.regs.ipr0) ∧
    ∃ v, loadWord (inY (s0.setIndex .i0 3) 3 5) .y 3#32 = .ok v ∧ v ≠ s0.regs.ipr0 :=
  ⟨⟨_, rfl, by decide⟩, ⟨_, rfl, by decide⟩, ⟨_, rfl, by decide⟩⟩

theorem witness_load_after_store : ∃ t, exec (.stx .i0 (.amount 1) (.data .a0)) sX = .next t := ⟨_, rfl⟩

/-- For DoubleMoveResults: moves that go together, a clash, a shared device, a move that stops on X and one on Y. -/
theorem witness_double_moves :
    fullWrites sX .x ⟨false, .i0, .amount 1, .data .b1⟩ = .ok wX ∧
    fullWrites sX .y ⟨true, .i2, .amount 1, .lr0⟩ = .ok [.mem .y 0 0, .index .i2 1] ∧
    noClash [] (wX ++ [.mem .y 0 0, .index .i2 1]) = true ∧
    fullWrites (inY sX 16 5) .y ⟨false, .i0, .amount 1, .data .a0⟩ = .ok [.data .a0 5, .index .i0 17] ∧
    noClash [] (wX ++ [.data .a0 5, .index .i0 17]) = false ∧
    (∃ e, fullWrites (sMap.setIndex .i0 4) .x ⟨false, .i0, .amount 0, .lr0⟩ = .error e) ∧
    (∃ e, fullWrites sMap .y ⟨true, .i0, .amount 0, .lr0⟩ = .error e) ∧
    shortAsFull ⟨false, .i0, true, .a0⟩ = ⟨false, .i0, .star, .data .a0⟩ :=
  ⟨rfl, rfl, by decide, rfl, by decide, ⟨_, rfl⟩, ⟨_, rfl⟩, rfl⟩

theorem witness_code_moves : s0.regs.ipr0 = 0#16 ∧ { s0 with regs.ipr0 := 1 }.regs.ipr0 ≠ 0#16 ∧
    s0.codeKind 0xFFFF#32 = some .ram ∧ nextIndex s0 .x .i0 .star = .ok 0 := ⟨rfl, by decide, rfl, rfl⟩

/-- For StarLinear: the ends of the two ranges of linear modifiers. -/
theorem witness_star_linear : (0x0000#16).extractLsb' 13 3 = 0b000#3 ∧ (0x1FFF#16).extractLsb' 13 3 = 0b000#3 ∧
    (0xE000#16).extractLsb' 13 3 = 0b111#3 ∧ (0xFFFF#16).extractLsb' 13 3 = 0b111#3 := by decide

/-- For StarModulo, a buffer of 5 words at 0x100: the last offset, steps up and down; and a step as long as its buffer of
64 words. -/
theorem witness_star_modulo : s0.plat.amm.getLsbD 0 = true ∧ (0x8004#16).extractLsb' 13 3 = 0b100#3 ∧
    ((0x8004#16).extractLsb' 0 13).toNat + 1 = 5 ∧ (0xA004#16).extractLsb' 13 3 = 0b101#3 ∧ 5 ≤ 2 ^ 3 ∧ ¬ 5 ≤ 2 ^ 2 ∧
    0x104 % 2 ^ 3 < 5 ∧ (0x303F#16).extractLsb' 13 3 = 0b001#3 ∧ ((0x303F#16).extractLsb' 6 7).toInt = -64 ∧
    ((0x303F#16).extractLsb' 0 6).toNat + 1 = 64 ∧ (0x5000#16).extractLsb' 13 3 = 0b010#3 ∧
    ((0x5000#16).extractLsb' 6 8).toInt = 64 ∧ ((0x5000#16).extractLsb' 0 6).toNat * 64 + 64 = 64 ∧
    (0x6FC0#16).extractLsb' 13 3 = 0b011#3 ∧ ((0x6FC0#16).extractLsb' 6 8).toInt = -65 := by decide

theorem witness_star_bit_reverse : s0.plat.amm.getLsbD 1 = true ∧ (0xC020#16).extractLsb' 13 3 = 0b110#3 ∧
    2 ^ 5 ≤ ((0xC020#16).extractLsb' 0 13).toNat ∧ ((0xC020#16).extractLsb' 0 13).toNat < 2 ^ (5 + 1) ∧
    ((0xC000#16).extractLsb' 0 13).toNat = 0 := by decide

/-- For DisabledModeStops: the modes 1, 5 and 6; accesses found on X and Y, of LDI and of STI; a move on X that does not
stop before one on Y that does. -/
theorem witness_disabled_modes : sMap.plat.amm.getLsbD 0 = false ∧ sMap.plat.amm.getLsbD 1 = false ∧
    ((0x2000#16).extractLsb' 13 3).toNat = 1 ∧ ((0xA000#16).extractLsb' 13 3).toNat = 5 ∧
    ((0xC000#16).extractLsb' 13 3).toNat = 6 ∧
    (∃ ws, transfer (sMap.setIndex .i0 2) .x 2#32 true .lr0 = .ok ws) ∧
    (∃ ws, transfer (sMap.setIndex .i0 2) .y 2#32 false (.data .a1) = .ok ws) ∧
    (∃ us, fullWrites (sMap.setIndex .i2 2) .x ⟨false, .i2, .amount 1, .data .b1⟩ = .ok us) ∧
    (shortAsFull ⟨true, .i0, true, .a0⟩).p = .star ∧ sMap.regs.ipr0 = 0#16 ∧
    (∃ ws, ibusAccess sMap false 0#32 .a = .ok ws) ∧ ∃ ws, ibusAccess sMap true 2#32 .a = .ok ws :=
  ⟨by decide, by decide, by decide, by decide, by decide, ⟨_, rfl⟩, ⟨_, rfl⟩, ⟨_, rfl⟩, rfl, rfl, ⟨_, rfl⟩, _, rfl⟩

theorem witness_loop : MoveReg.le.countable = true ∧ MoveReg.ipr0.countable = false := by decide

/-- For HaltWaits: a core that waits with no event, and with a request it is not shown. -/
theorem witness_halt : s0.irq = none ∧ { s0 with irq := some 0 }.irq ≠ none ∧ nextEvent s0 = .idle ∧
    0 < { s0 with intDisable := 1 }.intDisable ∧ nextEvent { s0 with events := [.request 31] } = .request 31 := by decide

/-- For ReservedFormsRefused, DoubleWriteStops and CarriedMoveStops: operands on both sides, a move into the result
register, two moves into one register, a move that stops. -/
theorem witness_stops : AluOp.reg .a0 ≠ .p ∧ ((AluOp.reg .a0).isWide || (AluOp.acc .a).isWide) = true ∧
    DataReg.a0.wideAcc = none ∧ alu2Ok (.acc .a) .p .b1 = true ∧ noClash (resultPlaces true .b1) wX = false ∧
    alu2Ok (.reg .a0) .null .b1 = true ∧ noClash (resultPlaces false .b1) wX = false ∧ resultOk true .b1 = true ∧
    noClash (result16Places .b1) wX = false ∧
    parWrites (inY (inX s0 0 6) 0 5) (.short ⟨false, .i0, false, .a0⟩ ⟨false, .i0, false, .a0⟩) =
      .ok [.data .a0 6, .data .a0 5] ∧
    noClash [] [.data .a0 6, .data .a0 5] = false ∧ ∃ e, parWrites sMap (.mv .nop .lr0) = .error e :=
  ⟨by decide, by decide, rfl, by decide, by decide, by decide, by decide, by decide, by decide, rfl, by decide, _, rfl⟩

/-- For InstructionFrame, LoopFlagCleared and SignExtendsIntoGuard. -/
theorem witness_frame : (∃ t, exec (.add (.reg .a0) .ones .a1 void) s0 = .next t) ∧
    (∃ t, exec (.loop .ls 0x4010) s0 = .next t) ∧
    (∃ t, exec (.jmpi 0x4100 .inc .i6) s0 = .next t) ∧ (∃ t, exec (.ldc 0x8000 (.data .a1)) s0 = .next t) ∧
    (∃ t, exec (.mv .lr0 (.data .d0)) s0 = .next t) ∧ (∃ t, exec (.ldx .i0 .star (.data .b1)) s0 = .next t) ∧
    (∃ t, exec (.ldy .i0 (.amount 0) (.data .c1)) s0 = .next t) ∧ ∃ t, exec .halt s0 = .next t :=
  ⟨⟨_, rfl⟩, ⟨_, rfl⟩, ⟨_, rfl⟩, ⟨_, rfl⟩, ⟨_, rfl⟩, ⟨_, rfl⟩, ⟨_, rfl⟩, _, rfl⟩

theorem witness_well_formed_never_refused : (Instr.sat .p .a1 loadB1).wellFormed = true := by decide

/-- The word `w` at 0:0x4000, the address after reset. -/
def at4000 (w : Nat) : State := s0.withFetchWord 32 w

/-- For StepRunsDecodedInstruction: an instruction that completes, one that breaks a restriction, one whose meaning
stops, one that is refused, a loop hazard, a word that decodes to nothing, an absent address. -/
theorem witness_step : nextEvent (at4000 0xF4000024) = .idle ∧ Runs (dropEvent (at4000 0xF4000024)) (.nop void) ∧
    sequenceFault (.nop void) (dropEvent (at4000 0xF4000024)) = none ∧
    (∃ t, exec (.nop void) (clearPending (at4000 0xF4000024)) = .next t ∧
      loopHazard (.nop void) (dropEvent (at4000 0xF4000024)) t = false) ∧
    sequenceFault (.nop void) { s0 with atVector := true } = some .vectorNotJmpi ∧
    exec (.ldx .i0 (.amount 1) (.index .i0)) s0 = .fault .doubleWrite ∧
    (∃ r, exec (.mv .nop .lr0) s0 = .refused r) ∧
    loopHazard (.ldc 7 .lc) { s0 with regs.le := 0x4000 } { s0 with regs.le := 0x4000 } = true ∧
    decode 0xE0000000#32 = .error .opcode1110 ∧ (at4000 0).halted = false ∧ entryDue (at4000 0) = none ∧
    sMap.codeKind sMap.fetchAddr = none :=
  ⟨rfl, ⟨rfl, rfl, _, rfl, rfl⟩, rfl, ⟨_, rfl, rfl⟩, rfl, rfl, ⟨_, rfl⟩, rfl, rfl, rfl, rfl, rfl⟩

/-- What R51 keeps of an STI at page-zero address 0x4000 and of an ALU instruction. -/
def past (i : Instr) : Past := pastOf i (s0.setIndex .i0 0x4000)

/-- A state with no event is at its boundary with that taken off. -/
theorem atBoundary_idle {s : State} (h : nextEvent s = .idle) : AtBoundary s (dropEvent s) := .inl ⟨h, rfl⟩

/-- For DelaySlotThenTarget: a NOP in the delay slot of a jump to 0xFFFF, with no event and with a request held back. -/
theorem witness_delay_slot :
    (∃ t, Executes { at4000 0xF4000024 with pending := some ⟨0xFFFF, some 2⟩ } (.nop void) t) ∧
    let s :=
      { at4000 0xF4000024 with
        pending := some ⟨0xFFFF, none⟩, prev := some (past (.jcc 0 .cs)), events := [.request 3] }
    ∃ u t, AtBoundary s u ∧ Executes u (.nop void) t ∧ u.irq = some 3 ∧ u.pending = some ⟨0xFFFF, none⟩ :=
  ⟨⟨_, ⟨rfl, rfl, _, rfl, rfl⟩, rfl, rfl, rfl⟩,
    ⟨_, _, .inr ⟨3, rfl, rfl⟩, ⟨⟨rfl, rfl, _, rfl, rfl⟩, rfl, rfl, rfl⟩, rfl, rfl⟩⟩

/-- For StepRunsDecodedInstruction, LoopEndAndAdvance and ForbiddenSequencesStop: an instruction that runs in a step whose
request is not presented, interrupts being disabled. -/
theorem witness_request_refused :
    let s := { at4000 0xF4000024 with intDisable := 1, events := [.request 3] }
    ∃ u t, AtBoundary s u ∧ Executes u (.nop void) t ∧ u.irq = none ∧ u.pending = none :=
  ⟨_, _, .inr ⟨3, rfl, rfl⟩, ⟨⟨rfl, rfl, _, rfl, rfl⟩, rfl, rfl, rfl⟩, rfl, rfl⟩

/-- For LoopEndAndAdvance: at LE with LC = 1 and LC = 0, elsewhere, and at 0xFFFF. -/
theorem witness_loop_end :
    (∃ t, Executes { at4000 0xF4000024 with regs.le := 0x4000, regs.lc := 1 } (.nop void) t ∧
      t.regs.pc = t.regs.le ∧ t.flagL = false ∧ t.regs.lc ≠ 0#16) ∧
    (∃ t, Executes { at4000 0xF4000024 with regs.le := 0x4000 } (.nop void) t ∧ t.regs.lc = 0#16) ∧
    (∃ t, Executes (at4000 0xF4000024) (.nop void) t ∧ t.regs.pc ≠ t.regs.le) ∧
    ∃ t, Executes { s0 with regs.pc := 0xFFFF, imem := Memory.write32 [] 0xFFFF 0xF4000024 } (.nop void) t ∧
      t.regs.pc = 0xFFFF#16 :=
  ⟨⟨_, ⟨⟨rfl, rfl, _, rfl, rfl⟩, rfl, rfl, rfl⟩, by decide, by decide, by decide⟩,
    ⟨_, ⟨⟨rfl, rfl, _, rfl, rfl⟩, rfl, rfl, rfl⟩, by decide⟩,
    ⟨_, ⟨⟨rfl, rfl, _, rfl, rfl⟩, rfl, rfl, rfl⟩, by decide⟩,
    ⟨_, ⟨⟨rfl, rfl, _, rfl, rfl⟩, rfl, rfl, rfl⟩, by decide⟩⟩

/-- For ForbiddenSequencesStop: a jump at LE and just before it, JMPI there with L = 0, the second of two jumps, a jump
after LDI, a conditional jump after ADD, the word an STI wrote, a vector that is no JMPI. -/
theorem witness_forbidden :
    Runs { at4000 0x28104005 with regs.le := 0x4000 } (.jcc 0x4100 .zs) ∧
    (0x4000#16) + 1#16 = 0x4001#16 ∧ isCof (.jcc 0x4100 .zs) = true ∧ isJmpi (.jmpi 0x4100 .keep .i0) = true ∧
    s0.flagL = false ∧ (past (.jcc 0x4100 .zs)).delayedCof = true ∧ (past (.ldi .i0 (.amount 0) .a)).usedIbus = true ∧
    (past (.add .null .null .a0 void)).wroteFlags = true ∧ condOf (.jcc 0x4100 .zs) = some .zs ∧ Cond.zs ≠ .always ∧
    (past (.sti .i0 (.amount 0) .a)).stiAddr = some 0x4000#16 ∧
    Runs { at4000 0xF4000024 with atVector := true } (.nop void) :=
  ⟨⟨rfl, rfl, _, rfl, rfl⟩, by decide, rfl, rfl, rfl, rfl, rfl, rfl, rfl, by decide, rfl, ⟨rfl, rfl, _, rfl, rfl⟩⟩

/-- For ForbiddenSequencesStop: LDC into LC at the loop end lies in the window of R331, NOP there after an instruction that
does not touch the loop does not, and its step leaves a record. -/
theorem witness_loop_window :
    (let s := { at4000 0x000001CD with regs.le := 0x4000 }
     ∃ t, exec (.ldc 7 .lc) (clearPending s) = .next t ∧ loopHazard (.ldc 7 .lc) s t = true) ∧
    (let s := { at4000 0xF4000024 with regs.le := 0x4000, prev := some (past (.nop void)) }
     ∃ t v, exec (.nop void) (clearPending s) = .next t ∧ loopHazard (.nop void) s t = false ∧ step s = .next v) :=
  ⟨⟨_, rfl, rfl⟩, _, _, rfl, rfl, rfl⟩

/-- The record of a register move into LE is what makes the test two instructions later suppressed (R271). -/
theorem test_record_loop_write : (past (.mv .lr0 .le)).busLoopWrite = true ∧ (past (.ldc 0 .le)).busLoopWrite = false ∧
    (past (.mv .lc .lr0)).touchedLoop = true ∧ (past (.mul .ss .a0 .a0 void)).wroteFlags = false := by decide

/-- For InterruptEntry: sources 0 and 31; and directly after a JMPI of normal code. -/
theorem witness_interrupt : nextEvent { s0 with irq := some 31 } = .idle ∧ { s0 with irq := some 31 }.halted = false ∧
    { s0 with irq := some 31 }.wake = 0 ∧ prevIs { s0 with irq := some 0 } Past.delayedCof = false ∧
    prevIs { s0 with irq := some 0 } Past.plainJmpi = false ∧
    prevIs { s0 with prev := some (past (.jmpi 0 .keep .i0)) } Past.delayedCof = false ∧
    prevIs { s0 with prev := some (past (.jmpi 0 .keep .i0)) } Past.plainJmpi = true := by decide

/-- For InterruptEntry: a request that a running core takes at once. -/
theorem witness_interrupt_now :
    let s := { s0 with events := [.request 5] }
    nextEvent s = .request 5 ∧ s.halted = false ∧ s.intDisable = 0 ∧ s.irq = none ∧ s.wake = 0 ∧
      prevIs s Past.delayedCof = false ∧ prevIs s Past.plainJmpi = false ∧
      ∃ u, AtBoundary s u ∧ u.halted = false ∧ u.irq = some 5 ∧ u.wake = 0 :=
  ⟨rfl, rfl, rfl, rfl, rfl, rfl, rfl, _, .inr ⟨5, rfl, rfl⟩, rfl, rfl, rfl⟩

/-- A second request before the vector's JMPI is entered with the vector as its return address (log 52). -/
theorem test_second_entry :
    (let t := next { s0 with regs.pc := 0x21, atVector := true, events := [.request 5] }
     t.regs.lr1 == 0x21 && t.regs.pc == 0x25 && t.atVector) = true := by decide

/-- For RequestLatchesAndWakes: a waiting core, its request and the instruction it then executes. -/
theorem witness_wake :
    let s := { at4000 0xF4000024 with halted := true, events := [.request 3] }
    nextEvent s = .request 3 ∧ s.halted = true ∧ s.intDisable = 0 ∧ s.irq = none ∧
      (let u := presentRequest 3 (dropEvent s)
       NextIs u (.nop void) ∧ sequenceFault (.nop void) u = none ∧
        ∃ t v, exec (.nop void) (clearPending u) = .next t ∧ retire (.nop void) u t = .ok v) ∧
      ({ s0 with intDisable := 1 }.intDisable ≠ 0 ∨ s0.irq ≠ none) :=
  ⟨rfl, rfl, rfl, rfl, ⟨⟨_, rfl, rfl⟩, rfl, _, _, rfl, rfl⟩, by decide⟩

theorem witness_reset : nextEvent { s0 with events := [.reset] } = .reset := by decide

/-- Reset takes the vector and the disable count of the platform (R9), and the devices see it. -/
theorem test_reset_vector : (next { sMap with regs.pc := 5, intDisable := 0, events := [.reset] }).regs.pc = 0x10 ∧
    (next { sMap with intDisable := 0, events := [.reset] }).intDisable = 1 ∧
    (next { sMap with events := [.reset] }).devices = [.reset] := by decide

/-- A store to a device and a load from it are seen in their order; the answer depends on what came before (R68). -/
theorem test_device : ∃ t u, exec (.stx .i0 (.amount 0) .lr0) ({ sMap with regs.lr0 := 9 }.setIndex .i0 1) = .next t ∧
    exec (.ldy .i0 (.amount 0) .lr1) t = .next u ∧ u.devices = [.read 7 .y 1, .write 7 .x 1 9] ∧
    u.regs.lr1 = (Config.deviceWord 7 [.write 7 .x 1 9] 0 .y 1).extractLsb' 0 16 := ⟨_, _, rfl, rfl, rfl, rfl⟩

/-- For ResetInv: initial contents in canonical form. -/
theorem witness_boot : (Memory.write16 [] 3 7).wf = true ∧ (Memory.write32 [] 0x4000 7).wf = true := by decide

/-- For StepKeepsInv: a state with a program in it. -/
theorem witness_inv : Inv (at4000 0xF4000024) ∧ ∃ t, step (at4000 0xF4000024) = .next t :=
  ⟨⟨by decide, by decide, by decide, by decide, by decide, by decide, by decide, by decide, (by intro h; cases h), by decide⟩,
    _, rfl⟩

/-- For PageWriters: each of the four writers. -/
theorem witness_page :
    (∃ t, step { s0 with regs.ipr0 := 1, events := [.reset] } = .next t ∧ t.regs.ipr0 ≠ 1) ∧
    (∃ t, step { s0 with regs.ipr0 := 1, irq := some 2 } = .next t ∧ t.regs.ipr0 ≠ 1) ∧
    (∃ t, step (State.withFetchWord { s0 with regs.ipr0 := 1 } 32 0x2A104006) = .next t ∧ t.regs.ipr0 ≠ 1) ∧
    ∃ t, step { at4000 0xF4000024 with pending := some ⟨0, some 5⟩ } = .next t ∧ t.regs.ipr0 ≠ 0 :=
  ⟨⟨_, rfl, by decide⟩, ⟨_, rfl, by decide⟩, ⟨_, rfl, by decide⟩, ⟨_, rfl, by decide⟩⟩

/-- For LoopFlagSetters: interrupt entry and LDC into MR0. -/
theorem witness_loop_flag : s0.flagL = false ∧ (∃ t, step { s0 with irq := some 2 } = .next t ∧ t.flagL = true) ∧
    ∃ t, step (at4000 0x0000200A) = .next t ∧ t.flagL = true :=
  ⟨rfl, ⟨_, rfl, by decide⟩, ⟨_, rfl, by decide⟩⟩

/-- For CodeWrittenBySti: STI of a word that differs. -/
theorem witness_code_written :
    ∃ t, step ((at4000 0xF4005641).setData .b0 1) = .next t ∧ t.imem ≠ (at4000 0xF4005641).imem := ⟨_, rfl, by decide⟩

/-- For ProductWriters: RESP. -/
theorem witness_product : ∃ t, step ((at4000 0x22100000).setData .a0 1) = .next t ∧ t.regs.p ≠ 0 :=
  ⟨_, rfl, by decide⟩

theorem witness_multi_word : s0.flagS = false ∧ void.isVoid = true ∧ DataReg.c0 ≠ .a1 ∧ DataReg.c0 ≠ .b1 ∧
    DataReg.c0 ≠ .c1 := by decide

end Sys2Proof.Machine.Tests
end

section
/-! The flags, the words and the completion of the ALU formats, and from them the statements about AND, OR, XOR, NOT and
the right shifts by one (40_alu.md R140 to R149). -/

namespace Sys2Proof

/-! ## Words of the ALU formats -/

/-- Format ALU2 is read back, whatever the opcode (R83). -/
theorem decodeAlu2_encodeAlu2 (make : AluOp → AluOp → DataReg → ParMove → Instr) (opcode : BitVec 4) {op1 : AluOp}
    (op2 : AluOp) (dst : DataReg) {m : ParMove} (h1 : op1 ≠ .p) (hm : m.ok = true) :
    decodeAlu2 make (encodeAlu2 opcode op1 op2 dst m) = .ok (make op1 op2 dst m) := by
  simp (disch := decide) only [decodeAlu2, encodeAlu2, bits_append_low, bits_append_high, bits_self, Nat.reduceSub,
    decodeAluOp1_code op1 h1, decodeAluOp2_code, decodeParMove_encodeParMove m hm, decodeDataReg_code, bind, Except.bind]

/-- Format ALU1 is read back, whatever the single-operand code (R84). -/
theorem decodeAlu1_encodeAlu1 (make : AluOp → DataReg → ParMove → Instr) (single : BitVec 4) (op2 : AluOp)
    (dst : DataReg) {m : ParMove} (hm : m.ok = true) :
    decodeAlu1 make (encodeAlu1 single op2 dst m) = .ok (make op2 dst m) := by
  simp (disch := decide) only [decodeAlu1, encodeAlu1, bits_append_low, bits_append_high, bits_self, Nat.reduceSub,
    decodeAluOp2_code, decodeParMove_encodeParMove m hm, decodeDataReg_code, bind, Except.bind]

theorem bits_opcode_encodeAlu2 (opcode : BitVec 4) (op1 op2 : AluOp) (dst : DataReg) (m : ParMove) :
    bits (encodeAlu2 opcode op1 op2 dst m) 28 4 = opcode := by
  simp (disch := decide) only [encodeAlu2, bits_append_high, bits_self, Nat.reduceSub]

theorem bits_opcode_encodeAlu1 (single : BitVec 4) (op2 : AluOp) (dst : DataReg) (m : ParMove) :
    bits (encodeAlu1 single op2 dst m) 28 4 = 0b1111#4 := by
  simp (disch := decide) only [encodeAlu1, bits_append_high, bits_self, Nat.reduceSub]

theorem bits_single_encodeAlu1 (single : BitVec 4) (op2 : AluOp) (dst : DataReg) (m : ParMove) :
    bits (encodeAlu1 single op2 dst m) 24 4 = single := by
  simp (disch := decide) only [encodeAlu1, bits_append_low, bits_append_high, bits_self, Nat.reduceSub]

theorem decode_encodeAlu1 (single : BitVec 4) (op2 : AluOp) (dst : DataReg) (m : ParMove) :
    decode (encodeAlu1 single op2 dst m) = decodeSingle (encodeAlu1 single op2 dst m) := by
  simp [decode, bits_opcode_encodeAlu1]

theorem decode_and {op1 : AluOp} (op2 : AluOp) (dst : DataReg) {m : ParMove} (h1 : op1 ≠ .p) (hm : m.ok = true) :
    decode (encode (.and op1 op2 dst m)) = .ok (.and op1 op2 dst m) := by
  simp [encode, decode, bits_opcode_encodeAlu2, decodeAlu2_encodeAlu2, h1, hm]

theorem decode_or {op1 : AluOp} (op2 : AluOp) (dst : DataReg) {m : ParMove} (h1 : op1 ≠ .p) (hm : m.ok = true) :
    decode (encode (.or op1 op2 dst m)) = .ok (.or op1 op2 dst m) := by
  simp [encode, decode, bits_opcode_encodeAlu2, decodeAlu2_encodeAlu2, h1, hm]

theorem decode_xor {op1 : AluOp} (op2 : AluOp) (dst : DataReg) {m : ParMove} (h1 : op1 ≠ .p) (hm : m.ok = true) :
    decode (encode (.xor op1 op2 dst m)) = .ok (.xor op1 op2 dst m) := by
  simp [encode, decode, bits_opcode_encodeAlu2, decodeAlu2_encodeAlu2, h1, hm]

theorem decode_asr (op2 : AluOp) (dst : DataReg) {m : ParMove} (hm : m.ok = true) :
    decode (encode (.asr op2 dst m)) = .ok (.asr op2 dst m) := by
  simp [encode, decode_encodeAlu1, decodeSingle, bits_single_encodeAlu1, decodeAlu1_encodeAlu1, hm]

theorem decode_lsr (op2 : AluOp) (dst : DataReg) {m : ParMove} (hm : m.ok = true) :
    decode (encode (.lsr op2 dst m)) = .ok (.lsr op2 dst m) := by
  simp [encode, decode_encodeAlu1, decodeSingle, bits_single_encodeAlu1, decodeAlu1_encodeAlu1, hm]

theorem decode_lsrc (op2 : AluOp) (dst : DataReg) {m : ParMove} (hm : m.ok = true) :
    decode (encode (.lsrc op2 dst m)) = .ok (.lsrc op2 dst m) := by
  simp [encode, decode_encodeAlu1, decodeSingle, bits_single_encodeAlu1, decodeAlu1_encodeAlu1, hm]

end Sys2Proof

namespace Sys2Proof.Machine

/-! ## The flags of a result -/

/-- Bits 39..31 of a 40-bit number are equal exactly when it is a signed 32-bit number (R43, R134). -/
theorem extFlag_wide (r : Wide) : extFlag r = !fits 32 r.toInt := by
  have htop : (r.extractLsb' 31 9).toNat = r.toNat / 2 ^ 31 := by
    rw [BitVec.extractLsb'_toNat, Nat.shiftRight_eq_div_pow, Nat.mod_eq_of_lt (by omega)]
  have hval := BitVec.toInt_eq_toNat_cond r
  have hequal : (r.toNat / 2 ^ 31 = 0 ∨ r.toNat / 2 ^ 31 = 0x1FF) ↔
      -(2 ^ (32 - 1)) ≤ r.toInt ∧ r.toInt < 2 ^ (32 - 1) := by
    split at hval <;> omega
  simp only [extFlag, fits, ← BitVec.toNat_inj, htop, ← hequal, BitVec.toNat_ofNat, Nat.zero_mod, Nat.reducePow,
    Nat.reduceMod, Bool.decide_or, decide_true, Bool.true_and]

theorem flagsOf_narrow (o : AluOut 16) : flagsOf o = flags16 o.r o.v o.c := by
  simp [flagsOf, flags16, extFlag, ← BitVec.toNat_inj, BitVec.msb_eq_toInt]

theorem flagsOf_wide (o : AluOut 40) : flagsOf o = flags40 o.r o.v o.c := by
  simp [flagsOf, flags40, extFlag_wide, ← BitVec.toNat_inj, BitVec.msb_eq_toInt]

/-! ## A two-operand or single-operand operation beside a move that completes

The operation's result, V and C are given as `r`, `v`, `c` in the form the statement wants them. -/

section
variable {op1 op2 : AluOp} {dst : DataReg} {x : AccName} {m : ParMove} {s : State} {mw : List Write} {v c : Bool}

theorem runWith_alu2_narrow {f : (w : Nat) → BitVec w → BitVec w → AluOut w} {r : Word} (hm : parWrites s m = .ok mw)
    (h1 : op1.isWide = false) (h2 : op2.isWide = false) (hc : noClash (result16Places dst) mw = true)
    (ho : f 16 (val16 s op1) (val16 s op2) = ⟨r, v, c⟩) :
    runWith (alu2 f op1 op2 dst s) m s = .next (commit mw (putFlags (putData s dst r) (flags16 r v c))) := by
  rw [alu2_narrow h1 h2, runWith_result16 hm hc, flagsOf_narrow, ho]

theorem runWith_alu2_wide {f : (w : Nat) → BitVec w → BitVec w → AluOut w} {r : Wide} (hm : parWrites s m = .ok mw)
    (hp : op1 ≠ .p) (hw : (op1.isWide || op2.isWide) = true) (hx : dst.wideAcc = some x)
    (hc : noClash (accPlaces x) mw = true) (ho : f 40 (val40 s op1) (val40 s op2) = ⟨r, v, c⟩) :
    runWith (alu2 f op1 op2 dst s) m s = .next (commit mw (putFlags (putAcc s x r) (flags40 r v c))) := by
  rw [alu2_wide hp hw, runWith_result40 hx hm hc, flagsOf_wide, ho]

theorem runWith_alu1_narrow {f : (w : Nat) → BitVec w → AluOut w} {r : Word} (hm : parWrites s m = .ok mw)
    (h2 : op2.isWide = false) (hc : noClash (result16Places dst) mw = true) (ho : f 16 (val16 s op2) = ⟨r, v, c⟩) :
    runWith (alu1 f op2 dst s) m s = .next (commit mw (putFlags (putData s dst r) (flags16 r v c))) := by
  rw [alu1_narrow h2, runWith_result16 hm hc, flagsOf_narrow, ho]

theorem runWith_alu1_wide {f : (w : Nat) → BitVec w → AluOut w} {r : Wide} (hm : parWrites s m = .ok mw)
    (h2 : op2.isWide = true) (hx : dst.wideAcc = some x) (hc : noClash (accPlaces x) mw = true)
    (ho : f 40 (val40 s op2) = ⟨r, v, c⟩) :
    runWith (alu1 f op2 dst s) m s = .next (commit mw (putFlags (putAcc s x r) (flags40 r v c))) := by
  rw [alu1_wide h2, runWith_result40 hx hm hc, flagsOf_wide, ho]

end

/-! ## The right shifts by one in integers -/

/-- The bit that leaves a right shift by one says whether the operand is odd. -/
theorem getLsbD_zero_eq_odd {w : Nat} (a : BitVec w) : a.getLsbD 0 = decide (a.toNat % 2 = 1) :=
  Nat.testBit_zero a.toNat

/-- ASR halves the signed number, rounding down (R147). -/
theorem asrOut_eq {w : Nat} (a : BitVec w) :
    asrOut w a = ⟨BitVec.ofInt w (a.toInt / 2), false, decide (a.toNat % 2 = 1)⟩ := by
  rw [asrOut, getLsbD_zero_eq_odd, BitVec.sshiftRight, Int.shiftRight_eq_div_pow]
  rfl

theorem ushiftRight_one_eq {w : Nat} (a : BitVec w) : a >>> 1 = BitVec.ofNat w (a.toNat / 2) := by
  apply BitVec.eq_of_toNat_eq
  rw [BitVec.toNat_ushiftRight, Nat.shiftRight_eq_div_pow, BitVec.toNat_ofNat, Nat.mod_eq_of_lt (by omega)]

/-- LSR halves the unsigned number (R148). -/
theorem lsrOut_eq {w : Nat} (a : BitVec w) :
    lsrOut w a = ⟨BitVec.ofNat w (a.toNat / 2), false, decide (a.toNat % 2 = 1)⟩ := by
  rw [lsrOut, getLsbD_zero_eq_odd, ushiftRight_one_eq]

/-- LSRC halves the unsigned number and puts C above it: the half leaves the top bit free (R149). -/
theorem lsrcOut_eq (carry : Bool) {w : Nat} (hw : 0 < w) (a : BitVec w) :
    lsrcOut carry w a =
      ⟨BitVec.ofNat w (a.toNat / 2 + carry.toNat * 2 ^ (w - 1)), false, decide (a.toNat % 2 = 1)⟩ := by
  have hpow : 2 ^ w = 2 ^ (w - 1) * 2 := by rw [← Nat.pow_succ, Nat.succ_eq_add_one, Nat.sub_add_cancel hw]
  have hhalf : a.toNat / 2 < 2 ^ (w - 1) := by omega
  have hr : (a >>> 1) ||| (BitVec.ofNat w carry.toNat <<< (w - 1)) =
      BitVec.ofNat w (a.toNat / 2 + carry.toNat * 2 ^ (w - 1)) := by
    have htop : BitVec.ofNat w carry.toNat <<< (w - 1) = BitVec.ofNat w (2 ^ (w - 1) * carry.toNat) := by
      apply BitVec.eq_of_toNat_eq
      simp [Nat.shiftLeft_eq, Nat.mul_comm]
    rw [ushiftRight_one_eq, htop, ← BitVec.ofNat_or, Nat.or_comm, ← Nat.two_pow_add_eq_or_of_lt hhalf, Nat.add_comm,
      Nat.mul_comm]
  rw [lsrcOut, getLsbD_zero_eq_odd, hr]

end Sys2Proof.Machine

/-! ## The statements -/

section
open Sys2Proof Sys2Proof.Machine

/-- Settles O11: the words by format ALU2, NOT's being XOR's with ONES; each operation at its width, with the V and C of
`logicOut`. -/
theorem logicResults : Obligations.LogicResults := by
  intro op1 op2 dst m
  refine ⟨fun h1 hm => ?words, fun s mw hmw =>
    ⟨fun h1 h2 hc => ?narrow, fun x hx hc => ⟨fun hp hw => ?wide, fun h2 => ?wideNot⟩⟩⟩
  case words =>
    exact ⟨decode_and op2 dst h1 hm, decode_or op2 dst h1 hm, decode_xor op2 dst h1 hm,
      decode_xor (op1 := .ones) op2 dst (by decide) hm⟩
  case narrow =>
    exact ⟨runWith_alu2_narrow hmw h1 h2 hc rfl, runWith_alu2_narrow hmw h1 h2 hc rfl,
      runWith_alu2_narrow hmw h1 h2 hc rfl, runWith_alu1_narrow hmw h2 hc rfl⟩
  case wide =>
    exact ⟨runWith_alu2_wide hmw hp hw hx hc rfl, runWith_alu2_wide hmw hp hw hx hc rfl,
      runWith_alu2_wide hmw hp hw hx hc rfl⟩
  case wideNot => exact runWith_alu1_wide hmw h2 hx hc rfl

/-- Settles O12: the words by format ALU1; each shift at its width, its result read as an integer by `asrOut_eq`,
`lsrOut_eq` and `lsrcOut_eq`. -/
theorem shiftRightOneResults : Obligations.ShiftRightOneResults := by
  intro op2 dst m
  refine ⟨fun hm => ?words, fun s mw hmw => ⟨fun h2 hc => ?narrow, fun h2 x hx hc => ?wide⟩⟩
  case words => exact ⟨decode_asr op2 dst hm, decode_lsr op2 dst hm, decode_lsrc op2 dst hm⟩
  case narrow =>
    exact ⟨runWith_alu1_narrow hmw h2 hc (asrOut_eq _), runWith_alu1_narrow hmw h2 hc (lsrOut_eq _),
      runWith_alu1_narrow hmw h2 hc (lsrcOut_eq _ (by decide) _)⟩
  case wide =>
    exact ⟨runWith_alu1_wide hmw h2 hx hc (asrOut_eq _), runWith_alu1_wide hmw h2 hx hc (lsrOut_eq _),
      runWith_alu1_wide hmw h2 hx hc (lsrcOut_eq _ (by decide) _)⟩

end
end

section
/-! The word of RESP, and that P changes only where a step writes it: no meaning but those of MUL, MAC, MSU and RESP has
P among its places, and nothing that a step does around the meaning has (41_multiplier.md R191, R192). -/

namespace Sys2Proof

/-! ## The word of RESP -/

/-- RESP is read from its first eight bits and its two operand fields, the rest of the word ignored (R191). -/
theorem decode_resp (op1 op2 : DataReg) (g : BitVec 1) (h : BitVec 17) :
    decode (0b00100010#8 ++ g ++ op2.code ++ op1.code ++ h) = .ok (.resp op1 op2) := by
  have hopcode : bits (0b00100010#8 ++ g ++ op2.code ++ op1.code ++ h) 28 4 = 2#4 := by
    simp (disch := decide) only [bits_append_high, Nat.reduceSub]
    rfl
  have hcontrol : bits (0b00100010#8 ++ g ++ op2.code ++ op1.code ++ h) 24 4 = 2#4 := by
    simp (disch := decide) only [bits_append_high, Nat.reduceSub]
    rfl
  have hop1 : bits (0b00100010#8 ++ g ++ op2.code ++ op1.code ++ h) 17 3 = op1.code := by
    simp (disch := decide) only [bits_append_high, bits_append_low, Nat.reduceSub, bits_self]
  have hop2 : bits (0b00100010#8 ++ g ++ op2.code ++ op1.code ++ h) 20 3 = op2.code := by
    simp (disch := decide) only [bits_append_high, bits_append_low, Nat.reduceSub, bits_self]
  simp [decode, decodeControl, hopcode, hcontrol, hop1, hop2]

end Sys2Proof

namespace Sys2Proof.Machine

/-! ## The instructions with P among their places -/

theorem prod_notMem_targetPlaces (r : MoveReg) : Place.prod ∉ targetPlaces r :=
  fun h => (targetPlaces_plain h).2 rfl

theorem prod_notMem_movePlaces (s : State) (m : ParMove) : Place.prod ∉ movePlaces s m :=
  fun h => (movePlaces_plain h).2 rfl

/-- A full move standing alone is the parallel move of that form. -/
theorem prod_notMem_fullPlaces (s : State) (b : Bus) (f : FullMove) : Place.prod ∉ fullPlaces s b f :=
  prod_notMem_movePlaces s (.full b f)

theorem prod_notMem_resultPlaces (wide : Bool) (dst : DataReg) : Place.prod ∉ resultPlaces wide dst := by
  cases wide with
  | false => exact prod_notMem_targetPlaces (.data dst)
  | true => cases dst <;> simp [resultPlaces, DataReg.wideAcc, accPlaces]

theorem prod_notMem_result16Places (dst : DataReg) : Place.prod ∉ result16Places dst :=
  prod_notMem_targetPlaces (.data dst)

/-- MUL, MAC, MSU and RESP are the instructions with P among their places (R192). -/
theorem prod_mem_touches {s : State} {i : Instr} : Place.prod ∈ touches s i ↔ writesProduct i = true := by
  cases i <;>
    simp [touches, writesProduct, prod_notMem_targetPlaces, prod_notMem_movePlaces, prod_notMem_fullPlaces,
      prod_notMem_resultPlaces, prod_notMem_result16Places]

/-! ## P across a step -/

/-- A meaning leaves P alone where P is none of its places; a change of flow and HALT always do. -/
theorem exec_product {i : Instr} {s t : State} (h : exec i s = .next t) (hp : Place.prod ∉ touches s i) :
    t.regs.p = s.regs.p := by
  by_cases hc : isCof i = false
  · by_cases hh : i = .halt
    · subst hh
      cases h
      show (if s.irq = none then { s with halted := true } else s).regs.p = _
      split <;> rfl
    · obtain ⟨ws, rfl, hw⟩ := exec_commits h hc hh
      refine (commit_sameOutside ws s).prod fun hm => hp ?_
      obtain ⟨w, hmem, hplace⟩ := List.mem_map.mp hm
      exact hplace ▸ hw w hmem
  · rcases Bool.or_eq_true_iff.mp (Bool.eq_true_of_not_eq_false hc) with hd | hj
    · obtain ⟨lr0, lc, ls, le, p, rfl, -⟩ := exec_delayedCof h hd
      rfl
    · obtain ⟨a, mode, n, rfl⟩ := isJmpi_iff.mp hj
      cases h
      exact State.p_setIndex s n _

/-- Moving PC, by whatever rule of R252, leaves P alone. -/
theorem nextPc_product {i : Instr} {was : Option Transfer} {sup : Bool} {t u : State}
    (h : nextPc i was sup t = .ok u) : u.regs.p = t.regs.p := by
  rcases nextPc_ok h with ⟨-, rfl⟩ | ⟨-, tr, -, rfl⟩ | ⟨-, -, -, -, rfl⟩ | ⟨-, -, -, -, rfl⟩ <;> rfl

theorem runInstr_product {i : Instr} {s u : State} (h : runInstr i s = .next u) (hp : writesProduct i = false) :
    u.regs.p = s.regs.p := by
  obtain ⟨-, t, hexec, hretire⟩ := runInstr_next h
  obtain ⟨-, v, hpc, rfl⟩ := retire_ok hretire
  have hplace : Place.prod ∉ touches (clearPending s) i := by simp [prod_mem_touches, hp]
  calc v.regs.p = t.regs.p := nextPc_product hpc
    _ = (clearPending s).regs.p := exec_product hexec hplace

/-- Waiting and interrupt entry leave P alone, so a core that changes it runs one of its writers (R192). -/
theorem coreStep_product {s u : State} (h : coreStep s = .next u) (hp : u.regs.p ≠ s.regs.p) :
    ∃ i, NextIs s i ∧ writesProduct i = true := by
  rcases coreStep_next h with ⟨-, rfl⟩ | ⟨-, n, -, -, rfl⟩ | ⟨-, -, hrun⟩
  · exact absurd rfl hp
  · exact absurd rfl hp
  · obtain ⟨w, i, hfetch, hdecode, hinstr⟩ := runNext_next hrun
    refine ⟨i, ⟨w, hfetch, hdecode⟩, ?_⟩
    by_contra hi
    have hsame : u.regs.p = (afterFetch s).regs.p := runInstr_product hinstr (Bool.eq_false_of_not_eq_true hi)
    exact hp hsame

/-- A request leaves registers, memory, platform and what the devices have seen, so the fetch too. -/
theorem fetch_presentRequest (n : BitVec 5) (s : State) : fetch (presentRequest n s) = fetch s := by
  rcases presentRequest_cases n s with ⟨-, -, h⟩ | ⟨-, h⟩ <;> rw [h]
  rfl

theorem presentRequest_product (n : BitVec 5) (s : State) : (presentRequest n s).regs.p = s.regs.p := by
  rcases presentRequest_cases n s with ⟨-, -, h⟩ | ⟨-, h⟩ <;> rw [h]

end Sys2Proof.Machine

/-! ## The statements -/

section
open Sys2Proof Sys2Proof.Machine

/-- Settles O20: the meaning of RESP is the state named, and its word is read back by `decode_resp`. -/
theorem respResult : Obligations.RespResult :=
  fun op1 op2 _ => ⟨rfl, decode_resp op1 op2⟩

/-- Settles O59: a step that is no reset is the core's step after the event, which leaves P and the next instruction as
they are; `coreStep_product` names the writer. -/
theorem productWriters : Obligations.ProductWriters := by
  intro s t hstep hp
  rcases step_next hstep with ⟨hreset, -⟩ | ⟨-, hcore⟩ | ⟨n, -, hcore⟩
  · exact .inl hreset
  · exact .inr (coreStep_product hcore hp)
  · have hp' : t.regs.p ≠ (presentRequest n (dropEvent s)).regs.p := by
      rw [presentRequest_product]
      exact hp
    obtain ⟨i, ⟨w, hfetch, hdecode⟩, hi⟩ := coreStep_product hcore hp'
    exact .inr ⟨i, ⟨w, fetch_presentRequest n (dropEvent s) ▸ hfetch, hdecode⟩, hi⟩

end
end

section
/-! Linear post-modification by the pair register, and a load from RAM into NULL, whose whole effect is its
post-modification (42_moves.md R208, R220, R222). -/

namespace Sys2Proof.Machine

/-! ## The linear modes -/

/-- Modes 0 and 7 are the two that `starMod` names no arm for: the sum of the registers, wrapped at 16 bits (R208). -/
theorem starMod_linear {s : State} {n : IndexReg} (b : Bus)
    (h : (s.index (pairOf n)).extractLsb' 13 3 = 0b000#3 ∨ (s.index (pairOf n)).extractLsb' 13 3 = 0b111#3) :
    starMod s b n = .ok (BitVec.ofNat 16 (((s.index n).toNat + (s.index (pairOf n)).toNat) % 2 ^ 16)) := by
  have hsum : starMod s b n = .ok (s.index n + s.index (pairOf n)) := by
    rcases h with h | h <;> simp [starMod, h]
  rw [hsum, ← BitVec.toNat_add, BitVec.ofNat_toNat, BitVec.setWidth_eq]

/-! ## A load from RAM into NULL -/

section
variable {s : State} {b : Bus}

theorem loadWord_ram {a : Long} (h : s.kind b a = some .ram) : loadWord s b a = .ok (s.word b a) := by
  simp [loadWord, h]

/-- No device sees a read of RAM (R69). -/
theorem readNotice_ram {a : Long} (h : s.kind b a = some .ram) : readNotice s b a = [] := by
  simp [readNotice, h]

/-- The read is performed and its word dropped (R222, D12). -/
theorem transfer_loadNull_ram {a : Long} (h : s.kind b a = some .ram) : transfer s b a false .null = .ok [] := by
  rw [transfer, if_neg (by decide), loadWord_ram h, readNotice_ram h]
  rfl

theorem postWrites_star {n : IndexReg} {v : Word} (h : starMod s b n = .ok v) :
    postWrites s b n .star = .ok [.index n v] := by
  rw [postWrites, h]
  rfl

/-- The post-modification is all that is left of the move. -/
theorem runMove_loadNull_star {n : IndexReg} {v : Word} (hram : s.kind b ((s.index n).zeroExtend 32) = some .ram)
    (hstar : starMod s b n = .ok v) :
    runMove (fullWrites s b { store := false, n, p := .star, r := .null }) s = .next (s.setIndex n v) := by
  have hmove : fullWrites s b { store := false, n, p := .star, r := .null } = .ok [.index n v] := by
    rw [fullWrites, if_neg (by simp [FullMove.isVoid]), transfer_loadNull_ram hram, postWrites_star hstar]
    rfl
  exact runMove_next.mpr ⟨_, hmove, rfl, rfl⟩

end

end Sys2Proof.Machine

/-! ## The statements -/

section
open Sys2Proof Sys2Proof.Machine

/-- Settles O30: the sum of `starMod_linear` on either bus, and the loads into NULL write nothing else. -/
theorem starLinear : Obligations.StarLinear := by
  intro s n m t hmode
  have hstar (b : Bus) := starMod_linear b hmode
  exact ⟨hstar, fun hram => runMove_loadNull_star hram (hstar .x), fun hram => runMove_loadNull_star hram (hstar .y)⟩

end
end

section
/-! The loop flag across a change of flow: the delayed ones clear it, JMPI leaves it alone (43_control.md R253, R265). -/

namespace Sys2Proof.Machine

/-- Of what a delayed change of flow writes, only the clearing of L is in MR0. -/
theorem exec_delayedCof_flagL {i : Instr} {s t : State} (h : exec i s = .next t) (hi : isDelayedCof i = true) :
    t.flagL = false := by
  obtain ⟨lr0, lc, ls, le, p, rfl, -⟩ := exec_delayedCof h hi
  exact s.flagL_setL false

/-- JMPI writes an index register, PC and IPR0, so MR0 stands (R265). -/
theorem exec_jmpi_mr0 {i : Instr} {s t : State} (h : exec i s = .next t) (hi : isJmpi i = true) :
    t.regs.mr0 = s.regs.mr0 := by
  obtain ⟨a, mode, n, rfl⟩ := isJmpi_iff.mp hi
  cases h
  exact s.mr0_setIndex n _

end Sys2Proof.Machine

/-! ## The statement -/

section
open Sys2Proof Sys2Proof.Machine

/-- Settles O44: L after a delayed change of flow by `exec_delayedCof_flagL`; L is a bit of MR0, which JMPI keeps. -/
theorem loopFlagCleared : Obligations.LoopFlagCleared := by
  intro i s t h
  exact ⟨exec_delayedCof_flagL h, fun hjmpi => congrArg (·.getLsbD 7) (exec_jmpi_mr0 h hjmpi)⟩

end
end

section
/-! Reading a word back: which decoder a word's leading bits select, the round trip of every well-formed instruction, the
ignored bits, and the codes that are refused (30_encoding.md R82 to R112, R124). -/

namespace Sys2Proof

/-! ## Fields -/

/-- A field of a word ending in `b`, reached through the concatenation. -/
theorem bits_of_bits {w : Long} {lo len l k : Nat} {v : BitVec len} (h : bits w lo len = v) (hk : l + k ≤ len) :
    bits w (lo + l) k = bits v l k := by
  rw [← h, bits_bits _ _ _ _ _ hk]

/-- One bit of a word is a bit of any field that covers it. -/
theorem getLsbD_of_bits {n : Nat} {w : BitVec n} {lo len : Nat} {v : BitVec len} (h : bits w lo len = v) {k : Nat}
    (hk : k < len) : w.getLsbD (lo + k) = v.getLsbD k := by
  rw [← h, bits, BitVec.getLsbD_extractLsb']
  simp [hk]

/-! ## Which decoder the leading bits select (R110) -/

section
variable {w : Long}

theorem decode_ldc (h : bits w 29 3 = 0b000#3) : decode w = decodeLdc w := by
  have hlow : (bits w 28 4).toNat < 2 := by
    have hshift : (bits w 28 4).toNat = w.toNat / 2 ^ 28 % 16 := by
      rw [bits, BitVec.extractLsb'_toNat, Nat.shiftRight_eq_div_pow]
    have htop : w.toNat / 2 ^ 29 % 8 = 0 := by
      have := congrArg BitVec.toNat h
      rwa [bits, BitVec.extractLsb'_toNat, Nat.shiftRight_eq_div_pow] at this
    omega
  unfold decode
  generalize (bits w 28 4).toNat = k at hlow
  interval_cases k <;> rfl

/-- The eight leading bits of a control instruction select it. -/
theorem decode_control {c : BitVec 4} (h : bits w 24 8 = 0b0010#4 ++ c) :
    decode w = decodeControl w ∧ bits w 24 4 = c := by
  have hop : bits w 28 4 = 2#4 := by
    rw [bits_of_bits (l := 4) h (by decide), bits_append_high _ _ _ _ (by decide), bits_self]
  have hcode : bits w 24 4 = c := by
    rw [bits_of_bits (l := 0) h (by decide), bits_append_low _ _ _ _ (by decide), bits_self]
  exact ⟨by simp [decode, hop], hcode⟩

/-- The eight leading bits of a word with opcode 0b1111. -/
theorem decode_single {c : BitVec 4} (h : bits w 24 8 = 0b1111#4 ++ c) :
    decode w = decodeSingle w ∧ bits w 24 4 = c := by
  have hop : bits w 28 4 = 15#4 := by
    rw [bits_of_bits (l := 4) h (by decide), bits_append_high _ _ _ _ (by decide), bits_self]
  have hcode : bits w 24 4 = c := by
    rw [bits_of_bits (l := 0) h (by decide), bits_append_low _ _ _ _ (by decide), bits_self]
  exact ⟨by simp [decode, hop], hcode⟩

theorem decode_moveDouble (h : bits w 28 4 = 0b0011#4) : decode w = decodeMoveDouble w := by simp [decode, h]

theorem decode_nop (h : bits w 24 8 = 0xF4#8) : decode w = decodeNop w := by
  obtain ⟨hd, hc⟩ := decode_single (c := 4#4) h
  simp [hd, decodeSingle, hc]

theorem decode_mul (h : bits w 25 7 = 0b1111111#7) : decode w = decodeMul w := by
  have hop : bits w 28 4 = 15#4 := by rw [bits_of_bits (l := 3) h (by decide)]; rfl
  have hcode : (bits w 24 4).toNat = 14 ∨ (bits w 24 4).toNat = 15 := by
    have hshift : (bits w 24 4).toNat = w.toNat / 2 ^ 24 % 16 := by
      rw [bits, BitVec.extractLsb'_toNat, Nat.shiftRight_eq_div_pow]
    have htop : w.toNat / 2 ^ 25 % 128 = 127 := by
      have := congrArg BitVec.toNat h
      rwa [bits, BitVec.extractLsb'_toNat, Nat.shiftRight_eq_div_pow] at this
    omega
  have hsingle : decode w = decodeSingle w := by simp [decode, hop]
  rcases hcode with hc | hc <;> simp [hsingle, decodeSingle, hc]

theorem decode_jr (h : bits w 24 8 = 0x20#8) :
    decode w = (decodeCond (bits w 0 6)).bind fun c =>
      .ok (if w.getLsbD 23 then .jrPage (decodeIndex (bits w 6 3)) c else .jr c) := by
  obtain ⟨hd, hc⟩ := decode_control (c := 0#4) h
  simp [hd, decodeControl, hc, bind]

theorem decode_reti (h : bits w 24 8 = 0x21#8) :
    decode w = .ok (if w.getLsbD 23 then .retiPage (decodeIndex (bits w 6 3)) else .reti) := by
  obtain ⟨hd, hc⟩ := decode_control (c := 1#4) h
  simp [hd, decodeControl, hc]

theorem decode_loop (h : bits w 26 6 = 0b001001#6) :
    decode w = (decodeMoveReg (0#1 ++ bits w 0 5)).bind fun r => .ok (.loop r (bits w 6 16)) := by
  have hop : bits w 28 4 = 2#4 := by rw [bits_of_bits (l := 2) h (by decide)]; rfl
  have hcode : 4 ≤ (bits w 24 4).toNat ∧ (bits w 24 4).toNat ≤ 7 := by
    have hshift : (bits w 24 4).toNat = w.toNat / 2 ^ 24 % 16 := by
      rw [bits, BitVec.extractLsb'_toNat, Nat.shiftRight_eq_div_pow]
    have htop : w.toNat / 2 ^ 26 % 64 = 9 := by
      have := congrArg BitVec.toNat h
      rwa [bits, BitVec.extractLsb'_toNat, Nat.shiftRight_eq_div_pow] at this
    omega
  have hcontrol : decode w = decodeControl w := by simp [decode, hop]
  rw [hcontrol, decodeControl]
  generalize (bits w 24 4).toNat = k at hcode
  obtain ⟨hlow, hhigh⟩ := hcode
  interval_cases k <;> rfl

theorem decode_jcc (h : bits w 24 8 = 0x28#8) :
    decode w = (decodeCond (bits w 0 6)).bind fun c => .ok (.jcc (bits w 6 16) c) := by
  obtain ⟨hd, hc⟩ := decode_control (c := 8#4) h
  simp [hd, decodeControl, hc, bind]

theorem decode_callcc (h : bits w 24 8 = 0x29#8) :
    decode w = (decodeCond (bits w 0 6)).bind fun c => .ok (.callcc (bits w 6 16) c) := by
  obtain ⟨hd, hc⟩ := decode_control (c := 9#4) h
  simp [hd, decodeControl, hc, bind]

theorem decode_jmpi (h : bits w 24 8 = 0x2A#8) :
    decode w = (decodeJmpiMode (bits w 3 2)).bind fun m => .ok (.jmpi (bits w 6 16) m (decodeIndex (bits w 0 3))) := by
  obtain ⟨hd, hc⟩ := decode_control (c := 10#4) h
  simp [hd, decodeControl, hc, bind]

theorem decode_mvDouble (h : bits w 24 8 = 0x2B#8) :
    decode w = (do
      let xs ← decodeMoveReg (bits w 18 6)
      let xd ← decodeMoveReg (bits w 12 6)
      let ys ← decodeMoveReg (bits w 6 6)
      let yd ← decodeMoveReg (bits w 0 6)
      .ok (.mvDouble xs xd ys yd)) := by
  obtain ⟨hd, hc⟩ := decode_control (c := 11#4) h
  simp [hd, decodeControl, hc]

theorem decode_halt (h : bits w 24 8 = 0x2D#8) : decode w = .ok .halt := by
  obtain ⟨hd, hc⟩ := decode_control (c := 13#4) h
  simp [hd, decodeControl, hc]

end

/-! ## The round trip of each format -/

/-- A register move decodes also with the move NOP as its source, which its meaning refuses (R216). -/
theorem decodeParMove_mv (src dst : MoveReg) : decodeParMove (encodeParMove (.mv src dst)) = .ok (.mv src dst) := by
  by_cases hok : moveSourceOk src dst = true
  · exact decodeParMove_encodeParMove _ hok
  · obtain rfl : src = .nop := by
      by_contra h
      simp [moveSourceOk, h] at hok
    cases dst with
    | data r => cases r <;> rfl
    | guard x => cases x <;> rfl
    | index n => cases n <;> rfl
    | _ => rfl

/-- Bits 23:17 of a NOP word are not looked at. -/
theorem decode_nopWord (g : BitVec 7) (m : BitVec 17) :
    decode (0xF4#8 ++ g ++ m) = (decodeParMove m).bind fun k => .ok (nopWith k) := by
  have hop : bits (0xF4#8 ++ g ++ m) 24 8 = 0xF4#8 := by
    simp (disch := decide) only [bits_append_high, Nat.reduceSub, bits_self]
  have hfield : bits (0xF4#8 ++ g ++ m) 0 17 = m := by
    simp (disch := decide) only [bits_append_low, bits_self]
  rw [decode_nop hop, decodeNop, hfield]
  rfl

theorem decode_carriedMove (g : BitVec 7) {m : ParMove} (hm : m.ok = true) :
    decode (0xF4#8 ++ g ++ encodeParMove m) = .ok (nopWith m) := by
  rw [decode_nopWord, decodeParMove_encodeParMove m hm]
  rfl

theorem encodeNop_eq (m : ParMove) : encodeNop m = 0xF4#8 ++ 0#7 ++ encodeParMove m := rfl

theorem decode_encodeNop {m : ParMove} (hm : m.ok = true) : decode (encodeNop m) = .ok (nopWith m) := by
  rw [encodeNop_eq, decode_carriedMove _ hm]

theorem decode_encodeAlu2 {make : AluOp → AluOp → DataReg → ParMove → Instr} {opcode : BitVec 4} {op1 op2 : AluOp}
    {dst : DataReg} {m : ParMove} (hmake : ∀ w : Long, bits w 28 4 = opcode → decode w = decodeAlu2 make w)
    (h : (alu2Ok op1 op2 dst && m.ok) = true) : decode (encodeAlu2 opcode op1 op2 dst m) = .ok (make op1 op2 dst m) := by
  obtain ⟨⟨hop1, -⟩, hm⟩ : (op1 ≠ .p ∧ resultOk (op1.isWide || op2.isWide) dst = true) ∧ m.ok = true := by
    simpa [alu2Ok] using h
  rw [hmake _ (bits_opcode_encodeAlu2 ..), decodeAlu2_encodeAlu2 _ _ _ _ hop1 hm]

theorem decode_encodeSingle {make : AluOp → DataReg → ParMove → Instr} {single : BitVec 4} {op2 : AluOp}
    {dst : DataReg} {m : ParMove} (hmake : ∀ w : Long, bits w 24 4 = single → decodeSingle w = decodeAlu1 make w)
    (hm : m.ok = true) : decode (encodeAlu1 single op2 dst m) = .ok (make op2 dst m) := by
  rw [decode_encodeAlu1, hmake _ (bits_single_encodeAlu1 ..), decodeAlu1_encodeAlu1 _ _ _ _ hm]

theorem decode_encodeMac {make : MulMode → DataReg → DataReg → DataReg → ParMove → Instr} {opcode : BitVec 4}
    {mode : MulMode} {op1 op2 dst : DataReg} {m : ParMove}
    (hmake : ∀ w : Long, bits w 28 4 = opcode → decode w = decodeMac make w) (hm : m.ok = true) :
    decode (encodeMac opcode mode op1 op2 dst m) = .ok (make mode op1 op2 dst m) := by
  have hop : bits (encodeMac opcode mode op1 op2 dst m) 28 4 = opcode := by
    simp (disch := decide) only [encodeMac, bits_append_high, Nat.reduceSub, bits_self]
  rw [hmake _ hop]
  simp (disch := decide) only [decodeMac, encodeMac, bits_append_low, bits_append_high, bits_self, Nat.reduceSub,
    decodeMulMode_code, decodeDataReg_code, decodeParMove_encodeParMove m hm, bind, Except.bind]

/-- A full move that is not void is its own row (R124). -/
theorem nopWith_full {b : Bus} {f : FullMove} (h : f.r ≠ .nop) :
    nopWith (.full b f) =
      match b with
      | .x => if f.store then .stx f.n f.p f.r else .ldx f.n f.p f.r
      | .y => if f.store then .sty f.n f.p f.r else .ldy f.n f.p f.r := by
  have hv : f.isVoid = false := by simp [FullMove.isVoid, h]
  cases b <;> simp [nopWith, ParMove.isVoid, hv]


/-! ## The words of the formats with ignored bits, whatever stands in them (R112) -/

theorem decode_ldcWord (g : BitVec 7) (c : Word) (r : MoveReg) :
    decode (0b000#3 ++ g ++ c ++ r.code) = .ok (.ldc c r) := by
  have hop : bits (0b000#3 ++ g ++ c ++ r.code) 29 3 = 0b000#3 := by
    simp (disch := decide) only [bits_append_high, Nat.reduceSub, bits_self]
  rw [decode_ldc hop]
  simp (disch := decide) only [decodeLdc, bits_append_high, bits_append_low, Nat.reduceSub, bits_self,
    decodeMoveReg_code, bind, Except.bind]

theorem decode_jrWord (g : BitVec 17) (c : Cond) : decode (0x20#8 ++ 0b0#1 ++ g ++ c.code) = .ok (.jr c) := by
  have hop : bits (0x20#8 ++ 0b0#1 ++ g ++ c.code) 24 8 = 0x20#8 := by
    simp (disch := decide) only [bits_append_high, Nat.reduceSub, bits_self]
  rw [decode_jr hop]
  simp (disch := decide) only [bits_append_low, getLsbD_append_high, getLsbD_append_low, Nat.reduceSub, bits_self,
    decodeCond_code, Except.bind]
  rfl

theorem decode_jrPageWord (g : BitVec 14) (n : IndexReg) (c : Cond) :
    decode (0x20#8 ++ 0b1#1 ++ g ++ n.code ++ c.code) = .ok (.jrPage n c) := by
  have hop : bits (0x20#8 ++ 0b1#1 ++ g ++ n.code ++ c.code) 24 8 = 0x20#8 := by
    simp (disch := decide) only [bits_append_high, Nat.reduceSub, bits_self]
  rw [decode_jr hop]
  simp (disch := decide) only [bits_append_high, bits_append_low, getLsbD_append_high, getLsbD_append_low,
    Nat.reduceSub, bits_self, decodeCond_code, decodeIndex_code, Except.bind]
  rfl

theorem decode_retiWord (g : BitVec 23) : decode (0x21#8 ++ 0b0#1 ++ g) = .ok .reti := by
  have hop : bits (0x21#8 ++ 0b0#1 ++ g) 24 8 = 0x21#8 := by
    simp (disch := decide) only [bits_append_high, Nat.reduceSub, bits_self]
  rw [decode_reti hop]
  simp (disch := decide) only [getLsbD_append_high, getLsbD_append_low, Nat.reduceSub]
  rfl

theorem decode_retiPageWord (g : BitVec 14) (n : IndexReg) (h : BitVec 6) :
    decode (0x21#8 ++ 0b1#1 ++ g ++ n.code ++ h) = .ok (.retiPage n) := by
  have hop : bits (0x21#8 ++ 0b1#1 ++ g ++ n.code ++ h) 24 8 = 0x21#8 := by
    simp (disch := decide) only [bits_append_high, Nat.reduceSub, bits_self]
  rw [decode_reti hop]
  simp (disch := decide) only [bits_append_high, bits_append_low, getLsbD_append_high, getLsbD_append_low,
    Nat.reduceSub, bits_self, decodeIndex_code]
  rfl

theorem decode_loopWord (g : BitVec 4) (a : Word) (h : BitVec 1) {r : MoveReg} (hr : r.countable = true) :
    decode (0b001001#6 ++ g ++ a ++ h ++ r.code.extractLsb' 0 5) = .ok (.loop r a) := by
  have hop : bits (0b001001#6 ++ g ++ a ++ h ++ r.code.extractLsb' 0 5) 26 6 = 0b001001#6 := by
    simp (disch := decide) only [bits_append_high, Nat.reduceSub, bits_self]
  have hcount : decodeMoveReg (0#1 ++ r.code.extractLsb' 0 5) = .ok r := decodeMoveReg_countable r hr
  rw [decode_loop hop]
  simp (disch := decide) only [bits_append_high, bits_append_low, Nat.reduceSub, bits_self, hcount, Except.bind]

theorem decode_jccWord (g : BitVec 2) (a : Word) (c : Cond) : decode (0x28#8 ++ g ++ a ++ c.code) = .ok (.jcc a c) := by
  have hop : bits (0x28#8 ++ g ++ a ++ c.code) 24 8 = 0x28#8 := by
    simp (disch := decide) only [bits_append_high, Nat.reduceSub, bits_self]
  rw [decode_jcc hop]
  simp (disch := decide) only [bits_append_high, bits_append_low, Nat.reduceSub, bits_self, decodeCond_code, Except.bind]

theorem decode_callccWord (g : BitVec 2) (a : Word) (c : Cond) :
    decode (0x29#8 ++ g ++ a ++ c.code) = .ok (.callcc a c) := by
  have hop : bits (0x29#8 ++ g ++ a ++ c.code) 24 8 = 0x29#8 := by
    simp (disch := decide) only [bits_append_high, Nat.reduceSub, bits_self]
  rw [decode_callcc hop]
  simp (disch := decide) only [bits_append_high, bits_append_low, Nat.reduceSub, bits_self, decodeCond_code, Except.bind]

theorem decode_jmpiWord (g : BitVec 2) (a : Word) (h : BitVec 1) (m : JmpiMode) (n : IndexReg) :
    decode (0x2A#8 ++ g ++ a ++ h ++ m.code ++ n.code) = .ok (.jmpi a m n) := by
  have hop : bits (0x2A#8 ++ g ++ a ++ h ++ m.code ++ n.code) 24 8 = 0x2A#8 := by
    simp (disch := decide) only [bits_append_high, Nat.reduceSub, bits_self]
  rw [decode_jmpi hop]
  simp (disch := decide) only [bits_append_high, bits_append_low, Nat.reduceSub, bits_self, decodeJmpiMode_code,
    decodeIndex_code, Except.bind]

theorem decode_mvDoubleWord (xs xd ys yd : MoveReg) :
    decode (0x2B#8 ++ xs.code ++ xd.code ++ ys.code ++ yd.code) = .ok (.mvDouble xs xd ys yd) := by
  have hop : bits (0x2B#8 ++ xs.code ++ xd.code ++ ys.code ++ yd.code) 24 8 = 0x2B#8 := by
    simp (disch := decide) only [bits_append_high, Nat.reduceSub, bits_self]
  rw [decode_mvDouble hop]
  simp (disch := decide) only [bits_append_high, bits_append_low, Nat.reduceSub, bits_self, decodeMoveReg_code, bind,
    Except.bind]

theorem decode_haltWord (g : BitVec 24) : decode (0x2D#8 ++ g) = .ok .halt :=
  decode_halt (by simp (disch := decide) only [bits_append_high, Nat.reduceSub, bits_self])

theorem decode_moveDoubleWord {x y : FullMove} (hx : x.ok = true) (hy : y.ok = true) :
    decode (0b0011#4 ++ encodeFull x ++ encodeFull y) = .ok (.moveDouble x y) := by
  have hop : bits (0b0011#4 ++ encodeFull x ++ encodeFull y) 28 4 = 0b0011#4 := by
    simp (disch := decide) only [bits_append_high, Nat.reduceSub, bits_self]
  rw [decode_moveDouble hop]
  simp (disch := decide) only [decodeMoveDouble, bits_append_high, bits_append_low, Nat.reduceSub, bits_self,
    decodeFull_encodeFull x hx, decodeFull_encodeFull y hy, bind, Except.bind]

theorem decode_mulWord (mode : MulMode) (op1 op2 : DataReg) {m : ParMove} (hm : m.ok = true) :
    decode (encode (.mul mode op1 op2 m)) = .ok (.mul mode op1 op2 m) := by
  have hop : bits (encode (.mul mode op1 op2 m)) 25 7 = 0b1111111#7 := by
    simp (disch := decide) only [encode, bits_append_high, Nat.reduceSub]
    rfl
  rw [decode_mul hop]
  simp (disch := decide) only [decodeMul, encode, bits_append_high, bits_append_low, Nat.reduceSub, bits_self,
    decodeMulMode_code, decodeDataReg_code, decodeParMove_encodeParMove m hm, bind, Except.bind]

/-- A NOP word with a full move is the move's row, whatever stands in the ignored bits. -/
theorem decode_fullWord (g : BitVec 7) (b : Bus) (store : Bool) (n : IndexReg) {p : PostMod} {r : MoveReg}
    (hp : p.ok = true) (hr : r ≠ .nop) :
    decode (0xF4#8 ++ g ++ encodeParMove (.full b ⟨store, n, p, r⟩)) =
      .ok (match b with
        | .x => if store then .stx n p r else .ldx n p r
        | .y => if store then .sty n p r else .ldy n p r) := by
  rw [decode_carriedMove g (m := .full b ⟨store, n, p, r⟩) hp, nopWith_full hr]

theorem decode_mvWord (g : BitVec 7) (src dst : MoveReg) :
    decode (0xF4#8 ++ g ++ encodeParMove (.mv src dst)) = .ok (.mv src dst) := by
  rw [decode_nopWord, decodeParMove_mv]
  rfl

/-- A NOP word with the void full move is NOP. -/
theorem decode_voidWord (g : BitVec 7) {m : ParMove} (hm : m.ok = true) (hv : m.isVoid = true) :
    decode (0xF4#8 ++ g ++ encodeParMove m) = .ok (.nop m) := by
  have hnop : nopWith m = .nop m := by simp [nopWith, hv]
  rw [decode_carriedMove g hm, hnop]

end Sys2Proof

/-! ## The statements on the round trip -/

section
open Sys2Proof Sys2Proof.Machine

/-- Settles O1: one case per format. The control words and the moves standing alone are words whose ignored bits happen
to be 0; NOT, LSL and LSLC have the word of their core. -/
theorem decodeEncode : Obligations.DecodeEncode := by
  intro i hi
  cases i with
  | ldc c r => exact decode_ldcWord 0 c r
  | jr c => exact decode_jrWord 0 c
  | jrPage n c => exact decode_jrPageWord 0 n c
  | reti => exact decode_retiWord 0
  | retiPage n => exact decode_retiPageWord 0 n 0
  | resp a b => exact decode_resp a b 0 0
  | loop r a => exact decode_loopWord 0 a 0 hi
  | jcc a c => exact decode_jccWord 0 a c
  | callcc a c => exact decode_callccWord 0 a c
  | jmpi a m n => exact decode_jmpiWord 0 a 0 m n
  | mvDouble xs xd ys yd => exact decode_mvDoubleWord xs xd ys yd
  | halt => exact decode_haltWord 0
  | moveDouble x y =>
    obtain ⟨hx, hy⟩ : x.ok = true ∧ y.ok = true := by simpa [Instr.wellFormed] using hi
    exact decode_moveDoubleWord hx hy
  | add a b d m => exact decode_encodeAlu2 (fun w h => by simp [decode, h]) hi
  | sub a b d m => exact decode_encodeAlu2 (fun w h => by simp [decode, h]) hi
  | addc a b d m => exact decode_encodeAlu2 (fun w h => by simp [decode, h]) hi
  | subc a b d m => exact decode_encodeAlu2 (fun w h => by simp [decode, h]) hi
  | ashl a b d m =>
    refine decode_encodeAlu2 (fun w h => by simp [decode, h]) ?_
    simp only [Instr.wellFormed, Bool.and_eq_true] at hi ⊢
    exact ⟨hi.1.1, hi.2⟩
  | and a b d m => exact decode_encodeAlu2 (fun w h => by simp [decode, h]) hi
  | or a b d m => exact decode_encodeAlu2 (fun w h => by simp [decode, h]) hi
  | xor a b d m => exact decode_encodeAlu2 (fun w h => by simp [decode, h]) hi
  | mac mode a b d m =>
    exact decode_encodeMac (fun w h => by simp [decode, h]) (Bool.and_eq_true_iff.mp hi).2
  | msu mode a b d m =>
    exact decode_encodeMac (fun w h => by simp [decode, h]) (Bool.and_eq_true_iff.mp hi).2
  | abs a d m => exact decode_encodeSingle (fun w h => by simp [decodeSingle, h]) (Bool.and_eq_true_iff.mp hi).2
  | asr a d m => exact decode_encodeSingle (fun w h => by simp [decodeSingle, h]) (Bool.and_eq_true_iff.mp hi).2
  | lsr a d m => exact decode_encodeSingle (fun w h => by simp [decodeSingle, h]) (Bool.and_eq_true_iff.mp hi).2
  | lsrc a d m => exact decode_encodeSingle (fun w h => by simp [decodeSingle, h]) (Bool.and_eq_true_iff.mp hi).2
  | exp a d m => exact decode_encodeSingle (fun w h => by simp [decodeSingle, h]) hi
  | sat a d m => exact decode_encodeSingle (fun w h => by simp [decodeSingle, h]) (Bool.and_eq_true_iff.mp hi).2
  | rnd a d m => exact decode_encodeSingle (fun w h => by simp [decodeSingle, h]) (Bool.and_eq_true_iff.mp hi).2
  | nop m =>
    obtain ⟨hv, hm⟩ := Bool.and_eq_true_iff.mp hi
    exact decode_voidWord 0 hm hv
  | mul mode a b m => exact decode_mulWord mode a b hi
  | not a d m => exact decode_xor (op1 := .ones) a d (by decide) (Bool.and_eq_true_iff.mp hi).2
  | lsl a d m => exact decode_encodeAlu2 (fun w h => by simp [decode, h]) hi
  | lslc a d m => exact decode_encodeAlu2 (fun w h => by simp [decode, h]) hi
  | ldx n p r =>
    obtain ⟨hp, hr⟩ := Bool.and_eq_true_iff.mp hi
    exact decode_fullWord 0 .x false n hp (of_decide_eq_true hr)
  | stx n p r =>
    obtain ⟨hp, hr⟩ := Bool.and_eq_true_iff.mp hi
    exact decode_fullWord 0 .x true n hp (of_decide_eq_true hr)
  | ldy n p r =>
    obtain ⟨hp, hr⟩ := Bool.and_eq_true_iff.mp hi
    exact decode_fullWord 0 .y false n hp (of_decide_eq_true hr)
  | sty n p r =>
    obtain ⟨hp, hr⟩ := Bool.and_eq_true_iff.mp hi
    exact decode_fullWord 0 .y true n hp (of_decide_eq_true hr)
  | moveShort x y => exact decode_encodeNop (m := .short x y) rfl
  | mv src dst => exact decode_mvWord 0 src dst
  | ldxLong n r => exact decode_encodeNop (m := .longX false n r) rfl
  | stxLong n r => exact decode_encodeNop (m := .longX true n r) rfl
  | ldi n p x => exact decode_encodeNop (m := .ibus false n p x) hi
  | sti n p x => exact decode_encodeNop (m := .ibus true n p x) hi

/-- Settles O3: each format's word lemma; a NOP word is its move field alone (`decode_nopWord`). -/
theorem ignoredBitsIgnored : Obligations.IgnoredBitsIgnored := by
  refine ⟨decode_ldcWord, decode_jrWord, decode_jrPageWord, decode_retiWord, decode_retiPageWord,
    fun g x y h => decode_resp x y g h, fun g a h r hr => decode_loopWord g a h hr, decode_jccWord, decode_callccWord,
    decode_jmpiWord, decode_haltWord, fun g f b hf hv => ?void, fun g m => ?field, fun g n p r hp hr => ?full,
    fun g x y => decode_carriedMove g (m := .short x y) rfl, decode_mvWord, fun g n r => ?long, fun g n p x hp => ?ibus⟩
  case void => exact decode_voidWord g (m := .full b f) hf hv
  case field => rw [decode_nopWord, decode_nopWord]
  case full =>
    exact ⟨decode_fullWord g .x false n hp hr, decode_fullWord g .x true n hp hr, decode_fullWord g .y false n hp hr,
      decode_fullWord g .y true n hp hr⟩
  case long =>
    exact ⟨decode_carriedMove g (m := .longX false n r) rfl, decode_carriedMove g (m := .longX true n r) rfl⟩
  case ibus =>
    exact ⟨decode_carriedMove g (m := .ibus false n p x) hp, decode_carriedMove g (m := .ibus true n p x) hp⟩

/-- Settles O2: each word is a closed term. -/
theorem specWordsDecode : Obligations.SpecWordsDecode :=
  ⟨rfl, rfl, rfl, rfl, rfl, rfl, rfl, rfl, rfl, rfl, rfl, rfl⟩

end
end

section
/-! The codes that are refused by name: in one field of a word, whatever the fields beside it (30_encoding.md R111). -/

namespace Sys2Proof

open Machine

/-! ## Reserved codes of the operand tables -/

theorem decodeMoveReg_bad {r : BitVec 6} (h : badRegister r) : decodeMoveReg r = .error .moveRegister := by
  revert r
  unfold badRegister
  decide

/-- The register table has one refusal. -/
theorem decodeMoveReg_cases (r : BitVec 6) :
    (∃ q, decodeMoveReg r = .ok q) ∨ decodeMoveReg r = .error .moveRegister := by
  unfold decodeMoveReg
  dsimp only
  split <;> (try split) <;> simp

/-- Of a list of registers read in turn, one that is reserved is what refuses. -/
theorem decodeMoveReg_bind_bad {α : Type} {r : BitVec 6} {k : MoveReg → Except Reserved α}
    (h : badRegister r ∨ ∀ q, k q = .error .moveRegister) : (decodeMoveReg r).bind k = .error .moveRegister := by
  rcases h with h | h
  · rw [decodeMoveReg_bad h]
    rfl
  · rcases decodeMoveReg_cases r with ⟨q, hq⟩ | hq <;> rw [hq]
    · exact h q
    · rfl

theorem decodeCond_bad {c : BitVec 6} (h : badCondition c) : decodeCond c = .error .conditionCode := by
  have htable : ∀ c : BitVec 6, (match decodeCond c with
      | .ok k => decide (k.code = c)
      | .error e => decide (e = .conditionCode)) = true := by decide
  have hc := htable c
  cases hd : decodeCond c with
  | ok k =>
    rw [hd] at hc
    exact absurd (of_decide_eq_true hc) (h k)
  | error e =>
    rw [hd] at hc
    rw [of_decide_eq_true hc]

/-- A full move field of any word or move field, from bit `lo` on. -/
theorem decodeFull_bad {n lo : Nat} {w : BitVec n} (h : badRegister (bits w lo 6)) :
    decodeFull (bits w lo 14) = .error .moveRegister := by
  have hr : bits (bits w lo 14) 0 6 = bits w lo 6 := bits_bits w lo 14 0 6 (by decide)
  exact decodeMoveReg_bind_bad (.inl (hr ▸ h))

theorem decodeFull_cases (f : BitVec 14) :
    (∃ q, decodeFull f = .ok q) ∨ decodeFull f = .error .moveRegister := by
  rcases decodeMoveReg_cases (bits f 0 6) with ⟨q, hq⟩ | hq <;> simp [decodeFull, hq, bind, Except.bind]

/-! ## Reserved parallel move fields -/

section
variable {m : BitVec 17}

/-- What the three selector bits choose (R100). -/
theorem decodeParMove_selector {v : BitVec 3} (h : m.extractLsb' 14 3 = v) :
    decodeParMove m =
      if v.getLsbD 2 then .ok (.short (decodeShort (bits m 8 8)) (decodeShort (bits m 0 8)))
      else if v.getLsbD 0 then if v.getLsbD 1 then .error .parallelMove else decodeSpecialMove m
      else (decodeFull (bits m 0 14)).bind fun f => .ok (.full (if v.getLsbD 1 then .y else .x) f) := by
  have h14 : m.getLsbD 14 = v.getLsbD 0 := getLsbD_of_bits (lo := 14) (k := 0) h (by decide)
  have h15 : m.getLsbD 15 = v.getLsbD 1 := getLsbD_of_bits (lo := 14) (k := 1) h (by decide)
  have h16 : m.getLsbD 16 = v.getLsbD 2 := getLsbD_of_bits (lo := 14) (k := 2) h (by decide)
  rw [decodeParMove, h14, h15, h16]
  rfl

theorem decodeParMove_special (h : m.extractLsb' 14 3 = 0b001#3) : decodeParMove m = decodeSpecialMove m :=
  decodeParMove_selector h

theorem decodeParMove_selector011 (h : m.extractLsb' 14 3 = 0b011#3) : decodeParMove m = .error .parallelMove :=
  decodeParMove_selector h

theorem decodeParMove_fullBad (h : m.extractLsb' 14 3 = 0b000#3 ∨ m.extractLsb' 14 3 = 0b010#3)
    (hr : badRegister (m.extractLsb' 0 6)) : decodeParMove m = .error .moveRegister := by
  have hfull : decodeFull (bits m 0 14) = .error .moveRegister := decodeFull_bad hr
  rcases h with h | h <;> rw [decodeParMove_selector h, hfull] <;> rfl

/-- The selector of seven bits of a special move holds the selector of three. -/
theorem selector_of_long {k : Nat} {v : BitVec k} {lo : Nat} (h : bits m lo k = v) (hlo : lo ≤ 14) (hk : 17 ≤ lo + k) :
    m.extractLsb' 14 3 = bits v (14 - lo) 3 := by
  rw [← h, bits_bits _ _ _ _ _ (by omega), Nat.add_sub_cancel' hlo]
  rfl

theorem decodeSpecialMove_unlisted (h : 6 ≤ (m.extractLsb' 10 4).toNat) :
    decodeSpecialMove m = .error .parallelMove := by
  have hlt : (bits m 10 4).toNat < 16 := (bits m 10 4).isLt
  have hle : 6 ≤ (bits m 10 4).toNat := h
  unfold decodeSpecialMove
  generalize (bits m 10 4).toNat = k at hlt hle
  interval_cases k <;> rfl

theorem decodeSpecialMove_mvBad (h : m.extractLsb' 12 5 = 0b00100#5)
    (hr : badRegister (m.extractLsb' 6 6) ∨ badRegister (m.extractLsb' 0 6)) :
    decodeSpecialMove m = .error .moveRegister := by
  have hlt : (bits m 10 4).toNat < 4 := by
    have htop : m.toNat / 2 ^ 12 % 32 = 4 := by
      have := congrArg BitVec.toNat h
      rwa [BitVec.extractLsb'_toNat, Nat.shiftRight_eq_div_pow] at this
    have hshift : (bits m 10 4).toNat = m.toNat / 2 ^ 10 % 16 := by
      rw [bits, BitVec.extractLsb'_toNat, Nat.shiftRight_eq_div_pow]
    omega
  have hregs : ((decodeMoveReg (bits m 6 6)).bind fun src => (decodeMoveReg (bits m 0 6)).bind fun dst =>
      Except.ok (ParMove.mv src dst)) = .error .moveRegister := by
    rcases hr with hr | hr
    · exact decodeMoveReg_bind_bad (.inl hr)
    · exact decodeMoveReg_bind_bad (.inr fun _ => decodeMoveReg_bind_bad (.inl hr))
  unfold decodeSpecialMove
  generalize (bits m 10 4).toNat = k at hlt
  interval_cases k <;> exact hregs

theorem decodeSpecialMove_longBad (h : m.extractLsb' 10 7 = 0b0010100#7) (hr : badRegister (m.extractLsb' 0 6)) :
    decodeSpecialMove m = .error .moveRegister := by
  have hsel : bits m 10 4 = 4#4 := by
    have hlow := bits_bits m 10 7 0 4 (by decide)
    rw [show bits m 10 7 = 0b0010100#7 from h] at hlow
    exact hlow.symm
  simp only [decodeSpecialMove, hsel]
  exact decodeMoveReg_bind_bad (.inl hr)

/-- A reserved parallel move field is refused with its tag (R100, R111). -/
theorem decodeParMove_reserved {tag : Reserved} (h : reservedMove m tag) : decodeParMove m = .error tag := by
  rcases h with ⟨rfl, hsel | ⟨hsel, hcode⟩⟩ | ⟨rfl, ⟨hsel, hr⟩ | ⟨hsel, hr⟩ | ⟨hsel, hr⟩⟩
  · exact decodeParMove_selector011 hsel
  · rw [decodeParMove_special hsel, decodeSpecialMove_unlisted hcode]
  · exact decodeParMove_fullBad hsel hr
  · rw [decodeParMove_special (selector_of_long hsel (by decide) (by decide)), decodeSpecialMove_mvBad hsel hr]
  · rw [decodeParMove_special (selector_of_long hsel (by decide) (by decide)), decodeSpecialMove_longBad hsel hr]

end

/-! ## Reserved fields in the formats -/

section
variable {w : Long}

theorem decodeAlu2_op1Bad {make : AluOp → AluOp → DataReg → ParMove → Instr}
    (h : bits w 24 4 = 0b1010#4 ∨ bits w 24 4 = 0b1011#4) : decodeAlu2 make w = .error .aluOperand := by
  rcases h with h | h <;> rw [decodeAlu2, h] <;> rfl

/-- The operand code 0b1010 is reserved in Op2 also where Op1 is. -/
theorem decodeAlu2_op2Bad {make : AluOp → AluOp → DataReg → ParMove → Instr} (h : bits w 20 4 = 0b1010#4) :
    decodeAlu2 make w = .error .aluOperand := by
  have hop1 : (∃ q, decodeAluOp1 (bits w 24 4) = .ok q) ∨ decodeAluOp1 (bits w 24 4) = .error .aluOperand := by
    unfold decodeAluOp1 decodeAluOp2
    split <;> (try split) <;> simp
  rw [decodeAlu2, h]
  rcases hop1 with ⟨q, hq⟩ | hq <;> rw [hq] <;> rfl

theorem decodeAlu2_moveBad {make : AluOp → AluOp → DataReg → ParMove → Instr} {op1 op2 : AluOp} {tag : Reserved}
    (h1 : bits w 24 4 = op1.code) (hp : op1 ≠ .p) (h2 : bits w 20 4 = op2.code)
    (hm : decodeParMove (bits w 0 17) = .error tag) : decodeAlu2 make w = .error tag := by
  rw [decodeAlu2, h1, h2, decodeAluOp1_code _ hp, decodeAluOp2_code, hm]
  rfl

theorem decodeAlu1_op2Bad {make : AluOp → DataReg → ParMove → Instr} (h : bits w 20 4 = 0b1010#4) :
    decodeAlu1 make w = .error .aluOperand := by
  rw [decodeAlu1, h]
  rfl

theorem decodeAlu1_moveBad {make : AluOp → DataReg → ParMove → Instr} {op2 : AluOp} {tag : Reserved}
    (h2 : bits w 20 4 = op2.code) (hm : decodeParMove (bits w 0 17) = .error tag) :
    decodeAlu1 make w = .error tag := by
  rw [decodeAlu1, h2, decodeAluOp2_code, hm]
  rfl

/-- Each of the eight opcodes of format ALU2 selects that format. -/
theorem decode_alu2Opcode {op : BitVec 4} (h : op ∈ [4#4, 6#4, 8#4, 9#4, 10#4, 11#4, 12#4, 13#4]) :
    ∃ make, ∀ w : Long, bits w 28 4 = op → decode w = decodeAlu2 make w := by
  simp only [List.mem_cons, List.not_mem_nil, or_false] at h
  rcases h with rfl | rfl | rfl | rfl | rfl | rfl | rfl | rfl <;> exact ⟨_, fun w hw => by simp [decode, hw]; rfl⟩

/-- Each of the seven single-operand codes but NOP's selects format ALU1. -/
theorem decode_alu1Code {op : BitVec 4} (h : op ∈ [0#4, 1#4, 2#4, 3#4, 5#4, 6#4, 7#4]) :
    ∃ make, ∀ w : Long, bits w 24 8 = 0b1111#4 ++ op → decode w = decodeAlu1 make w := by
  have hsingle : ∃ make, ∀ w : Long, bits w 24 4 = op → decodeSingle w = decodeAlu1 make w := by
    simp only [List.mem_cons, List.not_mem_nil, or_false] at h
    rcases h with rfl | rfl | rfl | rfl | rfl | rfl | rfl <;> exact ⟨_, fun w hw => by simp [decodeSingle, hw]; rfl⟩
  obtain ⟨make, hmake⟩ := hsingle
  refine ⟨make, fun w hw => ?_⟩
  obtain ⟨hd, hc⟩ := decode_single hw
  rw [hd, hmake w hc]

theorem decode_macOpcode {op : BitVec 4} (h : op ∈ [5#4, 7#4]) :
    ∃ make, ∀ w : Long, bits w 28 4 = op → decode w = decodeMac make w := by
  simp only [List.mem_cons, List.not_mem_nil, or_false] at h
  rcases h with rfl | rfl <;> exact ⟨_, fun w hw => by simp [decode, hw]; rfl⟩

end

end Sys2Proof

/-! ## The statement on reserved codes -/

section
open Sys2Proof Sys2Proof.Machine

/-- Settles O4: the leading bits select the decoder, whose reserved field refuses; in a format of several fields those
read before it refuse with the same tag or are given by a listed code. -/
theorem reservedWordsRefused : Obligations.ReservedWordsRefused := by
  refine ⟨fun g => ?opcode, fun c g hc => ?control, fun c g h8 h13 => ?single, fun g a h n => ?jmpi,
    fun g c r hr => ?ldc, fun g a h r hr => ?loop, fun xs xd ys yd hr => ?mvDouble, fun g h x y hr => ?moveDouble,
    fun g a c hc => ?jump, fun g c hc => ?jr, fun op hop => ?alu2, fun op hop => ?alu1, fun m tag hm => ?move⟩
  case opcode =>
    have hop : bits (0b1110#4 ++ g) 28 4 = 14#4 := by
      simp (disch := decide) only [bits_append_high, Nat.reduceSub, bits_self]
    simp [decode, hop]
  case control =>
    have hop : bits (0b0010#4 ++ c ++ g) 24 8 = 0b0010#4 ++ c := by
      simp (disch := decide) only [bits_append_high, Nat.reduceSub, bits_self]
    obtain ⟨hd, hcode⟩ := decode_control hop
    rw [hd, decodeControl, hcode]
    rcases hc with rfl | rfl | rfl | rfl <;> rfl
  case single =>
    have hop : bits (0b1111#4 ++ c ++ g) 24 8 = 0b1111#4 ++ c := by
      simp (disch := decide) only [bits_append_high, Nat.reduceSub, bits_self]
    obtain ⟨hd, hcode⟩ := decode_single hop
    rw [hd, decodeSingle, hcode]
    generalize c.toNat = k at h8 h13
    interval_cases k <;> rfl
  case jmpi =>
    rw [decode_jmpi (by simp (disch := decide) only [bits_append_high, Nat.reduceSub, bits_self])]
    simp (disch := decide) only [bits_append_high, bits_append_low, Nat.reduceSub, bits_self]
    rfl
  case ldc =>
    rw [decode_ldc (by simp (disch := decide) only [bits_append_high, Nat.reduceSub, bits_self])]
    simp (disch := decide) only [decodeLdc, bits_append_low, bits_self, decodeMoveReg_bad hr]
    rfl
  case loop =>
    rw [decode_loop (by simp (disch := decide) only [bits_append_high, Nat.reduceSub, bits_self])]
    simp (disch := decide) only [bits_append_low, bits_self, decodeMoveReg_bad hr]
    rfl
  case mvDouble =>
    rw [decode_mvDouble (by simp (disch := decide) only [bits_append_high, Nat.reduceSub, bits_self])]
    simp (disch := decide) only [bits_append_high, bits_append_low, Nat.reduceSub, bits_self]
    rcases hr with hr | hr | hr | hr
    · exact decodeMoveReg_bind_bad (.inl hr)
    · exact decodeMoveReg_bind_bad (.inr fun _ => decodeMoveReg_bind_bad (.inl hr))
    · exact decodeMoveReg_bind_bad (.inr fun _ => decodeMoveReg_bind_bad (.inr fun _ =>
        decodeMoveReg_bind_bad (.inl hr)))
    · exact decodeMoveReg_bind_bad (.inr fun _ => decodeMoveReg_bind_bad (.inr fun _ =>
        decodeMoveReg_bind_bad (.inr fun _ => decodeMoveReg_bind_bad (.inl hr))))
  case moveDouble =>
    have hx : bits (0b0011#4 ++ g ++ x ++ h ++ y) 14 6 = x := by
      simp (disch := decide) only [bits_append_high, bits_append_low, Nat.reduceSub, bits_self]
    have hy : bits (0b0011#4 ++ g ++ x ++ h ++ y) 0 6 = y := by
      simp (disch := decide) only [bits_append_low, bits_self]
    rw [decode_moveDouble (by simp (disch := decide) only [bits_append_high, Nat.reduceSub, bits_self]),
      decodeMoveDouble]
    rcases hr with hr | hr
    · rw [decodeFull_bad (lo := 14) (hx.symm ▸ hr)]
      rfl
    · have hbad : decodeFull (bits (0b0011#4 ++ g ++ x ++ h ++ y) 0 14) = .error .moveRegister :=
        decodeFull_bad (hy.symm ▸ hr)
      rcases decodeFull_cases (bits (0b0011#4 ++ g ++ x ++ h ++ y) 14 14) with ⟨q, hq⟩ | hq <;> rw [hq]
      · rw [hbad]
        rfl
      · rfl
  case jump =>
    constructor
    · rw [decode_jcc (by simp (disch := decide) only [bits_append_high, Nat.reduceSub, bits_self])]
      simp (disch := decide) only [bits_append_low, bits_self, decodeCond_bad hc]
      rfl
    · rw [decode_callcc (by simp (disch := decide) only [bits_append_high, Nat.reduceSub, bits_self])]
      simp (disch := decide) only [bits_append_low, bits_self, decodeCond_bad hc]
      rfl
  case jr =>
    rw [decode_jr (by simp (disch := decide) only [bits_append_high, Nat.reduceSub, bits_self])]
    simp (disch := decide) only [bits_append_low, bits_self, decodeCond_bad hc]
    rfl
  case alu2 =>
    obtain ⟨make, hmake⟩ := decode_alu2Opcode hop
    refine ⟨fun c g => ⟨?_, ?_⟩, fun c g => ?_, fun op1 op2 d m tag hp hm => ?_⟩
    · rw [hmake _ (by simp (disch := decide) only [bits_append_high, Nat.reduceSub, bits_self])]
      apply decodeAlu2_op1Bad
      simp (disch := decide) only [bits_append_high, bits_append_low, Nat.reduceSub, bits_self]
      decide
    · rw [hmake _ (by simp (disch := decide) only [bits_append_high, Nat.reduceSub, bits_self])]
      apply decodeAlu2_op1Bad
      simp (disch := decide) only [bits_append_high, bits_append_low, Nat.reduceSub, bits_self]
      decide
    · rw [hmake _ (by simp (disch := decide) only [bits_append_high, Nat.reduceSub, bits_self])]
      apply decodeAlu2_op2Bad
      simp (disch := decide) only [bits_append_high, bits_append_low, Nat.reduceSub, bits_self]
    · rw [hmake _ (by simp (disch := decide) only [bits_append_high, Nat.reduceSub, bits_self])]
      refine decodeAlu2_moveBad (op1 := op1) (op2 := op2) ?_ hp ?_ ?_ <;>
        simp (disch := decide) only [bits_append_high, bits_append_low, Nat.reduceSub, bits_self,
          decodeParMove_reserved hm]
  case alu1 =>
    obtain ⟨make, hmake⟩ := decode_alu1Code hop
    refine ⟨fun g => ?_, fun op2 d m tag hm => ?_⟩
    · rw [hmake _ (by simp (disch := decide) only [bits_append_high, Nat.reduceSub, bits_self])]
      apply decodeAlu1_op2Bad
      simp (disch := decide) only [bits_append_high, bits_append_low, Nat.reduceSub, bits_self]
    · rw [hmake _ (by simp (disch := decide) only [bits_append_high, Nat.reduceSub, bits_self])]
      refine decodeAlu1_moveBad (op2 := op2) ?_ ?_ <;>
        simp (disch := decide) only [bits_append_high, bits_append_low, Nat.reduceSub, bits_self,
          decodeParMove_reserved hm]
  case move =>
    have hbad := decodeParMove_reserved hm
    refine ⟨fun op hop g => ?_, fun g => ?_, fun g => ?_⟩
    · obtain ⟨make, hmake⟩ := decode_macOpcode hop
      rw [hmake _ (by simp (disch := decide) only [bits_append_high, Nat.reduceSub, bits_self])]
      simp (disch := decide) only [decodeMac, bits_append_low, bits_self, hbad]
      rfl
    · rw [decode_nopWord, hbad]
      rfl
    · rw [decode_mul (by simp (disch := decide) only [bits_append_high, Nat.reduceSub, bits_self])]
      simp (disch := decide) only [decodeMul, bits_append_low, bits_self, hbad]
      rfl

end
end

section
/-! The writes of an operation and what becomes of it beside its parallel move: refused where its operands form a reserved
encoding, stopped with the move, stopped by a clash; and that a well-formed instruction is never refused (30_encoding.md
R111, 40_alu.md R131 to R161, 42_moves.md R224, 70_reset_and_hazards.md R335). -/

namespace Sys2Proof.Machine

/-! ## The places an operation writes, in order -/

/-- The operation is found, and its writes go to the places `ps`. -/
def Yields (e : Except Stop (List Write)) (ps : List Place) : Prop := ∃ ws, e = .ok ws ∧ ws.map Write.place = ps

section
variable {op1 op2 : AluOp} {dst : DataReg} {s : State} {m : ParMove}

theorem result16_yields (o : AluOut 16) : Yields (.ok (result16 dst o)) (result16Places dst ++ [.flags]) :=
  ⟨_, rfl, by rw [result16, List.map_append, writeData16_places]; rfl⟩

theorem result40_yields (o : AluOut 40) (h : resultOk true dst = true) :
    Yields (result40 dst o) (resultPlaces true dst ++ [.flags]) := by
  obtain ⟨x, hx⟩ : ∃ x, dst.wideAcc = some x := Option.isSome_iff_exists.mp (by simpa [resultOk] using h)
  exact ⟨writeAcc40 x o.r ++ [.flags (flagsOf o)], by simp [result40, hx], by simp [resultPlaces, hx, writeAcc40_places]; rfl⟩

theorem alu2Ok_iff : alu2Ok op1 op2 dst = true ↔ op1 ≠ .p ∧ resultOk (op1.isWide || op2.isWide) dst = true := by
  simp [alu2Ok]

theorem alu2_yields (f : (w : Nat) → BitVec w → BitVec w → AluOut w) (h : alu2Ok op1 op2 dst = true) :
    Yields (alu2 f op1 op2 dst s) (resultPlaces (op1.isWide || op2.isWide) dst ++ [.flags]) := by
  obtain ⟨hp, hr⟩ := alu2Ok_iff.mp h
  cases hw : op1.isWide || op2.isWide with
  | true =>
    rw [alu2_wide hp hw]
    exact result40_yields _ (hw ▸ hr)
  | false =>
    obtain ⟨h1, h2⟩ := Bool.or_eq_false_iff.mp hw
    rw [alu2_narrow h1 h2]
    exact result16_yields _

theorem alu1_yields (f : (w : Nat) → BitVec w → AluOut w) (h : resultOk op2.isWide dst = true) :
    Yields (alu1 f op2 dst s) (resultPlaces op2.isWide dst ++ [.flags]) := by
  cases hw : op2.isWide with
  | true =>
    rw [alu1_wide hw]
    exact result40_yields _ (hw ▸ h)
  | false =>
    rw [alu1_narrow hw]
    exact result16_yields _

theorem shiftLeft1_yields (f : (w : Nat) → BitVec w → AluOut w) (hp : op2 ≠ .p) (h : resultOk op2.isWide dst = true) :
    Yields (if op2 = .p then reserved .aluOperand else alu1 f op2 dst s) (resultPlaces op2.isWide dst ++ [.flags]) := by
  rw [if_neg hp]
  exact alu1_yields f h

/-- ASHL's width is Op1's (R150). -/
theorem ashlWrites_yields (hp : op1 ≠ .p) (h2 : op2.isWide = false) (h : resultOk op1.isWide dst = true) :
    Yields (ashlWrites op1 op2 dst s) (resultPlaces op1.isWide dst ++ [.flags]) := by
  rw [ashlWrites, if_neg hp, if_neg (by simp [h2])]
  cases hw : op1.isWide with
  | true => exact result40_yields _ (hw ▸ h)
  | false => exact result16_yields _

theorem expWrites_yields : Yields (.ok (expWrites op2 dst s)) (result16Places dst ++ [.flags]) :=
  ⟨_, rfl, by rw [expWrites, List.map_append, writeData16_places]; rfl⟩

theorem satWrites_yields (hw : op2.isWide = true) (h : resultOk true dst = true) :
    Yields (satWrites op2 dst s) (resultPlaces true dst ++ [.flags]) := by
  obtain ⟨x, hx⟩ : ∃ x, dst.wideAcc = some x := Option.isSome_iff_exists.mp (by simpa [resultOk] using h)
  rw [satWrites, if_pos hw, hx]
  exact ⟨_, rfl, by simp [resultPlaces, hx, writeAcc40_places]; rfl⟩

theorem rndWrites_yields (hw : op2.isWide = true) :
    Yields (rndWrites op2 dst s) (result16Places dst ++ [.flags]) := by
  rw [rndWrites, if_pos hw]
  exact ⟨_, rfl, by rw [List.map_append, writeData16_places]; rfl⟩

theorem macWrites_yields (f : (w : Nat) → BitVec w → BitVec w → AluOut w) (mode : MulMode) (x y : DataReg)
    (h : resultOk true dst = true) :
    Yields (macWrites f mode x y dst s) (resultPlaces true dst ++ [.flags, .prod]) := by
  obtain ⟨q, hq⟩ : ∃ q, dst.wideAcc = some q := Option.isSome_iff_exists.mp (by simpa [resultOk] using h)
  rw [macWrites, hq]
  exact ⟨_, rfl, by simp [resultPlaces, hq, writeAcc40_places]; exact ⟨rfl, rfl⟩⟩

theorem mul_yields (v : Long) : Yields (.ok [.prod v]) [.prod] := ⟨_, rfl, rfl⟩

theorem nop_yields : Yields (.ok []) [] := ⟨_, rfl, rfl⟩

/-! ## Beside the parallel move -/

/-- A clash of the move's writes with the operation's first places, or among themselves, stops (R335). -/
theorem Yields.runWith_clash {e : Except Stop (List Write)} {ps qs : List Place} {mw : List Write}
    (he : Yields e (ps ++ qs)) (hm : parWrites s m = .ok mw) (hc : noClash ps mw = false) :
    runWith e m s = .fault .doubleWrite := by
  obtain ⟨a, rfl, ha⟩ := he
  refine Machine.runWith_clash hm (Bool.eq_false_of_not_eq_true fun hd => ?_)
  obtain ⟨-, hmw, hapart⟩ := distinctPlaces_append.mp hd
  have hno : noClash ps mw = true := noClash_iff.mpr ⟨hmw, fun w hw hmem => by
    have hwa : w.place ∈ a.map Write.place := ha ▸ List.mem_append_left qs hmem
    obtain ⟨v, hv, hvw⟩ := List.mem_map.mp hwa
    exact hapart v hv w hw hvw.symm⟩
  rw [hno] at hc
  cases hc

/-- A move that cannot be made stops the operation it stands beside. -/
theorem Yields.runWith_stop {e : Except Stop (List Write)} {ps : List Place} {x : Stop} (he : Yields e ps)
    (hm : parWrites s m = .error x) : runWith e m s = finish (.error x) := by
  obtain ⟨a, rfl, -⟩ := he
  rw [runWith, hm]
  rfl

/-! ## The meanings of one shape -/

theorem exec_alu2_shape {make : AluOp → AluOp → DataReg → ParMove → Instr}
    (h : make ∈ [Instr.add, .sub, .addc, .subc, .and, .or, .xor]) :
    ∃ f, exec (make op1 op2 dst m) s = runWith (alu2 f op1 op2 dst s) m s := by
  simp only [List.mem_cons, List.not_mem_nil, or_false] at h
  rcases h with rfl | rfl | rfl | rfl | rfl | rfl | rfl <;> exact ⟨_, rfl⟩

theorem exec_alu1_shape {make : AluOp → DataReg → ParMove → Instr}
    (h : make ∈ [Instr.abs, .asr, .lsr, .lsrc, .not]) :
    ∃ f, exec (make op2 dst m) s = runWith (alu1 f op2 dst s) m s := by
  simp only [List.mem_cons, List.not_mem_nil, or_false] at h
  rcases h with rfl | rfl | rfl | rfl | rfl <;> exact ⟨_, rfl⟩

theorem exec_shiftLeft1_shape {make : AluOp → DataReg → ParMove → Instr} (h : make ∈ [Instr.lsl, .lslc]) :
    ∃ f, exec (make op2 dst m) s =
      runWith (if op2 = .p then reserved .aluOperand else alu1 f op2 dst s) m s := by
  simp only [List.mem_cons, List.not_mem_nil, or_false] at h
  rcases h with rfl | rfl <;> exact ⟨_, rfl⟩

theorem exec_mac_shape {make : MulMode → DataReg → DataReg → DataReg → ParMove → Instr} (mode : MulMode)
    (x y : DataReg) (h : make ∈ [Instr.mac, .msu]) :
    ∃ f, exec (make mode x y dst m) s = runWith (macWrites f mode x y dst s) m s := by
  simp only [List.mem_cons, List.not_mem_nil, or_false] at h
  rcases h with rfl | rfl <;> exact ⟨_, rfl⟩

/-! ## Reserved operand combinations -/

theorem runWith_reserved (tag : Reserved) : runWith (reserved tag) m s = .refused (.reserved tag) := rfl

theorem alu2_p (f : (w : Nat) → BitVec w → BitVec w → AluOut w) :
    alu2 f .p op2 dst s = reserved .aluOperand := rfl

theorem result40_even (o : AluOut 40) (h : dst.wideAcc = none) : result40 dst o = reserved .aluResult40 := by
  simp [result40, h]

theorem alu2_even (f : (w : Nat) → BitVec w → BitVec w → AluOut w) (hp : op1 ≠ .p)
    (hw : (op1.isWide || op2.isWide) = true) (h : dst.wideAcc = none) :
    alu2 f op1 op2 dst s = reserved .aluResult40 := by
  rw [alu2_wide hp hw, result40_even _ h]

theorem alu1_even (f : (w : Nat) → BitVec w → AluOut w) (hw : op2.isWide = true) (h : dst.wideAcc = none) :
    alu1 f op2 dst s = reserved .aluResult40 := by
  rw [alu1_wide hw, result40_even _ h]

theorem satWrites_even (hw : op2.isWide = true) (h : dst.wideAcc = none) :
    satWrites op2 dst s = reserved .aluResult40 := by
  simp [satWrites, hw, h]

theorem macWrites_even (f : (w : Nat) → BitVec w → BitVec w → AluOut w) (mode : MulMode) (x y : DataReg)
    (h : dst.wideAcc = none) : macWrites f mode x y dst s = reserved .aluResult40 := by
  simp [macWrites, h]

end

/-! ## Refusals of the moves -/

/-- The computation does not end in a refusal. -/
def NotRefused {α : Type} (e : Except Stop α) : Prop := ∀ r, e ≠ .error (.refuse r)

theorem NotRefused.ok {α : Type} (a : α) : NotRefused (.ok a) := fun _ h => nomatch h

theorem NotRefused.fault {α : Type} (f : Fault) : NotRefused (α := α) (.error (.fault f)) := fun _ h => nomatch h

theorem NotRefused.bind {α β : Type} {e : Except Stop α} {f : α → Except Stop β} (he : NotRefused e)
    (hf : ∀ a, NotRefused (f a)) : NotRefused (e >>= f) := by
  cases e with
  | ok a => exact hf a
  | error x => exact fun r h => he r (by cases h; rfl)

theorem NotRefused.finish {e : Except Stop State} (he : NotRefused e) (r : Refusal) : finish e ≠ .refused r := by
  cases e with
  | ok t => exact fun h => nomatch h
  | error x =>
    cases x with
    | fault f => exact fun h => nomatch h
    | refuse q => exact absurd rfl (he q)

theorem NotRefused.commitAll (ws : List Write) (s : State) : NotRefused (commitAll ws s) := by
  unfold Machine.commitAll
  split
  · exact .ok _
  · exact .fault _

section
variable {s : State}

theorem loadWord_notRefused (b : Bus) (a : Long) : NotRefused (loadWord s b a) := by
  unfold loadWord
  split <;> first | exact .ok _ | exact .fault _

theorem storeWord_notRefused (b : Bus) (a : Long) (v : Word) : NotRefused (storeWord s b a v) := by
  unfold storeWord
  split <;> first | exact .ok _ | exact .fault _

theorem wrreg_notRefused (v : Word) (r : MoveReg) : NotRefused (wrreg s v r) := by
  cases r with
  | ipr0 =>
    simp only [wrreg]
    split <;> first | exact .ok _ | exact .fault _
  | _ => exact .ok _

theorem moduloMod_notRefused (b : Bus) (cur : Word) (step : Int) (len : Nat) :
    NotRefused (moduloMod s b cur step len) := by
  unfold moduloMod
  split <;> first | exact .ok _ | exact .fault _

theorem starMod_notRefused (b : Bus) (n : IndexReg) : NotRefused (starMod s b n) := by
  unfold starMod
  dsimp only
  split <;> first | exact moduloMod_notRefused _ _ _ _ | exact .ok _ | (split <;> first | exact .ok _ | exact .fault _)

theorem postWrites_notRefused (b : Bus) (n : IndexReg) (p : PostMod) : NotRefused (postWrites s b n p) := by
  cases p with
  | amount k => exact .ok _
  | star => exact (starMod_notRefused b n).bind fun _ => .ok _

theorem transfer_notRefused (b : Bus) (a : Long) (store : Bool) (r : MoveReg) :
    NotRefused (transfer s b a store r) := by
  cases store with
  | true => exact storeWord_notRefused _ _ _
  | false => exact (loadWord_notRefused b a).bind fun _ => (wrreg_notRefused _ r).bind fun _ => .ok _

theorem fullWrites_notRefused (b : Bus) (f : FullMove) : NotRefused (fullWrites s b f) := by
  unfold fullWrites
  split
  · exact .ok _
  · exact (transfer_notRefused _ _ _ _).bind fun _ => (postWrites_notRefused _ _ _).bind fun _ => .ok _

theorem twoWrites_notRefused (x y : FullMove) : NotRefused (twoWrites s x y) := by
  unfold twoWrites
  dsimp only
  split
  · exact .fault _
  · exact (fullWrites_notRefused _ _).bind fun _ => (fullWrites_notRefused _ _).bind fun _ => .ok _

/-- Only a register move from the move NOP is refused (R216). -/
theorem moveWrites_notRefused {src dst : MoveReg} (h : moveSourceOk src dst = true) :
    NotRefused (moveWrites s src dst) := by
  unfold moveWrites
  split
  · exact .ok _
  · rename_i hdst
    have hsrc : src ≠ .nop := by simpa [moveSourceOk, hdst] using h
    rw [if_neg hsrc]
    exact wrreg_notRefused _ _

theorem ibusAccess_notRefused (store : Bool) (a : Long) (x : AccName) : NotRefused (ibusAccess s store a x) := by
  unfold ibusAccess
  split
  · unfold storeCode
    split <;> first | exact .ok _ | exact .fault _
  · refine NotRefused.bind ?_ fun _ => .ok _
    unfold loadCode
    split <;> first | exact .ok _ | exact .fault _

theorem ibusWrites_notRefused (store : Bool) (n : IndexReg) (p : PostMod) (x : AccName) :
    NotRefused (ibusWrites s store n p x) := by
  unfold ibusWrites
  split
  · exact .fault _
  · exact (ibusAccess_notRefused _ _ _).bind fun _ => (postWrites_notRefused _ _ _).bind fun _ => .ok _

/-- A well-formed parallel move field is made or stops with a fault. -/
theorem parWrites_notRefused {m : ParMove} (h : m.ok = true) : NotRefused (parWrites s m) := by
  cases m with
  | full b f => exact fullWrites_notRefused b f
  | short x y => exact twoWrites_notRefused _ _
  | mv src dst => exact moveWrites_notRefused h
  | longX store n r =>
    show NotRefused (longWrites s store n r)
    unfold longWrites
    split
    · exact .ok _
    · exact transfer_notRefused _ _ _ _
  | ibus store n p x => exact ibusWrites_notRefused _ _ _ _

end

/-! ## Every instruction with one parallel move, said once -/

/-- The places an operation of the ALU or the multiplier writes. -/
def Place.isResult : Place → Bool
  | .data _ | .guard _ | .flags | .prod => true
  | _ => false

/-- `i` is the operation whose writes are `e` beside its one move `m`, and well formed only where both parts are. -/
structure Carries (i : Instr) (s : State) (e : Except Stop (List Write)) (m : ParMove) : Prop where
  moves : movesOf i = [m]
  meaning : exec i s = runWith e m s
  results : ∀ ws, e = .ok ws → ∀ w ∈ ws, w.place.isResult = true
  formed : i.wellFormed = true → m.ok = true ∧ ∃ ps, Yields e ps

theorem isResult_of_mem {p : Place} {wide : Bool} {dst : DataReg}
    (h : p ∈ Place.flags :: Place.prod :: resultPlaces wide dst) : p.isResult = true := by
  simp only [List.mem_cons] at h
  rcases h with rfl | rfl | h
  · rfl
  · rfl
  · cases wide <;> cases dst <;>
      simp [resultPlaces, result16Places, targetPlaces, DataReg.wideAcc, accPlaces] at h <;>
      obtain rfl | rfl | rfl := h <;> rfl

section
variable {i : Instr} {s : State} {op1 op2 : AluOp} {dst : DataReg} {m : ParMove}

theorem carries_alu2 {f : (w : Nat) → BitVec w → BitVec w → AluOut w} (hm : movesOf i = [m])
    (he : exec i s = runWith (alu2 f op1 op2 dst s) m s) (hw : i.wellFormed = (alu2Ok op1 op2 dst && m.ok)) :
    Carries i s (alu2 f op1 op2 dst s) m where
  moves := hm
  meaning := he
  results ws h w hmem := by
    refine isResult_of_mem (wide := op1.isWide || op2.isWide) (dst := dst) ?_
    rcases List.mem_cons.mp (alu2_touches h w hmem) with hp | hp <;> simp [hp]
  formed h := by
    obtain ⟨hok, hmok⟩ := Bool.and_eq_true_iff.mp (hw ▸ h)
    exact ⟨hmok, _, alu2_yields f hok⟩

theorem carries_alu1 {f : (w : Nat) → BitVec w → AluOut w} (hm : movesOf i = [m])
    (he : exec i s = runWith (alu1 f op2 dst s) m s) (hw : i.wellFormed = (resultOk op2.isWide dst && m.ok)) :
    Carries i s (alu1 f op2 dst s) m where
  moves := hm
  meaning := he
  results ws h w hmem := by
    refine isResult_of_mem (wide := op2.isWide) (dst := dst) ?_
    rcases List.mem_cons.mp (alu1_touches h w hmem) with hp | hp <;> simp [hp]
  formed h := by
    obtain ⟨hok, hmok⟩ := Bool.and_eq_true_iff.mp (hw ▸ h)
    exact ⟨hmok, _, alu1_yields f hok⟩

theorem carries_shiftLeft1 {f : (w : Nat) → BitVec w → AluOut w} (hm : movesOf i = [m])
    (he : exec i s = runWith (if op2 = .p then reserved .aluOperand else alu1 f op2 dst s) m s)
    (hw : i.wellFormed = (alu2Ok op2 op2 dst && m.ok)) :
    Carries i s (if op2 = .p then reserved .aluOperand else alu1 f op2 dst s) m where
  moves := hm
  meaning := he
  results ws h w hmem := by
    split at h
    · cases h
    · refine isResult_of_mem (wide := op2.isWide) (dst := dst) ?_
      rcases List.mem_cons.mp (alu1_touches h w hmem) with hp | hp <;> simp [hp]
  formed h := by
    obtain ⟨hok, hmok⟩ := Bool.and_eq_true_iff.mp (hw ▸ h)
    obtain ⟨hp, hr⟩ := alu2Ok_iff.mp hok
    exact ⟨hmok, _, shiftLeft1_yields f hp (by simpa using hr)⟩

theorem carries_mac {f : (w : Nat) → BitVec w → BitVec w → AluOut w} {mode : MulMode} {x y : DataReg}
    (hm : movesOf i = [m]) (he : exec i s = runWith (macWrites f mode x y dst s) m s)
    (hw : i.wellFormed = (resultOk true dst && m.ok)) : Carries i s (macWrites f mode x y dst s) m where
  moves := hm
  meaning := he
  results ws h w hmem := isResult_of_mem (macWrites_touches h w hmem)
  formed h := by
    obtain ⟨hok, hmok⟩ := Bool.and_eq_true_iff.mp (hw ▸ h)
    exact ⟨hmok, _, macWrites_yields f mode x y hok⟩

/-- A row of the parallel move field is that field beside NOP (log 44). -/
theorem carries_nop (hm : movesOf i = [m]) (he : exec i s = runWith (.ok []) m s)
    (hw : i.wellFormed = true → m.ok = true) : Carries i s (.ok []) m where
  moves := hm
  meaning := he
  results ws h w hmem := by
    cases h
    cases hmem
  formed h := ⟨hw h, _, nop_yields⟩

end

theorem carries_ashl (op1 op2 : AluOp) (dst : DataReg) (m : ParMove) (s : State) :
    Carries (.ashl op1 op2 dst m) s (ashlWrites op1 op2 dst s) m where
  moves := rfl
  meaning := rfl
  results ws h w hmem := by
    refine isResult_of_mem (wide := op1.isWide) (dst := dst) ?_
    rcases List.mem_cons.mp (ashlWrites_touches h w hmem) with hp | hp <;> simp [hp]
  formed h := by
    obtain ⟨⟨hok, h2⟩, hmok⟩ : (alu2Ok op1 op2 dst = true ∧ op2.isWide = false) ∧ m.ok = true := by
      simpa [Instr.wellFormed] using h
    obtain ⟨hp, hr⟩ := alu2Ok_iff.mp hok
    exact ⟨hmok, _, ashlWrites_yields hp h2 (by simpa [h2] using hr)⟩

theorem carries_exp (op2 : AluOp) (dst : DataReg) (m : ParMove) (s : State) :
    Carries (.exp op2 dst m) s (.ok (expWrites op2 dst s)) m where
  moves := rfl
  meaning := rfl
  results ws h w hmem := by
    cases h
    refine isResult_of_mem (wide := false) (dst := dst) ?_
    rcases List.mem_cons.mp (expWrites_touches w hmem) with hp | hp
    · simp [hp]
    · simp [resultPlaces, hp]
  formed h := ⟨h, _, expWrites_yields⟩

theorem carries_sat (op2 : AluOp) (dst : DataReg) (m : ParMove) (s : State) :
    Carries (.sat op2 dst m) s (satWrites op2 dst s) m where
  moves := rfl
  meaning := rfl
  results ws h w hmem := by
    refine isResult_of_mem (wide := true) (dst := dst) ?_
    rcases List.mem_cons.mp (satWrites_touches h w hmem) with hp | hp <;> simp [hp]
  formed h := by
    obtain ⟨⟨hwide, hok⟩, hmok⟩ : (op2.isWide = true ∧ resultOk true dst = true) ∧ m.ok = true := by
      simpa [Instr.wellFormed] using h
    exact ⟨hmok, _, satWrites_yields hwide hok⟩

theorem carries_rnd (op2 : AluOp) (dst : DataReg) (m : ParMove) (s : State) :
    Carries (.rnd op2 dst m) s (rndWrites op2 dst s) m where
  moves := rfl
  meaning := rfl
  results ws h w hmem := by
    refine isResult_of_mem (wide := false) (dst := dst) ?_
    rcases List.mem_cons.mp (rndWrites_touches h w hmem) with hp | hp
    · simp [hp]
    · simp [resultPlaces, hp]
  formed h := by
    obtain ⟨hwide, hmok⟩ := Bool.and_eq_true_iff.mp h
    exact ⟨hmok, _, rndWrites_yields hwide⟩

theorem carries_mul (mode : MulMode) (x y : DataReg) (m : ParMove) (s : State) :
    Carries (.mul mode x y m) s (.ok [.prod (productOf s mode x y)]) m where
  moves := rfl
  meaning := rfl
  results ws h w hmem := by
    cases h
    obtain rfl := List.mem_singleton.mp hmem
    rfl
  formed h := ⟨h, _, mul_yields _⟩

/-- Outside change of flow and HALT an instruction is LDC, RESP, a double move, or an operation beside one move. -/
theorem exec_forms {i : Instr} (s : State) (hc : isCof i = false) (hh : i ≠ .halt) :
    (∃ c r, i = .ldc c r) ∨ (∃ a b, i = .resp a b) ∨ (∃ xs xd ys yd, i = .mvDouble xs xd ys yd) ∨
      (∃ x y, i = .moveDouble x y) ∨ ∃ e m, Carries i s e m := by
  have one {e : Except Stop (List Write)} {m : ParMove} (h : Carries i s e m) :
      (∃ c r, i = .ldc c r) ∨ (∃ a b, i = .resp a b) ∨ (∃ xs xd ys yd, i = .mvDouble xs xd ys yd) ∨
        (∃ x y, i = .moveDouble x y) ∨ ∃ e m, Carries i s e m := .inr (.inr (.inr (.inr ⟨e, m, h⟩)))
  cases i with
  | ldc c r => exact .inl ⟨c, r, rfl⟩
  | jr c => cases hc
  | jrPage n c => cases hc
  | reti => cases hc
  | retiPage n => cases hc
  | resp a b => exact .inr (.inl ⟨a, b, rfl⟩)
  | loop r a => cases hc
  | jcc a c => cases hc
  | callcc a c => cases hc
  | jmpi a mode n => cases hc
  | mvDouble xs xd ys yd => exact .inr (.inr (.inl ⟨xs, xd, ys, yd, rfl⟩))
  | halt => exact absurd rfl hh
  | moveDouble x y => exact .inr (.inr (.inr (.inl ⟨x, y, rfl⟩)))
  | add a b d m => exact one (carries_alu2 rfl rfl rfl)
  | sub a b d m => exact one (carries_alu2 rfl rfl rfl)
  | addc a b d m => exact one (carries_alu2 rfl rfl rfl)
  | subc a b d m => exact one (carries_alu2 rfl rfl rfl)
  | ashl a b d m => exact one (carries_ashl a b d m s)
  | and a b d m => exact one (carries_alu2 rfl rfl rfl)
  | or a b d m => exact one (carries_alu2 rfl rfl rfl)
  | xor a b d m => exact one (carries_alu2 rfl rfl rfl)
  | mac mode a b d m => exact one (carries_mac rfl rfl rfl)
  | msu mode a b d m => exact one (carries_mac rfl rfl rfl)
  | abs a d m => exact one (carries_alu1 rfl rfl rfl)
  | asr a d m => exact one (carries_alu1 rfl rfl rfl)
  | lsr a d m => exact one (carries_alu1 rfl rfl rfl)
  | lsrc a d m => exact one (carries_alu1 rfl rfl rfl)
  | exp a d m => exact one (carries_exp a d m s)
  | sat a d m => exact one (carries_sat a d m s)
  | rnd a d m => exact one (carries_rnd a d m s)
  | nop m => exact one (carries_nop rfl rfl fun h => (Bool.and_eq_true_iff.mp h).2)
  | mul mode a b m => exact one (carries_mul mode a b m s)
  | not a d m => exact one (carries_alu1 rfl rfl rfl)
  | lsl a d m => exact one (carries_shiftLeft1 rfl rfl rfl)
  | lslc a d m => exact one (carries_shiftLeft1 rfl rfl rfl)
  | ldx n p r => exact one (carries_nop rfl rfl fun h => (Bool.and_eq_true_iff.mp h).1)
  | stx n p r => exact one (carries_nop rfl rfl fun h => (Bool.and_eq_true_iff.mp h).1)
  | ldy n p r => exact one (carries_nop rfl rfl fun h => (Bool.and_eq_true_iff.mp h).1)
  | sty n p r => exact one (carries_nop rfl rfl fun h => (Bool.and_eq_true_iff.mp h).1)
  | moveShort x y => exact one (carries_nop rfl rfl id)
  | mv src dst => exact one (carries_nop rfl rfl id)
  | ldxLong n r => exact one (carries_nop rfl rfl id)
  | stxLong n r => exact one (carries_nop rfl rfl id)
  | ldi n p x => exact one (carries_nop rfl rfl id)
  | sti n p x => exact one (carries_nop rfl rfl id)

/-- A change of flow always completes, LOOP with a register its field can name. -/
theorem exec_cof_completes {i : Instr} (s : State) (hc : isCof i = true) (hw : i.wellFormed = true) :
    ∃ t, exec i s = .next t := by
  cases i with
  | loop r a =>
    have hr : r.countable = true := hw
    exact ⟨_, by show execLoop r a s = _; rw [execLoop, if_pos hr]⟩
  | jr c => exact ⟨_, rfl⟩
  | jrPage n c => exact ⟨_, rfl⟩
  | reti => exact ⟨_, rfl⟩
  | retiPage n => exact ⟨_, rfl⟩
  | jcc a c => exact ⟨_, rfl⟩
  | callcc a c => exact ⟨_, rfl⟩
  | jmpi a mode n => exact ⟨_, rfl⟩
  | _ => cases hc

end Sys2Proof.Machine

/-! ## The statements -/

section
open Sys2Proof Sys2Proof.Machine

/-- Settles O39: the operation is refused before its move is looked at. -/
theorem reservedFormsRefused : Obligations.ReservedFormsRefused := by
  intro op1 op2 mode x y dst m s
  refine ⟨?p, fun hp hw hx make hmake => ?alu2, fun hw hx make hmake => ?alu1, fun hp h2 => ?ashlOp2,
    fun hp h1 h2 hx => ?ashlResult, ⟨rfl, rfl⟩, fun hw hp hx => ?shiftLeft, fun h2 => ?narrow, fun hx => ?mac⟩
  case p =>
    rintro rfl make hmake
    simp only [List.mem_cons, List.not_mem_nil, or_false] at hmake
    rcases hmake with rfl | rfl | rfl | rfl | rfl | rfl | rfl | rfl <;> rfl
  case alu2 =>
    obtain ⟨f, hf⟩ := exec_alu2_shape (op1 := op1) (op2 := op2) (dst := dst) (s := s) (m := m) hmake
    rw [hf, alu2_even f hp hw hx, runWith_reserved]
  case alu1 =>
    have hsplit : make = .sat ∨ make ∈ [Instr.abs, .asr, .lsr, .lsrc, .not] := by
      simp only [List.mem_cons, List.not_mem_nil, or_false] at hmake ⊢
      tauto
    rcases hsplit with rfl | hmake
    · show runWith (satWrites op2 dst s) m s = _
      rw [satWrites_even hw hx, runWith_reserved]
    · obtain ⟨f, hf⟩ := exec_alu1_shape (op2 := op2) (dst := dst) (s := s) (m := m) hmake
      rw [hf, alu1_even f hw hx, runWith_reserved]
  case ashlOp2 =>
    show runWith (ashlWrites op1 op2 dst s) m s = _
    rw [ashlWrites, if_neg hp, if_pos h2, runWith_reserved]
  case ashlResult =>
    show runWith (ashlWrites op1 op2 dst s) m s = _
    have heven : ashlWrites op1 op2 dst s = reserved .aluResult40 := by
      simp [ashlWrites, hp, h2, h1, result40_even _ hx]
    rw [heven, runWith_reserved]
  case shiftLeft =>
    constructor
    · show runWith (if op2 = .p then reserved .aluOperand else alu1 _ op2 dst s) m s = _
      rw [if_neg hp, alu1_even _ hw hx, runWith_reserved]
    · show runWith (if op2 = .p then reserved .aluOperand else alu1 _ op2 dst s) m s = _
      rw [if_neg hp, alu1_even _ hw hx, runWith_reserved]
  case narrow =>
    constructor
    · show runWith (satWrites op2 dst s) m s = _
      rw [satWrites, if_neg (by simp [h2]), runWith_reserved]
    · show runWith (rndWrites op2 dst s) m s = _
      rw [rndWrites, if_neg (by simp [h2]), runWith_reserved]
  case mac =>
    constructor
    · show runWith (macWrites _ mode x y dst s) m s = _
      rw [macWrites_even _ mode x y hx, runWith_reserved]
    · show runWith (macWrites _ mode x y dst s) m s = _
      rw [macWrites_even _ mode x y hx, runWith_reserved]

/-- Settles O40: the result's places stand among the operation's writes (`Yields`), so a clash with them is one of the
instruction's writes. -/
theorem doubleWriteStops : Obligations.DoubleWriteStops := by
  intro op1 op2 mode x y dst m s mw hm
  refine ⟨fun hok hc => ⟨fun make hmake => ?alu2, fun h2 => ?ashl⟩,
    fun hok hc => ⟨fun make hmake => ?alu1, fun hp make hmake => ?shiftLeft, fun hw => ?sat⟩,
    fun hc => ⟨expWrites_yields.runWith_clash hm hc, fun hw => (rndWrites_yields hw).runWith_clash hm hc⟩,
    fun hok hc make hmake => ?mac,
    fun hc => ⟨Yields.runWith_clash (ps := []) (mul_yields _) hm hc, Yields.runWith_clash (ps := []) nop_yields hm hc⟩⟩
  case alu2 =>
    obtain ⟨f, hf⟩ := exec_alu2_shape (op1 := op1) (op2 := op2) (dst := dst) (s := s) (m := m) hmake
    rw [hf, (alu2_yields f hok).runWith_clash hm hc]
  case ashl =>
    obtain ⟨hp, hr⟩ := alu2Ok_iff.mp hok
    rw [h2, Bool.or_false] at hc hr
    exact (ashlWrites_yields hp h2 hr).runWith_clash hm hc
  case alu1 =>
    obtain ⟨f, hf⟩ := exec_alu1_shape (op2 := op2) (dst := dst) (s := s) (m := m) hmake
    rw [hf, (alu1_yields f hok).runWith_clash hm hc]
  case shiftLeft =>
    obtain ⟨f, hf⟩ := exec_shiftLeft1_shape (op2 := op2) (dst := dst) (s := s) (m := m) hmake
    rw [hf, (shiftLeft1_yields f hp hok).runWith_clash hm hc]
  case sat =>
    rw [hw] at hok hc
    exact (satWrites_yields hw hok).runWith_clash hm hc
  case mac =>
    obtain ⟨f, hf⟩ := exec_mac_shape (dst := dst) (s := s) (m := m) mode x y hmake
    rw [hf, (macWrites_yields f mode x y hok).runWith_clash hm hc]

/-- Settles O41: an operation with admitted operands has its writes (`Yields`), so the move's stop is the instruction's. -/
theorem carriedMoveStops : Obligations.CarriedMoveStops := by
  intro op1 op2 mode x y dst m s e hm
  refine ⟨nop_yields.runWith_stop hm, (mul_yields _).runWith_stop hm, expWrites_yields.runWith_stop hm,
    fun hok => ⟨fun make hmake => ?alu2, fun h2 => ?ashl⟩,
    fun hok => ⟨fun make hmake => ?alu1, fun hp make hmake => ?shiftLeft, fun hw => ?sat⟩,
    fun hw => (rndWrites_yields hw).runWith_stop hm, fun hok make hmake => ?mac⟩
  case alu2 =>
    obtain ⟨f, hf⟩ := exec_alu2_shape (op1 := op1) (op2 := op2) (dst := dst) (s := s) (m := m) hmake
    rw [hf, (alu2_yields f hok).runWith_stop hm]
  case ashl =>
    obtain ⟨hp, hr⟩ := alu2Ok_iff.mp hok
    rw [h2, Bool.or_false] at hr
    exact (ashlWrites_yields hp h2 hr).runWith_stop hm
  case alu1 =>
    obtain ⟨f, hf⟩ := exec_alu1_shape (op2 := op2) (dst := dst) (s := s) (m := m) hmake
    rw [hf, (alu1_yields f hok).runWith_stop hm]
  case shiftLeft =>
    obtain ⟨f, hf⟩ := exec_shiftLeft1_shape (op2 := op2) (dst := dst) (s := s) (m := m) hmake
    rw [hf, (shiftLeft1_yields f hp hok).runWith_stop hm]
  case sat => exact (satWrites_yields hw (hw ▸ hok)).runWith_stop hm
  case mac =>
    obtain ⟨f, hf⟩ := exec_mac_shape (dst := dst) (s := s) (m := m) mode x y hmake
    rw [hf, (macWrites_yields f mode x y hok).runWith_stop hm]

/-- Settles O42: a change of flow completes; what is left finds its own writes, and its moves end in no refusal. -/
theorem wellFormedNeverRefused : Obligations.WellFormedNeverRefused := by
  intro i s r hw hr
  by_cases hc : isCof i = true
  · obtain ⟨t, ht⟩ := exec_cof_completes s hc hw
    rw [ht] at hr
    cases hr
  by_cases hh : i = .halt
  · subst hh
    cases hr
  rcases exec_forms s (Bool.eq_false_of_not_eq_true hc) hh with
    ⟨c, q, rfl⟩ | ⟨a, b, rfl⟩ | ⟨xs, xd, ys, yd, rfl⟩ | ⟨x, y, rfl⟩ | ⟨e, m, h⟩
  · exact ((wrreg_notRefused c q).bind fun _ => NotRefused.commitAll _ s).finish r hr
  · cases hr
  · obtain ⟨hx, hy⟩ := Bool.and_eq_true_iff.mp hw
    refine ((moveWrites_notRefused hx).bind fun _ => (moveWrites_notRefused hy).bind fun _ => ?_).finish r hr
    split
    · exact .fault _
    · exact NotRefused.commitAll _ s
  · exact ((twoWrites_notRefused x y).bind fun _ => NotRefused.commitAll _ s).finish r hr
  · obtain ⟨hm, ps, ws, rfl, -⟩ := h.formed hw
    rw [h.meaning] at hr
    exact ((parWrites_notRefused hm).bind fun _ => NotRefused.commitAll _ s).finish r hr

end
end

section
/-! The frame of an instruction (`touches`), the invariant across a step, and which steps write IPR0, L and instruction
memory (10_state.md R39, R46, R50 to R54; 20_memory.md R63, R75; 43_control.md R252; 60_exceptions.md R293 to R302). -/

namespace Sys2Proof.Machine

/-! ## The frame of a meaning -/

/-- What committed writes to `ps` leave alone. -/
theorem Commits.sameOutside {ps : List Place} {s t : State} (h : Commits ps s t) : SameOutside ps s t := by
  obtain ⟨ws, rfl, hw⟩ := h
  refine (commit_sameOutside ws s).mono fun p hp => ?_
  obtain ⟨w, hmem, rfl⟩ := List.mem_map.mp hp
  exact hw w hmem

theorem Commits.control {ps : List Place} {s t : State} (h : Commits ps s t) :
    t.regs.pc = s.regs.pc ∧ t.pending = s.pending ∧ t.halted = s.halted := by
  obtain ⟨ws, rfl, -⟩ := h
  exact commit_control ws s

theorem Commits.flagL {ps : List Place} {s t : State} (h : Commits ps s t) (hmr0 : .mr0 ∉ ps) : t.flagL = s.flagL := by
  obtain ⟨ws, rfl, hw⟩ := h
  exact commit_flagL ws s fun w hmem hp => hmr0 (hp ▸ hw w hmem)

theorem exec_halt_eq {s t : State} (h : exec .halt s = .next t) :
    t = s ∨ (s.irq = none ∧ t = { s with halted := true }) := by
  cases h
  show (if s.irq = none then _ else s) = s ∨ _ ∧ (if s.irq = none then _ else s) = _
  split
  · exact .inr ⟨‹_›, rfl⟩
  · exact .inl rfl

theorem exec_delayedCof_sameOutside {i : Instr} {s t : State} (h : exec i s = .next t) (hi : isDelayedCof i = true) :
    SameOutside (touches s i) s t := by
  obtain ⟨lr0, lc, ls, le, p, rfl, -, hlr0, hlc, hls, hle⟩ := exec_delayedCof h hi
  have hbit (k : Nat) (hk : k ≠ 7) : (packL s.regs.mr0 false).getLsbD k = s.regs.mr0.getLsbD k := by
    rw [packL_bit, if_neg hk]
  constructor
  case lr0 => exact hlr0
  case lc => exact hlc
  case ls => exact hls
  case le => exact hle
  case flags => exact fun _ _ k hk => hbit k (by omega)
  case modes => exact fun _ k _ hk => hbit k hk
  all_goals intros; rfl

/-- What JMPI does: its index register stepped, PC and IPR0 (R265). -/
theorem exec_jmpi_eq (a : Word) (mode : JmpiMode) (n : IndexReg) (s : State) :
    exec (.jmpi a mode n) s =
      .next { s.setIndex n (s.index n + jmpiAmount mode) with
        regs := { (s.setIndex n (s.index n + jmpiAmount mode)).regs with pc := a, ipr0 := 0 } } := rfl

theorem setIndex_index (s : State) (n : IndexReg) : s.setIndex n (s.index n) = s := by cases n <;> rfl

theorem exec_jmpi_sameOutside (a : Word) (mode : JmpiMode) (n : IndexReg) {s t : State}
    (h : exec (.jmpi a mode n) s = .next t) : SameOutside (touches s (.jmpi a mode n)) s t := by
  have hindex : SameOutside (touches s (.jmpi a mode n)) s (s.setIndex n (s.index n + jmpiAmount mode)) := by
    cases mode with
    | keep =>
      rw [show s.index n + jmpiAmount .keep = s.index n from BitVec.add_zero _, setIndex_index]
      exact SameOutside.refl _ s
    | inc => exact (Write.apply_sameOutside (.index n _) s).mono (by simp [touches, Write.place])
    | dec => exact (Write.apply_sameOutside (.index n _) s).mono (by simp [touches, Write.place])
  rw [exec_jmpi_eq] at h
  cases h
  refine hindex.trans ?_
  constructor
  case ipr0 => exact fun hp => absurd (by simp [touches]) hp
  all_goals intros; rfl

theorem exec_sameOutside {i : Instr} {s t : State} (h : exec i s = .next t) : SameOutside (touches s i) s t := by
  by_cases hd : isDelayedCof i = true
  · exact exec_delayedCof_sameOutside h hd
  by_cases hj : isJmpi i = true
  · obtain ⟨a, mode, n, rfl⟩ := isJmpi_iff.mp hj
    exact exec_jmpi_sameOutside a mode n h
  by_cases hh : i = .halt
  · subst hh
    rcases exec_halt_eq h with rfl | ⟨-, rfl⟩
    · exact SameOutside.refl _ _
    · constructor <;> intros <;> rfl
  · have hc : isCof i = false := by simp [isCof, hd, hj]
    exact (exec_commits h hc hh).sameOutside

/-- L changes by a delayed change of flow, which clears it, and by a move into MR0 (R39). -/
theorem exec_flagL {i : Instr} {s t : State} (h : exec i s = .next t) (hd : isDelayedCof i = false)
    (hmr0 : .mr0 ∉ touches s i) : t.flagL = s.flagL := by
  by_cases hj : isJmpi i = true
  · exact congrArg (·.getLsbD 7) (exec_jmpi_mr0 h hj)
  by_cases hh : i = .halt
  · subst hh
    rcases exec_halt_eq h with rfl | ⟨-, rfl⟩ <;> rfl
  · have hc : isCof i = false := by simp [isCof, hd, hj]
    exact (exec_commits h hc hh).flagL hmr0

/-- Only a delayed change of flow sets the transfer (R251). -/
theorem exec_pending {i : Instr} {s t : State} (h : exec i s = .next t) (hd : isDelayedCof i = false) :
    t.pending = s.pending := by
  by_cases hj : isJmpi i = true
  · obtain ⟨a, mode, n, rfl⟩ := isJmpi_iff.mp hj
    cases h
    exact s.pending_setIndex n _
  by_cases hh : i = .halt
  · subst hh
    rcases exec_halt_eq h with rfl | ⟨-, rfl⟩ <;> rfl
  · have hc : isCof i = false := by simp [isCof, hd, hj]
    exact (exec_commits h hc hh).control.2.1

/-- Only JMPI moves PC itself (R265). -/
theorem exec_pc {i : Instr} {s t : State} (h : exec i s = .next t) (hj : isJmpi i = false) : t.regs.pc = s.regs.pc := by
  by_cases hd : isDelayedCof i = true
  · obtain ⟨lr0, lc, ls, le, p, rfl, -⟩ := exec_delayedCof h hd
    rfl
  by_cases hh : i = .halt
  · subst hh
    rcases exec_halt_eq h with rfl | ⟨-, rfl⟩ <;> rfl
  · have hc : isCof i = false := by simp [isCof, hd, hj]
    exact (exec_commits h hc hh).control.1

/-- Only HALT halts (R275). -/
theorem exec_halted {i : Instr} {s t : State} (h : exec i s = .next t) (hh : i ≠ .halt) : t.halted = s.halted := by
  by_cases hd : isDelayedCof i = true
  · obtain ⟨lr0, lc, ls, le, p, rfl, -⟩ := exec_delayedCof h hd
    rfl
  by_cases hj : isJmpi i = true
  · obtain ⟨a, mode, n, rfl⟩ := isJmpi_iff.mp hj
    cases h
    exact s.halted_setIndex n _
  · have hc : isCof i = false := by simp [isCof, hd, hj]
    exact (exec_commits h hc hh).control.2.2

/-- Every meaning keeps the memories canonical and MR0 inside its mask. -/
theorem exec_wellKept {i : Instr} {s t : State} (h : exec i s = .next t) (hs : MemoriesWf s)
    (hm : s.regs.mr0 &&& ~~~mr0Mask = 0) : MemoriesWf t ∧ t.regs.mr0 &&& ~~~mr0Mask = 0 := by
  by_cases hd : isDelayedCof i = true
  · obtain ⟨lr0, lc, ls, le, p, rfl, -⟩ := exec_delayedCof h hd
    exact ⟨⟨hs.x, hs.y, hs.i⟩, packL_mask _ _ hm⟩
  by_cases hj : isJmpi i = true
  · have hmr0 := exec_jmpi_mr0 h hj
    obtain ⟨a, mode, n, rfl⟩ := isJmpi_iff.mp hj
    obtain ⟨hx, hy, hi⟩ := Write.apply_memoriesWf (.index n (s.index n + jmpiAmount mode)) s hs
    cases h
    exact ⟨⟨hx, hy, hi⟩, hmr0 ▸ hm⟩
  by_cases hh : i = .halt
  · subst hh
    rcases exec_halt_eq h with rfl | ⟨-, rfl⟩
    · exact ⟨hs, hm⟩
    · exact ⟨⟨hs.x, hs.y, hs.i⟩, hm⟩
  · have hc : isCof i = false := by simp [isCof, hd, hj]
    obtain ⟨ws, rfl, -⟩ := exec_commits h hc hh
    exact ⟨commit_memoriesWf ws s hs, commit_mr0Masked ws s hm⟩

end Sys2Proof.Machine

section
open Sys2Proof Sys2Proof.Machine

/-- Settles O43: the places by `exec_sameOutside`, the rest field by field. -/
theorem instructionFrame : Obligations.InstructionFrame := by
  intro i s t h
  exact ⟨exec_sameOutside h, exec_sameHidden h, exec_flagL h, exec_delayedCof_flagL h, exec_pending h, exec_pc h,
    exec_halted h⟩

end

namespace Sys2Proof.Machine

/-! ## The invariant -/

theorem inv_boot (p : Platform) {x y i : Memory} (hx : x.wf = true) (hy : y.wf = true) (hi : i.wf = true) :
    Inv (State.boot p x y i) where
  xWf := hx
  yWf := hy
  iWf := hi
  mr0Masked := BitVec.zero_and
  wakeRange := Nat.zero_le _
  haltedIdle := fun _ => rfl
  wakeLatched := fun h => absurd rfl h
  pendingDelayed := fun h => absurd rfl h
  atVectorEntry := fun h => nomatch h
  recordsEmpty := fun _ => rfl

variable {s t u : State} {i : Instr}

theorem Inv.memoriesWf (h : Inv s) : MemoriesWf s := ⟨h.xWf, h.yWf, h.iWf⟩

/-- A reset leaves the memories and puts everything else of the invariant at its reset value. -/
theorem Inv.resetCore (h : Inv s) : Inv (resetCore s) where
  xWf := h.xWf
  yWf := h.yWf
  iWf := h.iWf
  mr0Masked := (inv_boot s.plat h.xWf h.yWf h.iWf).mr0Masked
  wakeRange := Nat.zero_le _
  haltedIdle := fun _ => rfl
  wakeLatched := fun h => absurd rfl h
  pendingDelayed := fun h => absurd rfl h
  atVectorEntry := fun h => nomatch h
  recordsEmpty := fun _ => rfl

/-- The schedule and the number of the step are not spoken of. -/
theorem Inv.dropEvent (h : Inv s) : Inv (dropEvent s) :=
  ⟨h.xWf, h.yWf, h.iWf, h.mr0Masked, h.wakeRange, h.haltedIdle, h.wakeLatched, h.pendingDelayed, h.atVectorEntry,
    h.recordsEmpty⟩

theorem Inv.afterFetch (h : Inv s) : Inv (afterFetch s) :=
  ⟨h.xWf, h.yWf, h.iWf, h.mr0Masked, h.wakeRange, h.haltedIdle, h.wakeLatched, h.pendingDelayed, h.atVectorEntry,
    h.recordsEmpty⟩

/-- A request that is presented is latched and wakes the core. -/
theorem Inv.presentRequest (n : BitVec 5) (h : Inv s) : Inv (presentRequest n s) := by
  rcases presentRequest_cases n s with ⟨-, -, e⟩ | ⟨-, e⟩ <;> rw [e]
  · have hwake : (if s.halted then haltWake else s.wake) ≤ haltWake := by
      split
      · exact le_refl _
      · exact h.wakeRange
    exact ⟨h.xWf, h.yWf, h.iWf, h.mr0Masked, hwake, (nomatch ·), fun _ => (nomatch ·), h.pendingDelayed, h.atVectorEntry,
      h.recordsEmpty⟩
  · exact h

/-- An entry is due only with the wake counter at 0 and no transfer pending (R295). -/
theorem Inv.enterInterrupt {n : BitVec 5} (h : Inv s) (hdue : entryDue s = some n) : Inv (enterInterrupt n s) where
  xWf := h.xWf
  yWf := h.yWf
  iWf := h.iWf
  mr0Masked := packL_mask _ _ h.mr0Masked
  wakeRange := h.wakeRange
  haltedIdle := fun _ => rfl
  wakeLatched := fun hw => absurd (entryDue_some.mp hdue).2.1 hw
  pendingDelayed := fun hp => by
    have hdelayed : prevIs s Past.delayedCof = true := h.pendingDelayed hp
    rw [(entryDue_some.mp hdue).2.2] at hdelayed
    cases hdelayed
  atVectorEntry := fun _ => ⟨rfl, rfl, s.flagL_setL true, n, rfl⟩
  recordsEmpty := fun _ => rfl

/-! ## What an instruction's step leaves of its meaning -/

/-- Moving PC changes PC, LC and IPR0 at most (R252). -/
theorem nextPc_eq {was : Option Transfer} {sup : Bool} (h : nextPc i was sup t = .ok u) :
    ∃ pc lc ipr0, u = { t with regs := { t.regs with pc := pc, lc := lc, ipr0 := ipr0 } } := by
  rcases nextPc_ok h with ⟨-, rfl⟩ | ⟨-, tr, -, rfl⟩ | ⟨-, -, -, -, rfl⟩ | ⟨-, -, -, -, rfl⟩ <;> exact ⟨_, _, _, rfl⟩

/-- A completed instruction, taken apart: its meaning, PC moved, the record left. -/
theorem runInstr_parts (h : runInstr i s = .next u) :
    ∃ t v, exec i (clearPending s) = .next t ∧ nextPc i s.pending s.prev2LoopWrite t = .ok v ∧ u = record i s v := by
  obtain ⟨-, t, hexec, hretire⟩ := runInstr_next h
  obtain ⟨-, v, hpc, rfl⟩ := retire_ok hretire
  exact ⟨t, v, hexec, hpc, rfl⟩

theorem clearPending_memoriesWf (h : MemoriesWf s) : MemoriesWf (clearPending s) := ⟨h.x, h.y, h.i⟩

/-- An instruction that the core runs keeps the invariant: HALT halts only with no request latched, and a transfer it
leaves pending is a delayed change of flow's. -/
theorem Inv.runInstr (hs : Inv s) (hawake : s.halted = false) (h : runInstr i s = .next u) : Inv u := by
  obtain ⟨t, v, hexec, hpc, rfl⟩ := runInstr_parts h
  obtain ⟨pc, lc, ipr0, rfl⟩ := nextPc_eq hpc
  obtain ⟨hmem, hmr0⟩ := exec_wellKept hexec (clearPending_memoriesWf hs.memoriesWf) hs.mr0Masked
  have hidden := exec_sameHidden hexec
  have hwake : t.wake = s.wake := hidden.wake
  have hirq : t.irq = s.irq := hidden.irq
  refine ⟨hmem.x, hmem.y, hmem.i, hmr0, ?wake, ?halted, ?latched, ?pending, (nomatch ·), (nomatch ·)⟩
  case wake =>
    show t.wake - 1 ≤ haltWake
    exact (Nat.sub_le _ _).trans (hwake ▸ hs.wakeRange)
  case halted =>
    intro (hhalted : t.halted = true)
    show t.irq = none
    by_cases hh : i = .halt
    · subst hh
      rcases exec_halt_eq hexec with ht | ⟨hidle, -⟩
      · rw [ht, show (clearPending s).halted = s.halted from rfl, hawake] at hhalted
        cases hhalted
      · exact hirq.trans hidle
    · rw [exec_halted hexec hh, show (clearPending s).halted = s.halted from rfl, hawake] at hhalted
      cases hhalted
  case latched =>
    intro (hcount : t.wake - 1 ≠ 0)
    show t.irq ≠ none
    rw [hirq]
    exact hs.wakeLatched (by omega)
  case pending =>
    intro (hpending : t.pending ≠ none)
    show isDelayedCof i = true
    by_contra hd
    exact hpending (exec_pending hexec (Bool.eq_false_of_not_eq_true hd))

theorem Inv.coreStep (hs : Inv s) (h : coreStep s = .next u) : Inv u := by
  rcases coreStep_next h with ⟨-, rfl⟩ | ⟨-, n, hdue, -, rfl⟩ | ⟨hawake, -, hrun⟩
  · exact hs
  · exact hs.enterInterrupt hdue
  · obtain ⟨w, i, -, -, hinstr⟩ := runNext_next hrun
    exact hs.afterFetch.runInstr hawake hinstr

theorem Inv.step (hs : Inv s) (h : step s = .next u) : Inv u := by
  rcases step_next h with ⟨-, rfl⟩ | ⟨-, hcore⟩ | ⟨n, -, hcore⟩
  · exact hs.dropEvent.resetCore
  · exact hs.dropEvent.coreStep hcore
  · exact (hs.dropEvent.presentRequest n).coreStep hcore

end Sys2Proof.Machine

section
open Sys2Proof Sys2Proof.Machine

/-- Settles O55: the parts of a step keep the invariant one by one. -/
theorem stepKeepsInv : Obligations.StepKeepsInv := fun _ _ hs h => hs.step h

/-- Settles O54: the reset state is a booted one. -/
theorem resetInv : Obligations.ResetInv :=
  ⟨inv_boot resetPlatform rfl rfl rfl, fun p _ _ _ hx hy hi => inv_boot p hx hy hi⟩

end

end

section
/-! Which steps write IPR0, L and instruction memory (10_state.md R39, R46; 20_memory.md R63, R75). -/

namespace Sys2Proof.Machine

variable {s t u : State} {i : Instr} {ws : List Write}

/-! ## IPR0: a move writes the value it holds -/

/-- Every write to IPR0 among `ws` is of the value `s` holds there (C14). -/
def KeepsPage (s : State) (ws : List Write) : Prop := ∀ v, .ipr0 v ∈ ws → v = s.regs.ipr0

theorem KeepsPage.append {vs : List Write} (h : KeepsPage s ws) (k : KeepsPage s vs) : KeepsPage s (ws ++ vs) :=
  fun v hv => (List.mem_append.mp hv).elim (h v) (k v)

theorem KeepsPage.of_places {ps : List Place} (h : ∀ w ∈ ws, w.place ∈ ps) (hp : .ipr0 ∉ ps) : KeepsPage s ws :=
  fun _ hv => absurd (h _ hv) hp

theorem commit_ipr0 (h : KeepsPage s ws) : (commit ws s).regs.ipr0 = s.regs.ipr0 := by
  have general : ∀ (ws : List Write) (t : State), t.regs.ipr0 = s.regs.ipr0 → KeepsPage s ws →
      (commit ws t).regs.ipr0 = s.regs.ipr0 := by
    intro ws
    induction ws with
    | nil => exact fun t ht _ => ht
    | cons w ws ih =>
      intro t ht hw
      refine ih (w.apply t) ?_ fun v hv => hw v (List.mem_cons_of_mem _ hv)
      by_cases hp : w.place = .ipr0
      · cases w <;> cases hp
        exact hw _ List.mem_cons_self
      · rw [(w.apply_sameOutside t).ipr0 (by simpa [eq_comm] using hp), ht]
  exact general ws s rfl h

theorem wrreg_keepsPage {v : Word} {r : MoveReg} (h : wrreg s v r = .ok ws) : KeepsPage s ws := by
  by_cases hr : r = .ipr0
  · subst hr
    simp only [wrreg] at h
    split at h
    · cases h
      intro w hw
      cases List.mem_singleton.mp hw
      assumption
    · cases h
  · refine .of_places (ps := targetPlaces r) (fun w hw => wrreg_places h ▸ List.mem_map_of_mem hw) fun hp => hr ?_
    cases r <;> simp [targetPlaces] at hp ⊢
    split at hp <;> simp at hp

theorem transfer_keepsPage {b : Bus} {a : Long} {store : Bool} {r : MoveReg} (h : transfer s b a store r = .ok ws) :
    KeepsPage s ws := by
  cases store with
  | true =>
    rcases storeWord_ok h with ⟨-, rfl⟩ | ⟨id, -, rfl⟩ | ⟨-, rfl⟩ <;> simp [KeepsPage]
  | false =>
    obtain ⟨v, -, h⟩ := bind_ok.mp h
    obtain ⟨us, hu, h⟩ := bind_ok.mp h
    cases h
    refine (wrreg_keepsPage hu).append ?_
    unfold readNotice
    split <;> simp [KeepsPage]

theorem postWrites_keepsPage {b : Bus} {n : IndexReg} {p : PostMod} (h : postWrites s b n p = .ok ws) :
    KeepsPage s ws := by
  rcases postWrites_ok h with ⟨-, rfl⟩ | ⟨-, v, -, rfl⟩ <;> simp [KeepsPage]

theorem fullWrites_keepsPage {b : Bus} {f : FullMove} (h : fullWrites s b f = .ok ws) : KeepsPage s ws := by
  rcases fullWrites_ok h with ⟨-, rfl⟩ | ⟨-, us, ps, hu, hp, rfl⟩
  · exact fun _ hv => nomatch hv
  · exact (transfer_keepsPage hu).append (postWrites_keepsPage hp)

theorem twoWrites_keepsPage {x y : FullMove} (h : twoWrites s x y = .ok ws) : KeepsPage s ws := by
  obtain ⟨us, vs, hu, hv, rfl⟩ := twoWrites_ok h
  exact (fullWrites_keepsPage hu).append (fullWrites_keepsPage hv)

theorem moveWrites_keepsPage {src dst : MoveReg} (h : moveWrites s src dst = .ok ws) : KeepsPage s ws := by
  rcases moveWrites_ok h with ⟨-, rfl⟩ | ⟨-, -, h⟩
  · exact fun _ hv => nomatch hv
  · exact wrreg_keepsPage h

theorem ibusWrites_keepsPage {store : Bool} {n : IndexReg} {p : PostMod} {x : AccName}
    (h : ibusWrites s store n p x = .ok ws) : KeepsPage s ws := by
  obtain ⟨-, us, ps, hu, hp, rfl⟩ := ibusWrites_ok h
  refine KeepsPage.append (.of_places (ibusAccess_places hu) ?_) (postWrites_keepsPage hp)
  unfold ibusPlaces
  split <;> cases store <;> simp [accPlaces]

theorem parWrites_keepsPage {m : ParMove} (h : parWrites s m = .ok ws) : KeepsPage s ws := by
  cases m with
  | full b f => exact fullWrites_keepsPage h
  | short x y => exact twoWrites_keepsPage h
  | mv src dst => exact moveWrites_keepsPage h
  | longX store n r =>
    replace h : longWrites s store n r = .ok ws := h
    unfold longWrites at h
    split at h
    · cases h
      exact fun _ hv => nomatch hv
    · exact transfer_keepsPage h
  | ibus store n p x => exact ibusWrites_keepsPage h

/-- An operation beside one move completes with the writes of both. -/
theorem Carries.completes {e : Except Stop (List Write)} {m : ParMove} (hc : Carries i s e m)
    (h : exec i s = .next t) :
    ∃ a b, (∀ w ∈ a, w.place.isResult = true) ∧ parWrites s m = .ok b ∧ t = commit (a ++ b) s := by
  rw [hc.meaning] at h
  obtain ⟨a, b, ha, hb, -, rfl⟩ := runWith_next.mp h
  exact ⟨a, b, hc.results a ha, hb, rfl⟩

/-- JMPI alone changes IPR0 (R46). -/
theorem exec_ipr0 (h : exec i s = .next t) (hj : isJmpi i = false) : t.regs.ipr0 = s.regs.ipr0 := by
  by_cases hd : isDelayedCof i = true
  · obtain ⟨lr0, lc, ls, le, p, rfl, -⟩ := exec_delayedCof h hd
    rfl
  by_cases hh : i = .halt
  · subst hh
    rcases exec_halt_eq h with rfl | ⟨-, rfl⟩ <;> rfl
  rcases exec_forms s (by simp [isCof, hd, hj]) hh with
    ⟨c, q, rfl⟩ | ⟨a, b, rfl⟩ | ⟨xs, xd, ys, yd, rfl⟩ | ⟨x, y, rfl⟩ | ⟨e, m, hc⟩
  · obtain ⟨ws, hw, -, rfl⟩ := runMove_next.mp h
    exact commit_ipr0 (wrreg_keepsPage hw)
  · cases h
    rfl
  · obtain ⟨a, ha, h⟩ := bind_ok.mp (finish_next.mp h)
    obtain ⟨b, hb, h⟩ := bind_ok.mp h
    split at h
    · cases h
    · obtain ⟨-, rfl⟩ := commitAll_ok.mp h
      exact commit_ipr0 ((moveWrites_keepsPage ha).append (moveWrites_keepsPage hb))
  · obtain ⟨ws, hw, -, rfl⟩ := runMove_next.mp h
    exact commit_ipr0 (twoWrites_keepsPage hw)
  · obtain ⟨a, b, ha, hb, rfl⟩ := hc.completes h
    refine commit_ipr0 (KeepsPage.append (fun v hv => ?_) (parWrites_keepsPage hb))
    exact nomatch ha _ hv

/-! ## L: only a move into MR0 sets it -/

/-- The registers that the loop restrictions look at, with the place of each (R331). -/
def loopPlace : MoveReg → Option Place
  | .mr0 => some .mr0
  | .lc => some .lc
  | .ls => some .ls
  | .le => some .le
  | _ => none

section
variable {r : MoveReg} {p : Place}

theorem loopPlace_cases (h : loopPlace r = some p) :
    (r = .mr0 ∧ p = .mr0) ∨ (r = .lc ∧ p = .lc) ∨ (r = .ls ∧ p = .ls) ∨ (r = .le ∧ p = .le) := by
  cases r <;> simp_all [loopPlace]

theorem mem_targetPlaces_iff (h : loopPlace r = some p) {q : MoveReg} : p ∈ targetPlaces q ↔ q = r := by
  rcases loopPlace_cases h with ⟨rfl, rfl⟩ | ⟨rfl, rfl⟩ | ⟨rfl, rfl⟩ | ⟨rfl, rfl⟩ <;>
    cases q <;> simp [targetPlaces] <;> split <;> simp

/-- Of an access, only a load writes such a register. -/
theorem mem_accessPlaces_iff (h : loopPlace r = some p) {b : Bus} {a : Long} {store : Bool} {q : MoveReg} :
    p ∈ accessPlaces s b a store q ↔ store = false ∧ q = r := by
  cases store with
  | true =>
    simp only [accessPlaces, if_true, storePlaces]
    rcases loopPlace_cases h with ⟨-, rfl⟩ | ⟨-, rfl⟩ | ⟨-, rfl⟩ | ⟨-, rfl⟩ <;> split <;> simp
  | false =>
    have hnotice : p ∉ noticePlaces (s.kind b a) := by
      unfold noticePlaces
      rcases loopPlace_cases h with ⟨-, rfl⟩ | ⟨-, rfl⟩ | ⟨-, rfl⟩ | ⟨-, rfl⟩ <;> split <;> simp
    simp [accessPlaces, mem_targetPlaces_iff h, hnotice]

theorem notMem_postPlaces (h : loopPlace r = some p) (n : IndexReg) (q : PostMod) : p ∉ postPlaces n q := by
  cases q with
  | amount k =>
    rcases loopPlace_cases h with ⟨-, rfl⟩ | ⟨-, rfl⟩ | ⟨-, rfl⟩ | ⟨-, rfl⟩ <;> simp only [postPlaces] <;> split <;> simp
  | star => rcases loopPlace_cases h with ⟨-, rfl⟩ | ⟨-, rfl⟩ | ⟨-, rfl⟩ | ⟨-, rfl⟩ <;> simp [postPlaces]

theorem loopPlace_ne_nop (h : loopPlace r = some p) : r ≠ .nop := by
  rintro rfl
  cases h

theorem mem_fullPlaces_iff (h : loopPlace r = some p) {b : Bus} {f : FullMove} :
    p ∈ fullPlaces s b f ↔ f.store = false ∧ f.r = r := by
  unfold fullPlaces
  split
  · rename_i hv
    have hnop : f.r = .nop := of_decide_eq_true hv
    simp [hnop, (loopPlace_ne_nop h).symm]
  · simp [mem_accessPlaces_iff h, notMem_postPlaces h]

/-- A move writes such a register exactly where it is one of the bus targets. -/
theorem mem_movePlaces_iff (h : loopPlace r = some p) {m : ParMove} : p ∈ movePlaces s m ↔ r ∈ busTargets m := by
  cases m with
  | full b f =>
    rw [movePlaces, mem_fullPlaces_iff h]
    cases hs : f.store <;> simp [busTargets, hs, @eq_comm _ r]
  | short x y =>
    rw [movePlaces, List.mem_append, mem_fullPlaces_iff h, mem_fullPlaces_iff h]
    cases hx : x.store <;> cases hy : y.store <;> simp [busTargets, shortAsFull, hx, hy, @eq_comm _ r]
  | mv src dst => simp [movePlaces, busTargets, mem_targetPlaces_iff h, @eq_comm _ r]
  | longX store n q =>
    simp only [movePlaces]
    split
    · rename_i hq
      cases store <;> simp [busTargets, hq, loopPlace_ne_nop h]
    · rw [mem_accessPlaces_iff h]
      cases store <;> simp [busTargets, @eq_comm _ r]
  | ibus store n q x =>
    have hacc : p ∉ accPlaces x := by
      rcases loopPlace_cases h with ⟨-, rfl⟩ | ⟨-, rfl⟩ | ⟨-, rfl⟩ | ⟨-, rfl⟩ <;> simp [accPlaces]
    have hword : p ∉ ibusPlaces store ((s.index n).zeroExtend 32) x (s.codeKind ((s.index n).zeroExtend 32)) := by
      unfold ibusPlaces
      rcases loopPlace_cases h with ⟨-, rfl⟩ | ⟨-, rfl⟩ | ⟨-, rfl⟩ | ⟨-, rfl⟩ <;> split <;> cases store <;> simp [hacc]
    simp [movePlaces, busTargets, hword, notMem_postPlaces h]

theorem notMem_resultPlaces (h : loopPlace r = some p) (wide : Bool) (dst : DataReg) :
    p ≠ .flags ∧ p ≠ .prod ∧ p ∉ resultPlaces wide dst ∧ p ∉ result16Places dst := by
  have hplace : p.isResult = false := by
    rcases loopPlace_cases h with ⟨-, rfl⟩ | ⟨-, rfl⟩ | ⟨-, rfl⟩ | ⟨-, rfl⟩ <;> rfl
  have hno {wide : Bool} : p ∉ Place.flags :: Place.prod :: resultPlaces wide dst := fun hp => by
    rw [isResult_of_mem hp] at hplace
    cases hplace
  simp only [List.mem_cons, not_or] at hno
  exact ⟨(hno (wide := wide)).1, (hno (wide := wide)).2.1, (hno (wide := wide)).2.2, (hno (wide := false)).2.2⟩

theorem loopPlace_plain (h : loopPlace r = some p) : p ≠ .lr0 ∧ p ≠ .ipr0 ∧ ∀ n, p ≠ .index n := by
  rcases loopPlace_cases h with ⟨-, rfl⟩ | ⟨-, rfl⟩ | ⟨-, rfl⟩ | ⟨-, rfl⟩ <;> simp

/-- An instruction other than LOOP writes such a register by a move or by LDC only. -/
theorem mem_touches_iff (h : loopPlace r = some p) (hl : ∀ c a, i ≠ .loop c a) :
    p ∈ touches s i ↔ r ∈ moveTargets i := by
  obtain ⟨hlr0, hipr0, hindex⟩ := loopPlace_plain h
  have hflags (dst : DataReg) := (notMem_resultPlaces h false dst).1
  have hprod (dst : DataReg) := (notMem_resultPlaces h false dst).2.1
  have hresult (wide : Bool) (dst : DataReg) := (notMem_resultPlaces h wide dst).2.2.1
  have hresult16 (dst : DataReg) := (notMem_resultPlaces h false dst).2.2.2
  cases i with
  | loop c a => exact absurd rfl (hl c a)
  | jmpi a mode n =>
    simp only [touches, moveTargets, movesOf]
    split <;> simp [hipr0, hindex]
  | _ =>
    simp [touches, moveTargets, movesOf, mem_targetPlaces_iff h, mem_fullPlaces_iff h, mem_movePlaces_iff h, busTargets,
      shortAsFull, hlr0, hflags .a0, hprod .a0, hresult, hresult16, @eq_comm _ r]

end

/-! ## Instruction memory: only STI writes it -/

theorem commit_imem (h : ∀ w ∈ ws, ∀ a, w.place ≠ .code a) : (commit ws s).imem = s.imem := by
  induction ws generalizing s with
  | nil => rfl
  | cons w ws ih =>
    rw [commit_cons, ih fun v hv => h v (List.mem_cons_of_mem _ hv)]
    have hw := h w List.mem_cons_self
    cases w with
    | code a v => exact absurd rfl (hw a)
    | mem b a v => cases b <;> rfl
    | _ => simp [Write.apply]

/-- A word of instruction memory is no place of a register. -/
theorem code_notMem_targetPlaces (r : MoveReg) (a : Long) : .code a ∉ targetPlaces r := by
  cases r <;> simp [targetPlaces]
  split <;> simp

theorem code_notMem_accessPlaces (b : Bus) (c : Long) (store : Bool) (r : MoveReg) (a : Long) :
    .code a ∉ accessPlaces s b c store r := by
  cases store with
  | true =>
    simp only [accessPlaces, if_true, storePlaces]
    split <;> simp
  | false =>
    have hnotice : .code a ∉ noticePlaces (s.kind b c) := by
      unfold noticePlaces
      split <;> simp
    simp [accessPlaces, code_notMem_targetPlaces, hnotice]

theorem code_notMem_postPlaces (n : IndexReg) (p : PostMod) (a : Long) : .code a ∉ postPlaces n p := by
  cases p with
  | amount k =>
    simp only [postPlaces]
    split <;> simp
  | star => simp [postPlaces]

theorem code_notMem_fullPlaces (b : Bus) (f : FullMove) (a : Long) : .code a ∉ fullPlaces s b f := by
  unfold fullPlaces
  split <;> simp [code_notMem_accessPlaces, code_notMem_postPlaces]

/-- Of the moves, STI alone has a word of instruction memory among its places, the one its index register names. -/
theorem code_mem_movePlaces {m : ParMove} {a : Long} (h : .code a ∈ movePlaces s m) :
    ∃ n p x, m = .ibus true n p x ∧ a = (s.index n).zeroExtend 32 := by
  cases m with
  | full b f => exact absurd h (code_notMem_fullPlaces b f a)
  | short x y => exact absurd h (by simp [movePlaces, code_notMem_fullPlaces])
  | mv src dst => exact absurd h (code_notMem_targetPlaces dst a)
  | longX store n r =>
    simp only [movePlaces] at h
    split at h
    · cases h
    · exact absurd h (code_notMem_accessPlaces _ _ store r a)
  | ibus store n p x =>
    have hword := (List.mem_append.mp h).resolve_right (code_notMem_postPlaces n p a)
    unfold ibusPlaces at hword
    cases store with
    | true =>
      refine ⟨n, p, x, rfl, ?_⟩
      split at hword
      · simp at hword
      · exact List.mem_singleton.mp hword |> Place.code.inj
    | false => split at hword <;> simp [accPlaces] at hword

theorem stiIndex_of_moves {n : IndexReg} {p : PostMod} {x : AccName} (h : movesOf i = [.ibus true n p x]) :
    stiIndex i = some n := by
  simp [stiIndex, h]

/-- Instruction memory changes by an STI alone, in page zero, in the word its index register names (R63, R75). -/
theorem exec_imem (h : exec i s = .next t) (hne : t.imem ≠ s.imem) :
    ∃ n, stiIndex i = some n ∧ s.regs.ipr0 = 0#16 ∧
      ∀ b, b / 4 ≠ (s.index n).toNat → t.imem.readByte .i b = s.imem.readByte .i b := by
  by_cases hd : isDelayedCof i = true
  · obtain ⟨lr0, lc, ls, le, p, rfl, -⟩ := exec_delayedCof h hd
    exact absurd rfl hne
  by_cases hj : isJmpi i = true
  · obtain ⟨a, mode, n, rfl⟩ := isJmpi_iff.mp hj
    cases h
    exact absurd (s.imem_setIndex n _) hne
  by_cases hh : i = .halt
  · subst hh
    rcases exec_halt_eq h with rfl | ⟨-, rfl⟩ <;> exact absurd rfl hne
  rcases exec_forms s (by simp [isCof, hd, hj]) hh with
    ⟨c, q, rfl⟩ | ⟨a, b, rfl⟩ | ⟨xs, xd, ys, yd, rfl⟩ | ⟨x, y, rfl⟩ | ⟨e, m, hc⟩
  · obtain ⟨ws, rfl, hw⟩ := exec_commits h rfl hh
    exact absurd (commit_imem fun w hmem a hp => code_notMem_targetPlaces q a (hp ▸ hw w hmem)) hne
  · cases h
    exact absurd rfl hne
  · obtain ⟨ws, rfl, hw⟩ := exec_commits h rfl hh
    refine absurd (commit_imem fun w hmem a hp => ?_) hne
    rcases List.mem_append.mp (hp ▸ hw w hmem) with hm | hm <;> exact code_notMem_targetPlaces _ a hm
  · obtain ⟨ws, rfl, hw⟩ := exec_commits h rfl hh
    refine absurd (commit_imem fun w hmem a hp => ?_) hne
    rcases List.mem_append.mp (hp ▸ hw w hmem) with hm | hm <;> exact code_notMem_fullPlaces _ _ a hm
  · obtain ⟨a, b, ha, hb, rfl⟩ := hc.completes h
    have hnoresult : ∀ w ∈ a, ∀ c, w.place ≠ .code c := fun w hw c hp => by
      have := ha w hw
      rw [hp] at this
      cases this
    have hcode : ∃ w ∈ a ++ b, ∃ c, w.place = .code c := by
      by_contra hno
      simp only [not_exists, not_and] at hno
      exact hne (commit_imem hno)
    obtain ⟨w, hw, c, hp⟩ := hcode
    have hwb : w ∈ b := (List.mem_append.mp hw).resolve_left fun hwa => hnoresult w hwa c hp
    obtain ⟨n, q, x, rfl, -⟩ := code_mem_movePlaces (hp ▸ parWrites_places hb w hwb)
    obtain ⟨hpage, -⟩ := ibusWrites_ok hb
    refine ⟨n, stiIndex_of_moves hc.moves, hpage, fun k hk => ?_⟩
    refine (commit_sameOutside (a ++ b) s).imem k fun c hc' => ?_
    obtain ⟨v, hv, hvp⟩ := List.mem_map.mp hc'
    have hvb : v ∈ b := (List.mem_append.mp hv).resolve_left fun hva => hnoresult v hva c hvp
    obtain ⟨n', q', x', hm, rfl⟩ := code_mem_movePlaces (hvp ▸ parWrites_places hb v hvb)
    cases hm
    rwa [BitVec.toNat_setWidth, Nat.mod_eq_of_lt (by omega)]

/-! ## The state at a boundary -/

/-- A step that is no reset is the core's, in the state at its boundary. -/
theorem step_boundary (h : step s = .next t) :
    (nextEvent s = .reset ∧ t = resetCore (dropEvent s)) ∨ ∃ u, AtBoundary s u ∧ coreStep u = .next t := by
  rcases step_next h with hreset | ⟨hidle, hcore⟩ | ⟨n, hreq, hcore⟩
  · exact .inl hreset
  · exact .inr ⟨_, .inl ⟨hidle, rfl⟩, hcore⟩
  · exact .inr ⟨_, .inr ⟨n, hreq, rfl⟩, hcore⟩

/-- The event of a boundary leaves registers, memory and the pending transfer, and so the next instruction. -/
theorem AtBoundary.same (h : AtBoundary s u) :
    u.regs = s.regs ∧ u.imem = s.imem ∧ u.pending = s.pending ∧ fetch u = fetch (dropEvent s) := by
  rcases h with ⟨-, rfl⟩ | ⟨n, -, rfl⟩
  · exact ⟨rfl, rfl, rfl, rfl⟩
  · refine ⟨?_, ?_, ?_, fetch_presentRequest n _⟩ <;>
      rcases presentRequest_cases n (dropEvent s) with ⟨-, -, e⟩ | ⟨-, e⟩ <;> rw [e] <;> rfl

theorem AtBoundary.nextIs (h : AtBoundary s u) {w : Long} (hf : fetch u = .ok w) (hd : decode w = .ok i) :
    NextIs (dropEvent s) i := by
  obtain ⟨-, -, -, hfetch⟩ := h.same
  exact ⟨w, hfetch ▸ hf, hd⟩

theorem index_of_regs (h : u.regs = s.regs) (n : IndexReg) : u.index n = s.index n := by
  cases n <;> simp only [State.index, h]

end Sys2Proof.Machine

/-! ## The statements -/

section
open Sys2Proof Sys2Proof.Machine

/-- Settles O56: a meaning other than JMPI's keeps IPR0 (`exec_ipr0`), and after it only a transfer's page is written. -/
theorem pageWriters : Obligations.PageWriters := by
  intro s t hstep hne
  rcases step_boundary hstep with ⟨hreset, -⟩ | ⟨u, hu, hcore⟩
  · exact .inl hreset
  obtain ⟨hregs, -, hpending, -⟩ := hu.same
  rcases coreStep_next hcore with ⟨-, rfl⟩ | ⟨-, n, -, -, rfl⟩ | ⟨-, -, hrun⟩
  · exact absurd (congrArg Regs.ipr0 hregs) hne
  · exact .inr (.inl ⟨rfl, rfl, congrArg Regs.ipr0 hregs⟩)
  obtain ⟨w, i, hfetch, hdecode, hinstr⟩ := runNext_next hrun
  obtain ⟨r, v, hexec, hpc, rfl⟩ := runInstr_parts hinstr
  by_cases hj : isJmpi i = true
  · refine .inr (.inr (.inl ⟨i, hu.nextIs hfetch hdecode, hj, ?_⟩))
    obtain ⟨a, mode, n, rfl⟩ := isJmpi_iff.mp hj
    cases hexec
    cases hpc
    rfl
  have hkept : r.regs.ipr0 = s.regs.ipr0 :=
    (exec_ipr0 hexec (Bool.eq_false_of_not_eq_true hj)).trans (congrArg Regs.ipr0 hregs)
  rcases nextPc_ok hpc with ⟨hj', -⟩ | ⟨-, tr, htr, rfl⟩ | ⟨-, -, -, -, rfl⟩ | ⟨-, -, -, -, rfl⟩
  · exact absurd hj' hj
  · cases hpage : tr.page with
    | none =>
      refine absurd ?_ hne
      show tr.page.getD r.regs.ipr0 = s.regs.ipr0
      rw [hpage, Option.getD_none, hkept]
    | some page =>
      refine .inr (.inr (.inr ⟨tr, page, hpending ▸ htr, hpage, ?_, rfl⟩))
      show tr.page.getD r.regs.ipr0 = page
      rw [hpage, Option.getD_some]
  · exact absurd hkept hne
  · exact absurd hkept hne

/-- Settles O57: after the frame of a meaning (`exec_flagL`) nothing in a step touches L. -/
theorem loopFlagSetters : Obligations.LoopFlagSetters := by
  intro s t hstep hclear hset
  rcases step_boundary hstep with ⟨-, rfl⟩ | ⟨u, hu, hcore⟩
  · have hreset : (resetCore (dropEvent s)).flagL = false := by
      simp [State.flagL, resetCore, Regs.reset]
    rw [hreset] at hset
    cases hset
  obtain ⟨hregs, -, -, -⟩ := hu.same
  have hclear' : u.flagL = false := by rw [State.flagL, hregs]; exact hclear
  rcases coreStep_next hcore with ⟨-, rfl⟩ | ⟨-, n, -, -, rfl⟩ | ⟨-, -, hrun⟩
  · rw [hclear'] at hset
    cases hset
  · exact .inl ⟨rfl, congrArg Regs.pc hregs⟩
  obtain ⟨w, i, hfetch, hdecode, hinstr⟩ := runNext_next hrun
  obtain ⟨r, v, hexec, hpc, rfl⟩ := runInstr_parts hinstr
  obtain ⟨pc, lc, ipr0, rfl⟩ := nextPc_eq hpc
  replace hset : r.flagL = true := hset
  refine .inr ⟨i, hu.nextIs hfetch hdecode, ?_⟩
  have hd : isDelayedCof i = false := by
    by_contra hd
    rw [exec_delayedCof_flagL hexec (Bool.eq_true_of_not_eq_false hd)] at hset
    cases hset
  have hmr0 : .mr0 ∈ touches (clearPending (afterFetch u)) i := by
    by_contra hmr0
    rw [exec_flagL hexec hd hmr0, show (clearPending (afterFetch u)).flagL = u.flagL from rfl, hclear'] at hset
    cases hset
  exact (mem_touches_iff (r := .mr0) rfl (fun c a e => by subst e; cases hd)).mp hmr0

/-- Settles O58: nothing in a step but the meaning touches instruction memory, and of the meanings an STI alone
(`exec_imem`). -/
theorem codeWrittenBySti : Obligations.CodeWrittenBySti := by
  intro s t hstep hne
  rcases step_boundary hstep with ⟨-, rfl⟩ | ⟨u, hu, hcore⟩
  · exact absurd rfl hne
  obtain ⟨hregs, himem, -, -⟩ := hu.same
  rcases coreStep_next hcore with ⟨-, rfl⟩ | ⟨-, n, -, -, rfl⟩ | ⟨-, -, hrun⟩
  · exact absurd himem hne
  · exact absurd himem hne
  obtain ⟨w, i, hfetch, hdecode, hinstr⟩ := runNext_next hrun
  obtain ⟨r, v, hexec, hpc, rfl⟩ := runInstr_parts hinstr
  obtain ⟨pc, lc, ipr0, rfl⟩ := nextPc_eq hpc
  replace hne : r.imem ≠ u.imem := himem ▸ hne
  obtain ⟨n, hsti, hpage, hbytes⟩ := exec_imem hexec hne
  refine ⟨i, n, hu.nextIs hfetch hdecode, hsti, (congrArg Regs.ipr0 hregs).symm.trans hpage, fun b hb => ?_⟩
  have hindex : u.index n = s.index n := index_of_regs hregs n
  exact (hbytes b (by rwa [← hindex] at hb)).trans (by rw [← himem]; rfl)

end
end

section
/-! Addition, subtraction and the left shift by one in exact integers, NOT, LSL and LSLC, the signed conditions after SUB, and
arithmetic on two words (40_alu.md R132 to R143, 43_control.md R255). -/

namespace Sys2Proof.Machine

/-! ## Signed numbers -/

section
variable {w : Nat}

theorem two_pow_eq (hw : 0 < w) : 2 ^ w = 2 * 2 ^ (w - 1) := by
  rw [← Nat.pow_succ', Nat.succ_eq_add_one, Nat.sub_add_cancel hw]

/-- A number of `w` bits and its sign. -/
theorem toInt_cases (hw : 0 < w) (a : BitVec w) :
    (a.msb = false ∧ a.toNat < 2 ^ (w - 1) ∧ a.toInt = a.toNat) ∨
      (a.msb = true ∧ 2 ^ (w - 1) ≤ a.toNat ∧ a.toNat < 2 * 2 ^ (w - 1) ∧
        a.toInt = a.toNat - 2 * ((2 ^ (w - 1) : Nat) : Int)) := by
  have hlt : a.toNat < 2 * 2 ^ (w - 1) := two_pow_eq hw ▸ a.isLt
  have hval := a.toInt_eq_toNat_cond
  rw [BitVec.msb_eq_decide, decide_eq_true_eq, decide_eq_false_iff_not]
  rw [two_pow_eq hw] at hval
  split at hval <;> omega

theorem fits_iff (n : Int) :
    fits w n = true ↔ -((2 ^ (w - 1) : Nat) : Int) ≤ n ∧ n < ((2 ^ (w - 1) : Nat) : Int) := by
  simp [fits]

theorem fits_toInt (hw : 0 < w) (a : BitVec w) : fits w a.toInt = true := by
  rw [fits_iff]
  rcases toInt_cases hw a with ⟨-, h, e⟩ | ⟨-, h, h', e⟩ <;> omega

/-- What an overflow saturates to: the least or the largest number (R135). -/
theorem saturated_eq (hw : 0 < w) (negative : Bool) :
    saturated w negative = BitVec.ofInt w (if negative then -(2 ^ (w - 1)) else 2 ^ (w - 1) - 1) := by
  cases negative
  · rw [← BitVec.ofInt_toInt (x := saturated w false)]
    exact congrArg _ BitVec.toInt_intMax
  · rw [← BitVec.ofInt_toInt (x := saturated w true)]
    exact congrArg _ (BitVec.toInt_intMin_of_pos hw)

/-- A result that is wrapped, or saturated by the sign `negative` where it does not fit, is the exact one. -/
theorem wrap_or_saturate (hw : 0 < w) {sat v negative : Bool} {r : BitVec w} {n : Int} (hr : r = BitVec.ofInt w n)
    (hv : v = !fits w n) (hneg : v = true → (negative = true ↔ n < 0)) :
    (if v && sat then saturated w negative else r) = exactResult sat w n := by
  subst hr hv
  unfold exactResult
  cases hfit : fits w n with
  | true => simp
  | false =>
    have hneg' : (negative = true ↔ n < 0) := hneg (by simp [hfit])
    cases sat with
    | false => simp
    | true =>
      rw [saturated_eq hw]
      simp only [Bool.not_false, Bool.and_true, if_true, Bool.not_true, Bool.or_false, Bool.false_eq_true, if_false, hneg']
      split <;> rfl

/-! ## The adder -/

/-- The adder in exact integers: the overflow predicate says that the sum does not fit (R135, log 48). -/
theorem addcore_eq (hw : 0 < w) (sat : Bool) (a b : BitVec w) (c : Bool) :
    addcore sat w a b c =
      ⟨exactResult sat w (a.toInt + b.toInt + c.toNat), !fits w (a.toInt + b.toInt + c.toNat),
        decide (2 ^ w ≤ a.toNat + b.toNat + c.toNat)⟩ := by
  have hr : BitVec.ofNat w (a.toNat + b.toNat + c.toNat) = BitVec.ofInt w (a.toInt + b.toInt + c.toNat) := by
    rw [BitVec.ofInt_add, BitVec.ofInt_add, BitVec.ofInt_toInt, BitVec.ofInt_toInt, BitVec.ofInt_natCast,
      BitVec.ofNat_add, BitVec.ofNat_add]
    simp
  have hc : c.toNat ≤ 1 := Bool.toNat_le c
  have ha := toInt_cases hw a
  have hb := toInt_cases hw b
  have hs := toInt_cases hw (BitVec.ofNat w (a.toNat + b.toNat + c.toNat))
  have hwrap : (BitVec.ofNat w (a.toNat + b.toNat + c.toNat)).toNat = a.toNat + b.toNat + c.toNat ∨
      (BitVec.ofNat w (a.toNat + b.toNat + c.toNat)).toNat + 2 * 2 ^ (w - 1) = a.toNat + b.toNat + c.toNat := by
    rw [BitVec.toNat_ofNat]
    rcases Nat.lt_or_ge (a.toNat + b.toNat + c.toNat) (2 ^ w) with h | h
    · exact .inl (Nat.mod_eq_of_lt h)
    · right
      rw [two_pow_eq hw] at h ⊢
      rw [Nat.mod_eq_sub_mod h, Nat.mod_eq_of_lt (by omega)]
      omega
  have hover : (decide (a.msb = b.msb) &&
      decide ((BitVec.ofNat w (a.toNat + b.toNat + c.toNat)).msb ≠ a.msb)) =
        !fits w (a.toInt + b.toInt + c.toNat) := by
    rw [Bool.eq_iff_iff, Bool.not_eq_true', ← Bool.not_eq_true, fits_iff]
    generalize 2 ^ (w - 1) = M at ha hb hs hwrap ⊢
    rcases ha with ⟨ha, _⟩ | ⟨ha, _⟩ <;> rcases hb with ⟨hb, _⟩ | ⟨hb, _⟩ <;> rcases hs with ⟨hs, _⟩ | ⟨hs, _⟩ <;>
      simp only [ha, hb, hs] <;> simp <;> omega
  have hsign : (!fits w (a.toInt + b.toInt + c.toNat)) = true →
      (a.msb = true ↔ a.toInt + b.toInt + c.toNat < 0) := by
    rw [Bool.not_eq_true', ← Bool.not_eq_true, fits_iff]
    generalize 2 ^ (w - 1) = M at ha hb ⊢
    rcases ha with ⟨ha, _⟩ | ⟨ha, _⟩ <;> rcases hb with ⟨hb, _⟩ | ⟨hb, _⟩ <;> simp only [ha] <;> simp <;> omega
  simp only [addcore, hover, wrap_or_saturate hw hr rfl hsign]

/-- The addition of the complement in exact integers: a difference, one less without the carry; C says that no borrow
is generated (R138, R139). -/
theorem addcore_not_eq (hw : 0 < w) (sat : Bool) (a b : BitVec w) (c : Bool) :
    addcore sat w a (~~~b) c =
      ⟨exactResult sat w (a.toInt - b.toInt - (!c).toNat), !fits w (a.toInt - b.toInt - (!c).toNat),
        decide (b.toNat + (!c).toNat ≤ a.toNat)⟩ := by
  have hcarry : c.toNat + (!c).toNat = 1 := by cases c <;> rfl
  have hnat : (~~~b).toNat = 2 ^ w - 1 - b.toNat := BitVec.toNat_not
  have hlt : b.toNat < 2 ^ w := b.isLt
  have hint : (~~~b).toInt = -b.toInt - 1 := by
    rw [two_pow_eq hw] at hnat hlt
    rcases toInt_cases hw b with ⟨-, h, e⟩ | ⟨-, h, h', e⟩ <;>
      rcases toInt_cases hw (~~~b) with ⟨-, k, f⟩ | ⟨-, k, k', f⟩ <;> omega
  have hn : a.toInt + (~~~b).toInt + c.toNat = a.toInt - b.toInt - (!c).toNat := by omega
  have hno : (2 ^ w ≤ a.toNat + (~~~b).toNat + c.toNat) ↔ (b.toNat + (!c).toNat ≤ a.toNat) := by omega
  rw [addcore_eq hw, hn]
  simp only [hno]

/-! ## The left shift by one -/

theorem shiftLeft1_bits (a : BitVec w) (c : Bool) :
    (a <<< 1) ||| BitVec.ofNat w c.toNat = BitVec.ofNat w (a.toNat + a.toNat + c.toNat) := by
  have hshift : a <<< 1 = BitVec.ofNat w (2 ^ 1 * a.toNat) := by
    apply BitVec.eq_of_toNat_eq
    rw [BitVec.toNat_shiftLeft, Nat.shiftLeft_eq, BitVec.toNat_ofNat, Nat.mul_comm]
  have hc : c.toNat < 2 ^ 1 := Bool.toNat_lt c
  rw [hshift, ← BitVec.ofNat_or, ← Nat.two_pow_add_eq_or_of_lt hc, Nat.pow_one, Nat.two_mul]

/-- The shift left by one is the addition of the operand to itself (R142, R143). -/
theorem shiftLeft1Out_eq (hw : 0 < w) (sat c : Bool) (a : BitVec w) :
    shiftLeft1Out sat c w a = addcore sat w a a c := by
  have hc : c.toNat ≤ 1 := Bool.toNat_le c
  have hmsb : a.msb = decide (2 ^ w ≤ a.toNat + a.toNat + c.toNat) := by
    rw [two_pow_eq hw]
    rcases toInt_cases hw a with ⟨h, h', -⟩ | ⟨h, h', -⟩ <;> rw [h] <;> symm <;> simp <;> omega
  simp only [shiftLeft1Out, addcore, shiftLeft1_bits, decide_true, Bool.true_and, ← hmsb]

/-- The most significant bit, by its number. -/
theorem msb_eq_bit (a : BitVec w) : a.msb = a.getLsbD (w - 1) := BitVec.msb_eq_getLsbD_last a

/-- The shift left by one in exact integers. -/
theorem shiftLeft1Out_exact (hw : 0 < w) (sat c : Bool) (a : BitVec w) :
    shiftLeft1Out sat c w a =
      ⟨exactResult sat w (2 * a.toInt + c.toNat), !fits w (2 * a.toInt + c.toNat), a.getLsbD (w - 1)⟩ := by
  have hcarry : (shiftLeft1Out sat c w a).c = a.getLsbD (w - 1) := msb_eq_bit a
  rw [shiftLeft1Out_eq hw, addcore_eq hw] at hcarry ⊢
  rw [Int.two_mul]
  exact congrArg (AluOut.mk _ _) hcarry

end

/-! ## LSL and LSLC -/

section
variable {op2 : AluOp} {dst : DataReg} {s : State}

theorem alu1_eq_alu2_same {f : (w : Nat) → BitVec w → AluOut w} {g : (w : Nat) → BitVec w → BitVec w → AluOut w}
    (hfg : ∀ w, 0 < w → ∀ a, f w a = g w a a) (hp : op2 ≠ .p) : alu1 f op2 dst s = alu2 g op2 op2 dst s := by
  simp [alu1, alu2, hp, hfg 16 (by decide), hfg 40 (by decide)]

/-- LSL and LSLC are additions of the operand to itself, refused for P alike. -/
theorem shiftLeft1_eq_alu2 (sat c : Bool) :
    (if op2 = .p then reserved .aluOperand else alu1 (shiftLeft1Out sat c) op2 dst s) =
      alu2 (fun w a b => addcore sat w a b c) op2 op2 dst s := by
  split
  · rename_i hp
    rw [hp, alu2_p]
  · exact alu1_eq_alu2_same (fun w hw a => shiftLeft1Out_eq hw sat c a) ‹_›

/-- The complement is the exclusive or with ones (R141). -/
theorem alu1_not_eq_alu2 :
    alu1 (fun _ a => logicOut (~~~a)) op2 dst s = alu2 (fun _ a b => logicOut (a ^^^ b)) .ones op2 dst s := by
  have h16 (a : Word) : ~~~a = 0xFFFF#16 ^^^ a := (BitVec.allOnes_xor (x := a)).symm
  have h40 (a : Wide) : ~~~a = 0xFFFFFFFFFF#40 ^^^ a := (BitVec.allOnes_xor (x := a)).symm
  simp [alu1, alu2, AluOp.isWide, val16, val40, h16, h40]

end

/-! ## What a result leaves in the registers and the flags -/

section
variable {s : State}

@[simp] theorem State.data_putData_same (s : State) (r : DataReg) (v : Word) : (putData s r v).data r = v := by
  unfold putData
  split <;> simp

theorem State.data_putData_of_ne (s : State) {r q : DataReg} (v : Word) (h : q ≠ r) :
    (putData s r v).data q = s.data q := by
  unfold putData
  split <;> simp [State.data_setData_of_ne, h]

@[simp] theorem State.mr0_putData (s : State) (r : DataReg) (v : Word) : (putData s r v).regs.mr0 = s.regs.mr0 := by
  unfold putData
  split <;> simp

@[simp] theorem State.mr0_putAcc (s : State) (x : AccName) (v : Wide) : (putAcc s x v).regs.mr0 = s.regs.mr0 := by
  simp [putAcc]

@[simp] theorem State.data_putFlags (s : State) (f : Flags) (q : DataReg) : (putFlags s f).data q = s.data q := by
  cases q <;> rfl

@[simp] theorem flagZ_putFlags (s : State) (f : Flags) : (putFlags s f).flagZ = f.z := packFlags_bit _ f 4
@[simp] theorem flagN_putFlags (s : State) (f : Flags) : (putFlags s f).flagN = f.n := packFlags_bit _ f 3
@[simp] theorem flagV_putFlags (s : State) (f : Flags) : (putFlags s f).flagV = f.v := packFlags_bit _ f 2
@[simp] theorem flagC_putFlags (s : State) (f : Flags) : (putFlags s f).flagC = f.c := packFlags_bit _ f 0
@[simp] theorem flagS_putFlags (s : State) (f : Flags) : (putFlags s f).flagS = s.flagS := packFlags_bit _ f 10

@[simp] theorem flagS_putData (s : State) (r : DataReg) (v : Word) : (putData s r v).flagS = s.flagS := by
  rw [State.flagS, State.mr0_putData, State.flagS]

@[simp] theorem flagS_putAcc (s : State) (x : AccName) (v : Wide) : (putAcc s x v).flagS = s.flagS := by
  rw [State.flagS, State.mr0_putAcc, State.flagS]

/-- A void parallel move writes nothing. -/
theorem parWrites_void {m : ParMove} (h : m.isVoid = true) (s : State) : parWrites s m = .ok [] := by
  cases m with
  | full b f =>
    show fullWrites s b f = .ok []
    exact if_pos h
  | _ => cases h

theorem noClash_nil (ps : List Place) : noClash ps [] = true := rfl

end

/-! ## The exact result as a number -/

section
variable {w : Nat} {n : Int}

theorem toInt_ofInt_of_fits (hw : 0 < w) (h : fits w n = true) : (BitVec.ofInt w n).toInt = n := by
  obtain ⟨hlow, hhigh⟩ := (fits_iff n).mp h
  rw [BitVec.toInt_ofInt, two_pow_eq hw]
  apply Int.bmod_eq_of_le <;> omega

theorem ofInt_sub_two_pow (hw : 0 < w) (n : Int) :
    BitVec.ofInt w (n - 2 * ((2 ^ (w - 1) : Nat) : Int)) = BitVec.ofInt w n := by
  have hcast : 2 * ((2 ^ (w - 1) : Nat) : Int) = ((2 ^ w : Nat) : Int) := by
    rw [two_pow_eq hw, Nat.cast_mul, Nat.cast_ofNat]
  apply BitVec.eq_of_toNat_eq
  rw [BitVec.toNat_ofInt, BitVec.toNat_ofInt, hcast, Int.sub_emod_right]

theorem exactResult_eq (sat : Bool) (w : Nat) (n : Int) :
    exactResult sat w n =
      if !sat || fits w n then BitVec.ofInt w n
      else BitVec.ofInt w (if n < 0 then -((2 ^ (w - 1) : Nat) : Int) else ((2 ^ (w - 1) : Nat) : Int) - 1) := by
  rw [exactResult, Nat.cast_pow, Nat.cast_ofNat]
  split
  · rfl
  · split <;> rfl

/-- The exact result of a sum or difference of two numbers of `w` bits: itself, the extreme of its side, or itself a
turn of `2^w` away. -/
theorem exactResult_toInt (hw : 0 < w) (sat : Bool) (hlow : -(2 * ((2 ^ (w - 1) : Nat) : Int)) ≤ n)
    (hhigh : n < 2 * ((2 ^ (w - 1) : Nat) : Int)) :
    (exactResult sat w n).toInt =
      if fits w n then n
      else if n < 0 then (if sat then -((2 ^ (w - 1) : Nat) : Int) else n + 2 * ((2 ^ (w - 1) : Nat) : Int))
      else (if sat then ((2 ^ (w - 1) : Nat) : Int) - 1 else n - 2 * ((2 ^ (w - 1) : Nat) : Int)) := by
  have hM : 0 < 2 ^ (w - 1) := Nat.two_pow_pos _
  have hfit := fits_iff (w := w) n
  rw [exactResult_eq]
  cases h : fits w n with
  | true => simpa using toInt_ofInt_of_fits hw h
  | false =>
    rw [h] at hfit
    simp only [Bool.false_eq_true, false_iff] at hfit
    cases sat with
    | true =>
      simp only [Bool.not_true, Bool.or_false, Bool.false_eq_true, if_false, if_true]
      rw [toInt_ofInt_of_fits hw ((fits_iff _).mpr (by split <;> omega))]
    | false =>
      simp only [Bool.not_false, Bool.true_or, Bool.false_eq_true, if_false, if_true]
      split
      · have hback := ofInt_sub_two_pow hw (n + 2 * ((2 ^ (w - 1) : Nat) : Int))
        rw [Int.add_sub_cancel] at hback
        rw [hback, toInt_ofInt_of_fits hw ((fits_iff _).mpr (by omega))]
      · rw [← ofInt_sub_two_pow hw, toInt_ofInt_of_fits hw ((fits_iff _).mpr (by omega))]

/-- The exact result of a difference has the difference's sign, corrected by the overflow term, and is zero with it
(R255, D1). -/
theorem exactResult_sign (hw : 1 < w) (sat : Bool) (hlow : -(2 * ((2 ^ (w - 1) : Nat) : Int)) < n)
    (hhigh : n < 2 * ((2 ^ (w - 1) : Nat) : Int)) :
    (decide ((exactResult sat w n).toInt < 0) ^^ condOverflow (!fits w n) sat) = decide (n < 0) ∧
      decide ((exactResult sat w n).toNat = 0) = decide (n = 0) := by
  have hM : 1 < 2 ^ (w - 1) := Nat.one_lt_two_pow (by omega)
  have hpos : 0 < w := by omega
  have hfit := fits_iff (w := w) n
  have hval := exactResult_toInt hpos sat hlow.le hhigh
  have hzero : (exactResult sat w n).toNat = 0 ↔ (exactResult sat w n).toInt = 0 := by
    rcases toInt_cases hpos (exactResult sat w n) with ⟨-, h, e⟩ | ⟨-, h, h', e⟩ <;> omega
  generalize 2 ^ (w - 1) = M at *
  rw [decide_eq_decide, hzero]
  cases h : fits w n with
  | true =>
    rw [if_pos h] at hval
    simp [condOverflow, hval]
  | false =>
    rw [h] at hfit hval
    simp only [Bool.false_eq_true, false_iff, if_false] at hfit hval
    cases sat with
    | true =>
      simp only [if_true] at hval
      simp only [condOverflow, Bool.not_true, Bool.and_false, Bool.xor_false, decide_eq_decide]
      split at hval <;> omega
    | false =>
      simp only [Bool.false_eq_true, if_false] at hval
      simp only [condOverflow, Bool.not_false, Bool.and_true, Bool.xor_true, ← decide_not, decide_eq_decide]
      split at hval <;> omega

end

/-! ## The signed conditions after SUB -/

/-- What `exactResult_sign` says of the flags of a difference: the six comparing conditions (R255). -/
theorem condHolds_compare {t : State} {a b : Int} (hless : signedLess t = decide (a < b))
    (hzero : t.flagZ = decide (a = b)) :
    condHolds t .lt = decide (a < b) ∧ condHolds t .le = decide (a ≤ b) ∧ condHolds t .ge = decide (b ≤ a) ∧
      condHolds t .gt = decide (b < a) ∧ condHolds t .zs = decide (a = b) ∧ condHolds t .zc = decide (a ≠ b) := by
  have hle : (signedLess t || t.flagZ) = decide (a ≤ b) := by
    rw [hless, hzero, ← Bool.decide_or, decide_eq_decide]
    exact Int.le_iff_lt_or_eq.symm
  refine ⟨hless, hle, ?_, ?_, hzero, ?_⟩
  · show (!signedLess t) = _
    rw [hless, ← decide_not, decide_eq_decide, Int.not_lt]
  · show (!(signedLess t || t.flagZ)) = _
    rw [hle, ← decide_not, decide_eq_decide, Int.not_le]
  · show (!t.flagZ) = _
    rw [hzero, ← decide_not]

section
variable {op1 op2 : AluOp} {dst : DataReg} {s t : State}

/-- A 16-bit or 40-bit difference leaves its sign and its zero in the flags as `signedLess` and Z read them. -/
theorem difference_flags {w : Nat} (hw : 1 < w) {a b : BitVec w} {u : State} {f : Flags} (hu : u.flagS = s.flagS)
    (hn : f.n = decide ((exactResult s.flagS w (a.toInt - b.toInt)).toInt < 0))
    (hv : f.v = !fits w (a.toInt - b.toInt))
    (hz : f.z = decide ((exactResult s.flagS w (a.toInt - b.toInt)).toNat = 0)) :
    signedLess (putFlags u f) = decide (a.toInt < b.toInt) ∧
      (putFlags u f).flagZ = decide (a.toInt = b.toInt) := by
  have hpos : 0 < w := by omega
  obtain ⟨hsign, hzero⟩ := exactResult_sign hw s.flagS (n := a.toInt - b.toInt)
    (by rcases toInt_cases hpos a with ⟨-, h, e⟩ | ⟨-, h, h', e⟩ <;>
          rcases toInt_cases hpos b with ⟨-, k, f⟩ | ⟨-, k, k', f⟩ <;> omega)
    (by rcases toInt_cases hpos a with ⟨-, h, e⟩ | ⟨-, h, h', e⟩ <;>
          rcases toInt_cases hpos b with ⟨-, k, f⟩ | ⟨-, k, k', f⟩ <;> omega)
  constructor
  · rw [signedLess, flagN_putFlags, flagV_putFlags, flagS_putFlags, hu, hn, hv, hsign, decide_eq_decide]
    exact sub_neg
  · rw [flagZ_putFlags, hz, hzero, decide_eq_decide]
    exact Int.sub_eq_zero

/-- A difference in exact integers, with no borrow going in. -/
theorem subOut_eq {w : Nat} (hw : 0 < w) (sat : Bool) (a b : BitVec w) :
    subOut sat w a b =
      ⟨exactResult sat w (a.toInt - b.toInt), !fits w (a.toInt - b.toInt), decide (b.toNat ≤ a.toNat)⟩ := by
  rw [subOut, addcore_not_eq hw]
  simp

end

/-! ## Two words -/

theorem toNat_append_eq {m n : Nat} (x : BitVec m) (y : BitVec n) : (x ++ y).toNat = x.toNat * 2 ^ n + y.toNat := by
  rw [BitVec.toNat_append, ← Nat.shiftLeft_add_eq_or_of_lt y.isLt, Nat.shiftLeft_eq]

/-- Two additions, the second taking the carry of the first, add two words as one (R136, R137). -/
theorem addcore_twoWords (xh xl yh yl : Word) (c : Bool) :
    (addcore false 16 xh yh (addcore false 16 xl yl c).c).r ++ (addcore false 16 xl yl c).r =
      (xh ++ xl) + (yh ++ yl) + BitVec.ofNat 32 c.toNat := by
  have hc : c.toNat ≤ 1 := Bool.toNat_le c
  have hcarry : (decide (2 ^ 16 ≤ xl.toNat + yl.toNat + c.toNat)).toNat = (xl.toNat + yl.toNat + c.toNat) / 2 ^ 16 := by
    by_cases h : 2 ^ 16 ≤ xl.toNat + yl.toNat + c.toNat
    · rw [decide_eq_true h, Bool.toNat_true]
      omega
    · rw [decide_eq_false h, Bool.toNat_false]
      omega
  apply BitVec.eq_of_toNat_eq
  simp only [addcore, Bool.and_false, Bool.false_eq_true, if_false, toNat_append_eq, BitVec.toNat_add,
    BitVec.toNat_ofNat, hcarry]
  omega

/-- A 16-bit addition or subtraction of two registers, without saturation and with no move, leaves its sum and carry. -/
theorem runWith_word {f : (w : Nat) → BitVec w → BitVec w → AluOut w} {x y dst : DataReg} {m : ParMove} {s : State}
    (hm : m.isVoid = true) :
    runWith (alu2 f (.reg x) (.reg y) dst s) m s =
      .next (putFlags (putData s dst (f 16 (s.data x) (s.data y)).r) (flagsOf (f 16 (s.data x) (s.data y)))) := by
  rw [alu2_narrow rfl rfl, runWith_result16 (parWrites_void hm s) (noClash_nil _)]
  rfl

/-- What two such instructions in turn leave in their targets, the second reading the first's flags. -/
theorem data_twoWords {s t : State} {dl dh xh yh : DataReg} {l h : Word} {fl fh : Flags} (hdh : dl ≠ dh)
    (ht : t = putFlags (putData s dl l) fl) :
    (putFlags (putData t dh h) fh).data dh ++ (putFlags (putData t dh h) fh).data dl = h ++ l ∧
      (dl ≠ xh → dl ≠ yh → t.data xh = s.data xh ∧ t.data yh = s.data yh) := by
  subst ht
  refine ⟨?_, fun hx hy => ⟨?_, ?_⟩⟩
  · rw [State.data_putFlags, State.data_putFlags, State.data_putData_same, State.data_putData_of_ne _ _ hdh,
      State.data_putFlags, State.data_putData_same]
  · rw [State.data_putFlags, State.data_putData_of_ne _ _ hx.symm]
  · rw [State.data_putFlags, State.data_putData_of_ne _ _ hy.symm]

/-- The complement of two words is the two complements. -/
theorem not_twoWords (h l : Word) : ~~~h ++ ~~~l = ~~~(h ++ l) := BitVec.not_append.symm

end Sys2Proof.Machine

/-! ## The statements -/

section
open Sys2Proof Sys2Proof.Machine

/-- Settles O6: the adder in exact integers (`addcore_eq`) at the width of the operands. -/
theorem additionResults : Obligations.AdditionResults := by
  intro op1 op2 dst m s mw hm
  refine ⟨fun h1 h2 hc => ⟨?_, ?_⟩, fun hp hw x hx hc => ⟨?_, ?_⟩⟩
  · exact runWith_alu2_narrow hm h1 h2 hc (addcore_eq (by decide) _ _ _ false)
  · exact runWith_alu2_narrow hm h1 h2 hc (addcore_eq (by decide) _ _ _ _)
  · exact runWith_alu2_wide hm hp hw hx hc (addcore_eq (by decide) _ _ _ false)
  · exact runWith_alu2_wide hm hp hw hx hc (addcore_eq (by decide) _ _ _ _)

/-- Settles O7: the addition of the complement in exact integers (`addcore_not_eq`). -/
theorem subtractionResults : Obligations.SubtractionResults := by
  intro op1 op2 dst m s mw hm
  refine ⟨fun h1 h2 hc => ⟨?_, ?_⟩, fun hp hw x hx hc => ⟨?_, ?_⟩⟩
  · exact runWith_alu2_narrow hm h1 h2 hc (addcore_not_eq (by decide) _ _ _ true)
  · exact runWith_alu2_narrow hm h1 h2 hc (addcore_not_eq (by decide) _ _ _ _)
  · exact runWith_alu2_wide hm hp hw hx hc (addcore_not_eq (by decide) _ _ _ true)
  · exact runWith_alu2_wide hm hp hw hx hc (addcore_not_eq (by decide) _ _ _ _)

/-- Settles O9: three rows are a sum or an exclusive or on every operand; every other instruction is its own core. -/
theorem aliasesAreTheirCore : Obligations.AliasesAreTheirCore := by
  intro i s
  cases i with
  | not op2 dst m => exact congrArg (runWith · m s) alu1_not_eq_alu2
  | lsl op2 dst m => exact congrArg (runWith · m s) (shiftLeft1_eq_alu2 s.flagS false)
  | lslc op2 dst m => exact congrArg (runWith · m s) (shiftLeft1_eq_alu2 s.flagS s.flagC)
  | _ => rfl

/-- Settles O8: the doubling in exact integers (`shiftLeft1Out_exact`). -/
theorem shiftLeftOneResults : Obligations.ShiftLeftOneResults := by
  intro op2 dst m s mw hm
  have hexec (hp : op2 ≠ .p) (sat c : Bool) :
      runWith (if op2 = .p then reserved .aluOperand else alu1 (shiftLeft1Out sat c) op2 dst s) m s =
        runWith (alu1 (shiftLeft1Out sat c) op2 dst s) m s := by rw [if_neg hp]
  have hdouble {w : Nat} (hw : 0 < w) (a : BitVec w) : shiftLeft1Out s.flagS false w a =
      ⟨exactResult s.flagS w (2 * a.toInt), !fits w (2 * a.toInt), a.getLsbD (w - 1)⟩ := by
    simpa using shiftLeft1Out_exact hw s.flagS false a
  refine ⟨fun h2 hc => ?_, fun hp h2 x hx hc => ?_⟩
  · have hp : op2 ≠ .p := fun e => by simp [e, AluOp.isWide] at h2
    exact ⟨(hexec hp _ _).trans (runWith_alu1_narrow hm h2 hc (hdouble (by decide) _)),
      (hexec hp _ _).trans (runWith_alu1_narrow hm h2 hc (shiftLeft1Out_exact (by decide) _ _ _))⟩
  · exact ⟨(hexec hp _ _).trans (runWith_alu1_wide hm h2 hx hc (hdouble (by decide) _)),
      (hexec hp _ _).trans (runWith_alu1_wide hm h2 hx hc (shiftLeft1Out_exact (by decide) _ _ _))⟩

/-- Settles O10: the flags are those of the exact difference (`difference_flags`). -/
theorem signedConditionsCompare : Obligations.SignedConditionsCompare := by
  intro op1 op2 dst m s t hm h
  have hp : op1 ≠ .p := by
    rintro rfl
    cases h
  cases hw : op1.isWide || op2.isWide with
  | false =>
    obtain ⟨h1, h2⟩ := Bool.or_eq_false_iff.mp hw
    have hexec : exec (.sub op1 op2 dst m) s = _ :=
      runWith_alu2_narrow (parWrites_void hm s) h1 h2 (noClash_nil _) (subOut_eq (by decide) s.flagS _ _)
    rw [hexec] at h
    cases h
    obtain ⟨hless, hzero⟩ := difference_flags (s := s) (f := flags16 _ _ _) (a := val16 s op1) (b := val16 s op2)
      (by decide) (flagS_putData ..) rfl rfl rfl
    exact condHolds_compare hless hzero
  | true =>
    have hodd : ∃ x, dst.wideAcc = some x := by
      by_contra hno
      have heven : exec (.sub op1 op2 dst m) s = .refused (.reserved .aluResult40) := by
        show runWith (alu2 _ op1 op2 dst s) m s = _
        rw [alu2_even _ hp hw (Option.eq_none_iff_forall_ne_some.mpr fun x hx => hno ⟨x, hx⟩), runWith_reserved]
      rw [heven] at h
      cases h
    obtain ⟨x, hx⟩ := hodd
    have hexec : exec (.sub op1 op2 dst m) s = _ :=
      runWith_alu2_wide (parWrites_void hm s) hp hw hx (noClash_nil _) (subOut_eq (by decide) s.flagS _ _)
    rw [hexec] at h
    cases h
    obtain ⟨hless, hzero⟩ := difference_flags (s := s) (f := flags40 _ _ _) (a := val40 s op1) (b := val40 s op2)
      (by decide) (flagS_putAcc ..) rfl rfl rfl
    exact condHolds_compare hless hzero

/-- Settles O60: the carry of the low words goes into the high ones through C (`addcore_twoWords`). -/
theorem multiWordArithmetic : Obligations.MultiWordArithmetic := by
  intro xl xh yl yh dl dh m s hS hm hxh hyh hdh x y
  refine ⟨⟨_, _, runWith_word hm, runWith_word hm, ?_⟩, ⟨_, _, runWith_word hm, runWith_word hm, ?_⟩⟩
  · obtain ⟨hdata, hkept⟩ := data_twoWords (s := s) (h := _) (fh := _) (fl := _) (l := _) (xh := xh) (yh := yh) hdh rfl
    obtain ⟨hx, hy⟩ := hkept hxh hyh
    rw [hdata, hx, hy, flagS_putFlags, flagS_putData, hS, flagC_putFlags]
    exact (addcore_twoWords _ _ _ _ false).trans (BitVec.add_zero _)
  · obtain ⟨hdata, hkept⟩ := data_twoWords (s := s) (h := _) (fh := _) (fl := _) (l := _) (xh := xh) (yh := yh) hdh rfl
    obtain ⟨hx, hy⟩ := hkept hxh hyh
    rw [hdata, hx, hy, flagS_putFlags, flagS_putData, hS, flagC_putFlags]
    refine (addcore_twoWords _ _ _ _ true).trans ?_
    rw [not_twoWords, BitVec.add_assoc]
    show x + (~~~y + 1#32) = x - y
    rw [← BitVec.neg_eq_not_add, BitVec.sub_eq_add_neg]

/-- Settles O5: the widening is a multiplication by `2^16`, the sign extensions keep the number; the rest is the
definition. -/
theorem operandAndBusValues : Obligations.OperandAndBusValues := by
  intro s
  refine ⟨fun r => ⟨rfl, ?widen⟩, ⟨rfl, rfl⟩, ⟨rfl, rfl⟩, ?p, fun _ => rfl, fun _ => rfl, fun _ => rfl, fun x => ?guard,
    rfl, rfl, rfl, rfl, rfl, rfl, rfl, rfl, rfl⟩
  case widen =>
    have hextend : ((s.data r).signExtend 24).toNat = ((s.data r).toInt % 2 ^ 24).toNat := BitVec.toNat_ofInt _
    apply BitVec.eq_of_toNat_eq
    rw [val40, widen, toNat_append_eq, hextend, BitVec.toNat_ofInt, BitVec.toNat_ofNat]
    omega
  case p => exact BitVec.toInt_signExtend_of_le (by decide)
  case guard => exact BitVec.toInt_signExtend_of_le (by decide)

end
end

section
/-! The barrel shifter, ABS, EXP, SAT, RND and the multiplier in exact integers (40_alu.md R146 to R160, 41_multiplier.md
R181 to R185). -/

namespace Sys2Proof.Machine

/-! ## The barrel shifter -/

section
variable {w : Nat}

theorem msb_iff_neg (a : BitVec w) : a.msb = true ↔ a.toInt < 0 := by
  rw [msb_eq_toInt_neg, decide_eq_true_eq]

theorem shiftLeft_eq_ofInt (a : BitVec w) (n : Nat) : a <<< n = BitVec.ofInt w (a.toInt * 2 ^ n) := by
  have hpow : BitVec.ofInt w (2 ^ n) = BitVec.twoPow w n := by
    rw [show (2 : Int) ^ n = ((2 ^ n : Nat) : Int) by push_cast; rfl, BitVec.ofInt_natCast]
    apply BitVec.eq_of_toNat_eq
    rw [BitVec.toNat_ofNat, BitVec.toNat_twoPow]
  rw [BitVec.ofInt_mul, BitVec.ofInt_toInt, hpow, BitVec.shiftLeft_eq_mul_twoPow]

theorem sshiftRight_eq_ofInt (a : BitVec w) (n : Nat) : a.sshiftRight n = BitVec.ofInt w (a.toInt / 2 ^ n) := by
  rw [BitVec.sshiftRight, Int.shiftRight_eq_div_pow, Nat.cast_pow, Nat.cast_ofNat]

/-- The quotient by a positive number is 0 or -1 exactly between it and its negative. -/
theorem ediv_between {a d : Int} (hd : 0 < d) :
    (-1 ≤ a / d ↔ -d ≤ a) ∧ (0 ≤ a / d ↔ 0 ≤ a) ∧ (a / d < 1 ↔ a < d) := by
  refine ⟨?_, ?_, ?_⟩
  · rw [Int.le_ediv_iff_mul_le hd, Int.neg_one_mul]
  · rw [Int.le_ediv_iff_mul_le hd, Int.zero_mul]
  · rw [Int.ediv_lt_iff_lt_mul hd, Int.one_mul]

/-- The top `n + 1` bits of a number are all equal exactly where it fits when shifted left by `n` (R150). -/
theorem fits_shiftLeft_iff {n : Nat} (hn : n < w) (a : BitVec w) :
    fits w (a.toInt * 2 ^ n) = true ↔ a.sshiftRight (w - 1 - n) = a.sshiftRight (w - 1) := by
  have hw : 0 < w := by omega
  have hN : (0 : Int) < 2 ^ n := by positivity
  have hD : (0 : Int) < 2 ^ (w - 1 - n) := by positivity
  have hP : (0 : Int) < 2 ^ (w - 1) := by positivity
  have hsplit : (2 : Int) ^ (w - 1) = 2 ^ (w - 1 - n) * 2 ^ n := by rw [← pow_add]; congr 1; omega
  have hfits : fits w (a.toInt * 2 ^ n) = true ↔ -(2 ^ (w - 1 - n)) ≤ a.toInt ∧ a.toInt < 2 ^ (w - 1 - n) := by
    rw [fits, decide_eq_true_eq, hsplit, ← Int.neg_mul, mul_le_mul_iff_of_pos_right hN, mul_lt_mul_iff_of_pos_right hN]
  obtain ⟨hlow, hhigh⟩ := (fits_iff (w := w) a.toInt).mp (fits_toInt hw a)
  rw [Nat.cast_pow, Nat.cast_ofNat] at hlow hhigh
  obtain ⟨hd1, hd2, hd3⟩ := ediv_between (a := a.toInt) hD
  obtain ⟨hp1, hp2, hp3⟩ := ediv_between (a := a.toInt) hP
  rw [hfits, ← BitVec.toInt_inj, BitVec.toInt_sshiftRight, BitVec.toInt_sshiftRight, Int.shiftRight_eq_div_pow,
    Int.shiftRight_eq_div_pow, Nat.cast_pow, Nat.cast_pow, Nat.cast_ofNat]
  generalize a.toInt / 2 ^ (w - 1 - n) = q at *
  generalize a.toInt / 2 ^ (w - 1) = p at *
  omega

/-- A left shift in range in exact integers. -/
theorem shiftLeftOut_eq (sat : Bool) {n : Nat} (hn : n < w) (a : BitVec w) :
    shiftLeftOut sat w a n =
      ⟨exactResult sat w (a.toInt * 2 ^ n), !fits w (a.toInt * 2 ^ n), a.getLsbD (w - n)⟩ := by
  have hw : 0 < w := by omega
  have hN : (0 : Int) < 2 ^ n := by positivity
  have hv : decide (a.sshiftRight (w - 1 - n) ≠ a.sshiftRight (w - 1)) = !fits w (a.toInt * 2 ^ n) := by
    rw [decide_not, Bool.not_eq_eq_eq_not, Bool.not_not, Bool.eq_iff_iff, decide_eq_true_eq, fits_shiftLeft_iff hn]
  have hsign : a.msb = true ↔ a.toInt * 2 ^ n < 0 := by
    rw [msb_iff_neg, Int.mul_neg_iff]
    omega
  simp only [shiftLeftOut, hv, wrap_or_saturate hw (shiftLeft_eq_ofInt a n) rfl fun _ => hsign]

/-- ASHL by a count in range (R150). -/
theorem ashlOut_eq (sat : Bool) (k : Nat) (a : BitVec w) {n : Int} (hlow : -((w : Int) - 1) ≤ n)
    (hhigh : n ≤ (w : Int) - 1) :
    (n = 0 → ashlOut sat k w a n = ⟨a, false, false⟩) ∧
      (0 < n → ashlOut sat k w a n = ⟨exactResult sat w (a.toInt * 2 ^ n.toNat), !fits w (a.toInt * 2 ^ n.toNat),
        a.getLsbD (w - n.toNat)⟩) ∧
      (n < 0 → ashlOut sat k w a n =
        ⟨BitVec.ofInt w (a.toInt / 2 ^ (-n).toNat), false, a.getLsbD ((-n).toNat - 1)⟩) := by
  have hin : ¬ (n < -((w : Int) - 1) ∨ (w : Int) - 1 < n) := by omega
  unfold ashlOut
  rw [if_neg hin]
  refine ⟨fun h => if_pos h, fun h => ?_, fun h => ?_⟩
  · rw [if_neg (by omega), if_pos h, shiftLeftOut_eq sat (by omega)]
  · rw [if_neg (by omega), if_neg (by omega), sshiftRight_eq_ofInt]

/-- ASHL is an operation on its Op1 (R150). -/
theorem ashlWrites_eq {op1 op2 : AluOp} {dst : DataReg} {s : State} (hp : op1 ≠ .p) (h2 : op2.isWide = false) :
    ashlWrites op1 op2 dst s =
      alu1 (fun w a => ashlOut s.flagS s.freeCount w a (val16 s op2).toInt) op1 dst s := by
  rw [ashlWrites, if_neg hp, if_neg (by simp [h2])]
  rfl

/-! ## ABS -/

theorem intMin_iff (hw : 0 < w) (a : BitVec w) : a = BitVec.intMin w ↔ a.toInt = -((2 ^ (w - 1) : Nat) : Int) := by
  rw [← BitVec.toInt_inj, BitVec.toInt_intMin_of_pos hw, Nat.cast_pow, Nat.cast_ofNat]

/-- ABS in exact integers: only the least number has no absolute value of its width (R146). -/
theorem absOut_eq (hw : 0 < w) (sat c : Bool) (a : BitVec w) :
    absOut sat c w a = ⟨exactResult sat w a.toInt.natAbs, !fits w a.toInt.natAbs, c⟩ := by
  obtain ⟨hlow, hhigh⟩ := (fits_iff (w := w) a.toInt).mp (fits_toInt hw a)
  cases hm : a.msb with
  | true =>
    have hneg : a.toInt < 0 := (msb_iff_neg a).mp hm
    have habs : (a.toInt.natAbs : Int) = -a.toInt := by omega
    have hv : decide (a = BitVec.intMin w) = !fits w a.toInt.natAbs := by
      rw [Bool.eq_iff_iff, decide_eq_true_eq, Bool.not_eq_true', ← Bool.not_eq_true, fits_iff, intMin_iff hw]
      omega
    have hr : -a = BitVec.ofInt w a.toInt.natAbs := by rw [habs, BitVec.ofInt_neg, BitVec.ofInt_toInt]
    have hout := wrap_or_saturate hw (sat := sat) (negative := false) hr rfl (fun _ => by simp)
    simp only [absOut, hm, if_true, hv]
    exact congrArg (AluOut.mk · _ c) hout
  | false =>
    have hpos : ¬ a.toInt < 0 := by rw [← msb_iff_neg a, hm]; exact Bool.false_ne_true
    have habs : (a.toInt.natAbs : Int) = a.toInt := by omega
    have hfit : fits w a.toInt = true := fits_toInt hw a
    simp [absOut, hm, habs, exactResult, hfit]

/-! ## EXP -/

/-- The run of leading bits equal to the most significant one: those bits, and the first that differs (R153). -/
theorem leadRun_spec (a : BitVec w) (k : Nat) :
    leadRun a k ≤ k ∧ (∀ j, j < leadRun a k → a.getLsbD (k - 1 - j) = a.msb) ∧
      (leadRun a k < k → a.getLsbD (k - 1 - leadRun a k) ≠ a.msb) := by
  induction k with
  | zero => simp [leadRun]
  | succ k ih =>
    obtain ⟨hle, hrun, hend⟩ := ih
    unfold leadRun
    split
    · rename_i htop
      refine ⟨by omega, fun j hj => ?_, fun hlt => ?_⟩
      · cases j with
        | zero => exact htop
        | succ j =>
          have := hrun j (by omega)
          rwa [show k + 1 - 1 - (j + 1) = k - 1 - j by omega]
      · have := hend (by omega)
        rwa [show k + 1 - 1 - (leadRun a k + 1) = k - 1 - leadRun a k by omega]
    · exact ⟨by omega, fun j hj => absurd hj (Nat.not_lt_zero j), fun _ => ‹_›⟩

/-- EXP of a number that is not 0 counts the leading bits equal to the most significant one, that one included. -/
theorem expResult_spec (hw : 0 < w) (hsmall : w < 2 ^ 16) {a : BitVec w} (ha : a ≠ 0#w) :
    1 ≤ (expResult a).toNat ∧ (expResult a).toNat ≤ w ∧
      (∀ k, k < (expResult a).toNat → a.getLsbD (w - 1 - k) = a.getLsbD (w - 1 - 0)) ∧
      ((expResult a).toNat < w → a.getLsbD (w - 1 - (expResult a).toNat) ≠ a.getLsbD (w - 1 - 0)) := by
  obtain ⟨hle, hrun, hend⟩ := leadRun_spec a w
  have hr : (expResult a).toNat = leadRun a w := by
    rw [expResult, if_neg ha, BitVec.toNat_ofNat, expBias, Nat.sub_zero, Nat.mod_eq_of_lt (by omega)]
  have hmsb : a.msb = a.getLsbD (w - 1 - 0) := msb_eq_bit a
  rw [hr]
  refine ⟨?_, hle, fun k hk => (hrun k hk).trans hmsb, fun hlt => hmsb ▸ hend hlt⟩
  by_contra hnone
  have hzero : leadRun a w = 0 := by omega
  exact hend (by omega) (by rw [hzero, hmsb])

end

/-! ## Results with flags of their own -/

section
variable {dst : DataReg} {m : ParMove} {s : State} {mw : List Write}

/-- A 16-bit result with any flags completes. -/
theorem runWith_data16 {r : Word} {f : Flags} (hm : parWrites s m = .ok mw)
    (hc : noClash (result16Places dst) mw = true) :
    runWith (.ok (writeData16 dst r ++ [.flags f])) m s = .next (commit mw (putFlags (putData s dst r) f)) := by
  have hd : distinctPlaces (writeData16 dst r ++ [.flags f]) = true := by cases dst <;> rfl
  have hp : ∀ w ∈ writeData16 dst r ++ [.flags f],
      w.place ∈ result16Places dst ∨ w.place = .flags ∨ w.place = .prod := by
    intro w hw
    rcases List.mem_append.mp hw with h | h
    · left
      rw [result16Places, ← writeData16_places dst r]
      exact List.mem_map_of_mem h
    · obtain rfl := List.mem_singleton.mp h
      exact .inr (.inl rfl)
  rw [runWith_completes hm hd hp hc, commit_append, commit_writeData16]
  rfl

/-- A 40-bit result with any flags completes. -/
theorem runWith_acc40 {x : AccName} {r : Wide} {f : Flags} (hm : parWrites s m = .ok mw)
    (hc : noClash (accPlaces x) mw = true) :
    runWith (.ok (writeAcc40 x r ++ [.flags f])) m s = .next (commit mw (putFlags (putAcc s x r) f)) := by
  rw [runWith_completes hm (result40_distinct x r f) (result40_places x r f) hc, commit_append, commit_writeAcc40]
  rfl

/-- A 40-bit accumulation that also leaves a product completes. -/
theorem runWith_accProd {x : AccName} {r : Wide} {f : Flags} {p : Long} (hm : parWrites s m = .ok mw)
    (hc : noClash (accPlaces x) mw = true) :
    runWith (.ok (writeAcc40 x r ++ [.flags f, .prod p])) m s =
      .next (commit mw (putProd (putFlags (putAcc s x r) f) p)) := by
  have hd : distinctPlaces (writeAcc40 x r ++ [.flags f, .prod p]) = true := by cases x <;> rfl
  have hp : ∀ w ∈ writeAcc40 x r ++ [.flags f, .prod p],
      w.place ∈ accPlaces x ∨ w.place = .flags ∨ w.place = .prod := by
    intro w hw
    rcases List.mem_append.mp hw with h | h
    · left
      rw [← writeAcc40_places x r]
      exact List.mem_map_of_mem h
    · simp only [List.mem_cons, List.not_mem_nil, or_false] at h
      rcases h with rfl | rfl
      · exact .inr (.inl rfl)
      · exact .inr (.inr rfl)
  rw [runWith_completes hm hd hp hc, commit_append, commit_writeAcc40]
  rfl

end

/-! ## SAT and RND -/

theorem satResult_eq (a : Wide) :
    satResult a = (BitVec.ofInt 40 (max (-(2 ^ 31)) (min (2 ^ 31 - 1) a.toInt)), !fits 32 a.toInt) := by
  have hfit := fits_iff (w := 32) a.toInt
  unfold satResult
  split
  · have hno : fits 32 a.toInt = false := by rw [← Bool.not_eq_true, hfit]; omega
    rw [hno, show max (-(2 ^ 31)) (min (2 ^ 31 - 1) a.toInt) = 2 ^ 31 - 1 by omega]
    rfl
  · split
    · have hno : fits 32 a.toInt = false := by rw [← Bool.not_eq_true, hfit]; omega
      rw [hno, show max (-(2 ^ 31)) (min (2 ^ 31 - 1) a.toInt) = -(2 ^ 31) by omega]
      rfl
    · have hyes : fits 32 a.toInt = true := by rw [hfit]; omega
      rw [hyes, show max (-(2 ^ 31)) (min (2 ^ 31 - 1) a.toInt) = a.toInt by omega, BitVec.ofInt_toInt]
      rfl

/-- The flags of a result that fits 32 bits: its E is 0. -/
theorem satFlags_of_fits {r : Wide} (hr : fits 32 r.toInt = true) (v : Bool) : satFlags r v = flags40 r v false := by
  simp [satFlags, flags40, msb_eq_toInt_neg, hr, ← BitVec.toNat_inj]

/-- The result of SAT always fits 32 bits. -/
theorem satFlags_eq (n : Int) (v : Bool) :
    satFlags (BitVec.ofInt 40 (max (-(2 ^ 31)) (min (2 ^ 31 - 1) n))) v =
      flags40 (BitVec.ofInt 40 (max (-(2 ^ 31)) (min (2 ^ 31 - 1) n))) v false := by
  apply satFlags_of_fits
  rw [toInt_ofInt_of_fits (by decide) ((fits_iff _).mpr (by omega)), fits_iff]
  omega

/-- The rounding picks the nearest, ties to even, or cuts toward zero (R160, D3). -/
theorem rndRounded_eq {convergent : Bool} {a : Wide} {q : Int}
    (h : if convergent then 2 * (a.toInt - q * 2 ^ 16).natAbs ≤ 2 ^ 16 ∧
        (2 * (a.toInt - q * 2 ^ 16).natAbs = 2 ^ 16 → q % 2 = 0)
      else q = a.toInt.tdiv (2 ^ 16)) : rndRounded convergent a = q := by
  cases convergent with
  | true =>
    simp only [if_true] at h
    simp only [rndRounded, if_true, Bool.or_eq_true, Bool.and_eq_true, decide_eq_true_eq]
    split <;> omega
  | false =>
    simp only [Bool.false_eq_true, if_false] at h
    rw [Int.tdiv_eq_ediv] at h
    simp only [rndRounded, rndUpTowardZero, Bool.false_eq_true, if_false, Bool.and_eq_true, decide_eq_true_eq]
    have hsign : Int.sign (2 ^ 16) = 1 := rfl
    rw [hsign] at h
    split at h <;> split <;> omega

theorem rndResult_eq {convergent : Bool} {a : Wide} {q : Int} (hq : rndRounded convergent a = q) :
    rndResult convergent a = (BitVec.ofInt 16 (max (-(2 ^ 15)) (min (2 ^ 15 - 1) q)), !fits 16 q) := by
  have hfit := fits_iff (w := 16) q
  unfold rndResult
  dsimp only
  rw [hq]
  split
  · have hno : fits 16 q = false := by rw [← Bool.not_eq_true, hfit]; omega
    rw [hno, show max (-(2 ^ 15)) (min (2 ^ 15 - 1) q) = 2 ^ 15 - 1 by omega]
    rfl
  · split
    · have hno : fits 16 q = false := by rw [← Bool.not_eq_true, hfit]; omega
      rw [hno, show max (-(2 ^ 15)) (min (2 ^ 15 - 1) q) = -(2 ^ 15) by omega]
      rfl
    · have hyes : fits 16 q = true := by rw [hfit]; omega
      rw [hyes, show max (-(2 ^ 15)) (min (2 ^ 15 - 1) q) = q by omega]
      rfl

theorem rndFlags_eq (r : Word) (v : Bool) : rndFlags r v = flags16 r v false := by
  simp [rndFlags, flags16, msb_eq_toInt_neg, ← BitVec.toNat_inj]

/-! ## The multiplier -/

theorem mulValue1_eq (mode : MulMode) (x : Word) : mulValue1 mode x = operandValue (op1Signed mode) x := by
  cases mode <;> rfl

theorem mulValue2_eq (mode : MulMode) (y : Word) : mulValue2 mode y = operandValue (op2Signed mode) y := by
  cases mode <;> rfl

/-- Two signed words multiply to `2^30` only where both are the least word. -/
theorem product_eq_two_pow_30 (x y : Word) : x.toInt * y.toInt = 2 ^ 30 ↔ x = 0x8000#16 ∧ y = 0x8000#16 := by
  constructor
  · intro h
    obtain ⟨hx, hx'⟩ := (fits_iff (w := 16) x.toInt).mp (fits_toInt (by decide) x)
    obtain ⟨hy, hy'⟩ := (fits_iff (w := 16) y.toInt).mp (fits_toInt (by decide) y)
    norm_num at hx hx' hy hy'
    have hleast : x.toInt = -32768 := by
      by_contra hne
      have hx1 : -32767 ≤ x.toInt := by omega
      rcases lt_or_ge y.toInt 0 with hneg | hpos
      · nlinarith
      · nlinarith
    rw [hleast] at h
    have hleast' : y.toInt = -32768 := by omega
    exact ⟨BitVec.eq_of_toInt_eq hleast, BitVec.eq_of_toInt_eq hleast'⟩
  · rintro ⟨rfl, rfl⟩
    rfl

/-- The product for P in exact integers (R181, R182). -/
theorem product_eq (int sat : Bool) (mode : MulMode) (x y : Word) :
    product int sat mode x y =
      if int then BitVec.ofInt 32 (operandValue (op1Signed mode) x * operandValue (op2Signed mode) y)
      else if sat ∧ mode = .ss ∧ operandValue (op1Signed mode) x * operandValue (op2Signed mode) y = 2 ^ 30 then
        BitVec.ofInt 32 (2 ^ 31 - 1)
      else BitVec.ofInt 32 (2 * (operandValue (op1Signed mode) x * operandValue (op2Signed mode) y)) := by
  have hcase : (sat && decide (mode = .ss) && decide (x = 0x8000#16) && decide (y = 0x8000#16)) = true ↔
      sat = true ∧ mode = .ss ∧ operandValue (op1Signed mode) x * operandValue (op2Signed mode) y = 2 ^ 30 := by
    simp only [Bool.and_eq_true, decide_eq_true_eq, and_assoc]
    refine and_congr_right fun _ => and_congr_right fun hmode => ?_
    subst hmode
    exact (product_eq_two_pow_30 x y).symm
  simp only [product, mulValue1_eq, mulValue2_eq, hcase]
  rfl

end Sys2Proof.Machine

/-! ## The statements -/

section
open Sys2Proof Sys2Proof.Machine

/-- Settles O13: ASHL is an operation on Op1 (`ashlWrites_eq`), in exact integers by `ashlOut_eq`. -/
theorem ashlResult : Obligations.AshlResult := by
  intro op1 op2 dst m s mw hm h2 n
  refine ⟨fun h1 hc hlow hhigh => ?_, fun hp h1 x hx hc hlow hhigh => ?_⟩
  · have hp : op1 ≠ .p := fun e => by simp [e, AluOp.isWide] at h1
    have hexec : exec (.ashl op1 op2 dst m) s = _ := congrArg (runWith · m s) (ashlWrites_eq hp h2)
    obtain ⟨hzero, hleft, hright⟩ := ashlOut_eq s.flagS s.freeCount (val16 s op1) (n := n) (by omega) (by omega)
    exact ⟨fun hn => hexec.trans (runWith_alu1_narrow hm h1 hc (hzero hn)),
      fun hn => hexec.trans (runWith_alu1_narrow hm h1 hc (hleft hn)),
      fun hn => hexec.trans (runWith_alu1_narrow hm h1 hc (hright hn))⟩
  · have hexec : exec (.ashl op1 op2 dst m) s = _ := congrArg (runWith · m s) (ashlWrites_eq hp h2)
    obtain ⟨hzero, hleft, hright⟩ := ashlOut_eq s.flagS s.freeCount (val40 s op1) (n := n) (by omega) (by omega)
    exact ⟨fun hn => hexec.trans (runWith_alu1_wide hm h1 hx hc (hzero hn)),
      fun hn => hexec.trans (runWith_alu1_wide hm h1 hx hc (hleft hn)),
      fun hn => hexec.trans (runWith_alu1_wide hm h1 hx hc (hright hn))⟩

/-- Settles O14: whatever the shifter gives, the operation completes with it and the flags of that result. -/
theorem ashlOutOfRangeCompletes : Obligations.AshlOutOfRangeCompletes := by
  intro op1 op2 dst m s mw hm h2 n
  refine ⟨fun h1 hc _ => ?_, fun hp h1 x hx hc _ => ?_⟩
  · have hp : op1 ≠ .p := fun e => by simp [e, AluOp.isWide] at h1
    have hexec : exec (.ashl op1 op2 dst m) s = _ := congrArg (runWith · m s) (ashlWrites_eq hp h2)
    exact ⟨_, _, _, hexec.trans (runWith_alu1_narrow hm h1 hc rfl)⟩
  · have hexec : exec (.ashl op1 op2 dst m) s = _ := congrArg (runWith · m s) (ashlWrites_eq hp h2)
    exact ⟨_, _, _, hexec.trans (runWith_alu1_wide hm h1 hx hc rfl)⟩

/-- Settles O15: ABS in exact integers (`absOut_eq`), its C the free value. -/
theorem absResult : Obligations.AbsResult := by
  intro op2 dst m s mw hm
  exact ⟨fun h2 hc => ⟨_, runWith_alu1_narrow hm h2 hc (absOut_eq (by decide) _ _ _)⟩,
    fun h2 x hx hc => ⟨_, runWith_alu1_wide hm h2 hx hc (absOut_eq (by decide) _ _ _)⟩⟩

/-- Settles O16: the count is the run of leading bits (`expResult_spec`) of the operand at its width. -/
theorem expResult : Obligations.ExpResult := by
  intro op2 dst m s mw hm hc bit width zero
  refine ⟨_, runWith_data16 hm hc, ?_⟩
  cases hwide : op2.isWide with
  | true =>
    simp only [bit, width, zero, hwide, if_true]
    exact ⟨fun h => if_pos h, fun h => expResult_spec (by decide) (by decide) h⟩
  | false =>
    simp only [bit, width, zero, hwide, Bool.false_eq_true, if_false]
    exact ⟨fun h => if_pos h, fun h => expResult_spec (by decide) (by decide) h⟩

/-- Settles O17: the clamps by `satResult_eq` and `rndResult_eq`, the rounding by `rndRounded_eq`. -/
theorem satRndResults : Obligations.SatRndResults := by
  intro op2 dst m s mw hm h2 a
  refine ⟨fun x hx hc => ?_, fun hc q hq => ?_⟩
  · have hwrites : satWrites op2 dst s = .ok (writeAcc40 x (satResult (val40 s op2)).1 ++
        [.flags (satFlags (satResult (val40 s op2)).1 (satResult (val40 s op2)).2)]) := by
      rw [satWrites, if_pos h2, hx]
    show runWith (satWrites op2 dst s) m s = _
    rw [hwrites, runWith_acc40 hm hc, satResult_eq, satFlags_eq]
  · have hwrites : rndWrites op2 dst s = .ok (writeData16 dst (rndResult s.flagR (val40 s op2)).1 ++
        [.flags (rndFlags (rndResult s.flagR (val40 s op2)).1 (rndResult s.flagR (val40 s op2)).2)]) := by
      rw [rndWrites, if_pos h2]
    show runWith (rndWrites op2 dst s) m s = _
    rw [hwrites, runWith_data16 hm hc, rndResult_eq (rndRounded_eq hq), rndFlags_eq]

/-- Settles O18: the product by `product_eq`, the one write of the operation. -/
theorem mulResult : Obligations.MulResult := by
  intro mode op1 op2 m s mw hm hc x y p
  have hp : productOf s mode op1 op2 = p := product_eq _ _ _ _ _
  show runWith (.ok [.prod (productOf s mode op1 op2)]) m s = _
  rw [hp, runWith_completes (ps := []) hm rfl (by simp [Write.place]) hc]
  rfl

/-- Settles O19: the accumulation by the adder in exact integers, the old P read as a signed number. -/
theorem macMsuResults : Obligations.MacMsuResults := by
  intro mode op1 op2 dst m s mw x hm hx hc a b n d r q p
  have hb : b.toInt = s.regs.p.toInt := BitVec.toInt_signExtend_of_le (by decide)
  have hwrites (f : (w : Nat) → BitVec w → BitVec w → AluOut w) :
      macWrites f mode op1 op2 dst s = .ok (writeAcc40 x (f 40 a b).r ++ [.flags (flagsOf (f 40 a b)), .prod p]) := by
    rw [macWrites, hx]
    rfl
  have hadd : addOut s.flagS 40 a b = ⟨r, !fits 40 n, decide (2 ^ 40 ≤ a.toNat + b.toNat)⟩ := by
    rw [addOut, addcore_eq (by decide), hb]
    simp [r, n]
  have hsub : subOut s.flagS 40 a b = ⟨q, !fits 40 d, decide (b.toNat ≤ a.toNat)⟩ := by
    rw [subOut_eq (by decide), hb]
  constructor
  · show runWith (macWrites _ mode op1 op2 dst s) m s = _
    rw [hwrites, runWith_accProd hm hc, flagsOf_wide, hadd]
  · show runWith (macWrites _ mode op1 op2 dst s) m s = _
    rw [hwrites, runWith_accProd hm hc, flagsOf_wide, hsub]

end
end

section
/-! The moves as the spec states them: register moves, loads and stores, two moves of one instruction, the long-address
moves, and the moves of instruction words (42_moves.md R200 to R235). -/

namespace Sys2Proof.Machine

/-! ## A move that stands alone -/

section
variable {s t : State} {ws : List Write} {e : Except Stop (List Write)}

/-- Whether writes collide depends on their places alone. -/
theorem distinctPlaces_iff_nodup : distinctPlaces ws = true ↔ (ws.map Write.place).Nodup := by
  induction ws with
  | nil => simp [distinctPlaces]
  | cons w t ih =>
    rw [distinctPlaces_cons, ih, List.map_cons, List.nodup_cons, List.mem_map]
    refine and_congr_left fun _ => ⟨fun h => ?_, fun h v hv e => h ⟨v, hv, e⟩⟩
    rintro ⟨v, hv, e⟩
    exact h v hv e

theorem runMove_completes (h : e = .ok ws) (hd : distinctPlaces ws = true) : runMove e s = .next (commit ws s) :=
  runMove_next.mpr ⟨ws, h, hd, rfl⟩

theorem runMove_clash (h : e = .ok ws) (hd : distinctPlaces ws = false) : runMove e s = .fault .doubleWrite := by
  subst h
  simp [runMove, commitAll, hd, finish, bind, Except.bind]

theorem runMove_stop {x : Stop} (h : e = .error x) : runMove e s = finish (.error x) := by
  subst h
  rfl

theorem runMove_fault {f : Fault} (h : e = .error (.fault f)) : runMove e s = .fault f := runMove_stop h

theorem runMove_refused {r : Refusal} (h : e = .error (.refuse r)) : runMove e s = .refused r := runMove_stop h

/-- NOP adds no write to its move's. -/
theorem runWith_nil (m : ParMove) (s : State) : runWith (.ok []) m s = runMove (parWrites s m) s := rfl

/-- A stop of the first of two computations is the stop of both. -/
theorem bind_error {α β : Type} {a : Except Stop α} {x : Stop} (h : a = .error x) (f : α → Except Stop β) :
    (a >>= f) = .error x := by
  subst h
  rfl

end

/-! ## Register moves -/

section
variable {s t : State} {v : Word} {r src dst : MoveReg} {ws : List Write}

theorem targetPlaces_nodup (r : MoveReg) : (targetPlaces r).Nodup := by
  cases r with
  | data d => cases d <;> decide
  | _ => simp [targetPlaces]

theorem wrreg_distinct (h : wrreg s v r = .ok ws) : distinctPlaces ws = true := by
  rw [distinctPlaces_iff_nodup, wrreg_places h]
  exact targetPlaces_nodup r

theorem wrreg_ipr0_other (h : v ≠ s.regs.ipr0) : wrreg s v .ipr0 = .error (.fault .ipr0Move) := if_neg h

/-- A value put into a register alone. -/
theorem runMove_wrreg (h : r = .ipr0 → v = s.regs.ipr0) : runMove (wrreg s v r) s = .next (putReg s r v) := by
  obtain ⟨ws, hw⟩ := (wrreg_ok s v r).mpr h
  rw [runMove_completes hw (wrreg_distinct hw), commit_wrreg hw rfl]

theorem moveWrites_from_nop (h : dst ≠ .nop) : moveWrites s .nop dst = .error (.refuse (.reserved .mvSourceNop)) := by
  rw [moveWrites, if_neg h, if_pos rfl]
  rfl

/-- A move between registers writes its source's value. -/
theorem moveWrites_eq (h : src ≠ .nop ∨ dst = .nop) : moveWrites s src dst = wrreg s (rdreg s src) dst := by
  unfold moveWrites
  split
  · subst dst
    rfl
  · exact if_neg (h.resolve_right ‹_›)

theorem ipr0_putReg (t : State) (r : MoveReg) (v : Word) : (putReg t r v).regs.ipr0 = t.regs.ipr0 := by
  cases r with
  | data d => cases d <;> rfl
  | guard x => cases x <;> rfl
  | index n => cases n <;> rfl
  | _ => rfl

end

section
variable {s : State} {xs xd ys yd : MoveReg}

/-- The double register move in steps: the halves in their order, the units, then all writes (R231). -/
theorem exec_mvDouble_eq {a b : List Write} (ha : moveWrites s xs xd = .ok a) (hb : moveWrites s ys yd = .ok b) :
    exec (.mvDouble xs xd ys yd) s =
      if sameUnit xs xd || sameUnit ys yd then .fault .mvSameUnit else finish (commitAll (a ++ b) s) := by
  show finish (moveWrites s xs xd >>= fun a => moveWrites s ys yd >>= fun b => _) = _
  rw [ha, hb]
  show finish (if _ then _ else _) = _
  split <;> rfl

theorem exec_mvDouble_first {x : Stop} (h : moveWrites s xs xd = .error x) :
    exec (.mvDouble xs xd ys yd) s = finish (.error x) := congrArg finish (bind_error h _)

theorem exec_mvDouble_second {a : List Write} {x : Stop} (ha : moveWrites s xs xd = .ok a)
    (h : moveWrites s ys yd = .error x) : exec (.mvDouble xs xd ys yd) s = finish (.error x) := by
  show finish (moveWrites s xs xd >>= fun a => moveWrites s ys yd >>= fun b => _) = _
  rw [ha]
  exact congrArg finish (bind_error h _)

/-- The writes of two register moves collide exactly where their targets share a place. -/
theorem moveWrites_apart {a b : List Write} (ha : moveWrites s xs xd = .ok a) (hb : moveWrites s ys yd = .ok b) :
    distinctPlaces (a ++ b) = true ↔ ∀ p ∈ targetPlaces xd, p ∉ targetPlaces yd := by
  rw [distinctPlaces_iff_nodup, List.map_append, moveWrites_places ha, moveWrites_places hb, List.nodup_append']
  simp only [targetPlaces_nodup, true_and]
  exact Iff.rfl

end

/-! ## Loads -/

section
variable {s t : State} {b : Bus} {n : IndexReg} {p : PostMod} {r : MoveReg} {a : Long} {v w : Word}

theorem postWrites_zero (s : State) (b : Bus) (n : IndexReg) : postWrites s b n (.amount 0) = .ok [] := rfl

theorem postWrites_of_nextIndex (hp : p ≠ .amount 0) (hw : nextIndex s b n p = .ok w) :
    postWrites s b n p = .ok [.index n w] := by
  cases p with
  | amount k =>
    have hk : k ≠ 0 := fun e => hp (by rw [e])
    cases hw
    simp [postWrites, hk]
  | star => exact postWrites_star hw

theorem nextIndex_zero (hw : nextIndex s b n (.amount 0) = .ok w) : w = s.index n := by
  cases hw
  exact BitVec.add_zero _

/-- A post-modification that gives a value sets In to it, once the access has left In alone. -/
theorem postWrites_sets (hw : nextIndex s b n p = .ok w) :
    ∃ ps, postWrites s b n p = .ok ps ∧ ∀ t : State, t.index n = s.index n → commit ps t = t.setIndex n w := by
  by_cases hp : p = .amount 0
  · subst hp
    obtain rfl := nextIndex_zero hw
    exact ⟨[], rfl, fun t ht => by rw [← ht, setIndex_index]; rfl⟩
  · exact ⟨_, postWrites_of_nextIndex hp hw, fun _ _ => rfl⟩

/-- The value of In after a post-modification that was found. -/
theorem nextIndex_of_postWrites {ps : List Write} (h : postWrites s b n p = .ok ps) :
    ∃ w, nextIndex s b n p = .ok w := by
  cases p with
  | amount k => exact ⟨_, rfl⟩
  | star =>
    obtain ⟨w, hw, -⟩ := bind_ok.mp h
    exact ⟨w, hw⟩

theorem loadWord_device {id : Nat} (h : s.kind b a = some (.device id)) :
    loadWord s b a = .ok ((deviceAnswer s id (busSpace b) a).extractLsb' 0 16) := by
  delta loadWord
  rw [h]

theorem loadWord_rom (h : s.kind b a = some .rom) : loadWord s b a = .ok (s.word b a) := by
  delta loadWord
  rw [h]

theorem loadWord_intGlobEn (h : s.kind b a = some .intGlobEn) :
    loadWord s b a = .ok (Config.freeRead s.freeCount (busIsY b)) := by
  delta loadWord
  rw [h]

theorem loadWord_unmapped (h : s.kind b a = none) : loadWord s b a = .error (.fault .unmappedAccess) := by
  delta loadWord
  rw [h]

/-- A load found is the register's write and the notice of the read. -/
theorem transfer_load (hv : loadWord s b a = .ok v) (hi : r = .ipr0 → v = s.regs.ipr0) :
    ∃ us, wrreg s v r = .ok us ∧ transfer s b a false r = .ok (us ++ readNotice s b a) := by
  obtain ⟨us, hu⟩ := (wrreg_ok s v r).mpr hi
  refine ⟨us, hu, ?_⟩
  rw [transfer, if_neg (by decide), hv]
  show (wrreg s v r >>= fun ws => _) = _
  rw [hu]
  rfl

theorem transfer_load_unmapped (h : s.kind b a = none) : transfer s b a false r = .error (.fault .unmappedAccess) :=
  bind_error (loadWord_unmapped h) _

theorem transfer_load_ipr0 (hv : loadWord s b a = .ok v) (hi : v ≠ s.regs.ipr0) :
    transfer s b a false .ipr0 = .error (.fault .ipr0Move) := by
  rw [transfer, if_neg (by decide), hv]
  exact bind_error (wrreg_ipr0_other hi) _

/-- A full move of a register, in steps. -/
theorem fullWrites_eq_bind (store : Bool) (hr : r ≠ .nop) :
    fullWrites s b { store, n, p, r } = (do
      let ws ← transfer s b ((s.index n).zeroExtend 32) store r
      let ps ← postWrites s b n p
      .ok (ws ++ ps)) := if_neg (by simpa [FullMove.isVoid] using hr)

theorem fullWrites_eq {store : Bool} {us ps : List Write} (hr : r ≠ .nop)
    (hu : transfer s b ((s.index n).zeroExtend 32) store r = .ok us) (hp : postWrites s b n p = .ok ps) :
    fullWrites s b { store, n, p, r } = .ok (us ++ ps) := by
  rw [fullWrites_eq_bind store hr, hu, hp]
  rfl

/-- An access that stops, stops the move. -/
theorem fullWrites_access_stops {store : Bool} {x : Stop} (hr : r ≠ .nop)
    (hu : transfer s b ((s.index n).zeroExtend 32) store r = .error x) :
    fullWrites s b { store, n, p, r } = .error x := by
  rw [fullWrites_eq_bind store hr]
  exact bind_error hu _

/-- A post-modification that stops, stops a move whose access is found. -/
theorem fullWrites_post_stops {store : Bool} {us : List Write} {x : Stop} (hr : r ≠ .nop)
    (hu : transfer s b ((s.index n).zeroExtend 32) store r = .ok us) (hp : postWrites s b n p = .error x) :
    fullWrites s b { store, n, p, r } = .error x := by
  rw [fullWrites_eq_bind store hr, hu]
  exact bind_error hp _

/-- With the move NOP a full move does nothing. -/
theorem runMove_full_nop (store : Bool) : runMove (fullWrites s b { store, n, p, r := .nop }) s = .next s := rfl

/-- A full move whose access stops. -/
theorem runMove_full_fault {store : Bool} {f : Fault} (hr : r ≠ .nop)
    (hu : transfer s b ((s.index n).zeroExtend 32) store r = .error (.fault f)) :
    runMove (fullWrites s b { store, n, p, r }) s = .fault f :=
  runMove_fault (fullWrites_access_stops hr hu)

/-! ### The order of a load's writes does not matter -/

theorem afterRead_putReg (s : State) (b : Bus) (a : Long) (t : State) (r : MoveReg) (v : Word) :
    commit (readNotice s b a) (putReg t r v) = putReg (commit (readNotice s b a) t) r v := by
  unfold readNotice
  split
  · cases r with
    | data d => cases d <;> rfl
    | guard x => cases x <;> rfl
    | index n => cases n <;> rfl
    | _ => rfl
  · rfl

theorem setIndex_putReg (h : r ≠ .index n) (t : State) : (putReg t r v).setIndex n w = putReg (t.setIndex n w) r v := by
  cases r with
  | data d => cases d <;> cases n <;> rfl
  | guard x => cases x <;> cases n <;> rfl
  | index k =>
    have hk : k ≠ n := fun e => h (by rw [e])
    revert hk
    cases k <;> cases n <;> simp [putReg, State.setIndex]
  | _ => cases n <;> rfl

theorem index_afterRead (s : State) (b : Bus) (a : Long) (n : IndexReg) : (afterRead s b a).index n = s.index n := by
  unfold afterRead
  split <;> cases n <;> rfl

/-- A read leaves In, so setting it to its value is no change. -/
theorem setIndex_afterRead (s : State) (b : Bus) (a : Long) (n : IndexReg) :
    (afterRead s b a).setIndex n (s.index n) = afterRead s b a := by
  have hkeep := setIndex_index (afterRead s b a) n
  rwa [index_afterRead] at hkeep

/-- What a load's register write and notice leave. -/
theorem commit_load {us : List Write} (hu : wrreg s v r = .ok us) :
    commit (us ++ readNotice s b a) s = putReg (afterRead s b a) r v := by
  rw [commit_append, commit_wrreg hu rfl, afterRead_putReg, commit_readNotice]

theorem noticePlaces_nodup (k : Option Kind) : (noticePlaces k).Nodup := by
  unfold noticePlaces
  split <;> simp

/-- A device is no register. -/
theorem device_notMem_targetPlaces (r : MoveReg) (id : Nat) : .device id ∉ targetPlaces r := by
  cases r with
  | data d => cases d <;> simp [targetPlaces, DataReg.wideAcc]
  | _ => simp [targetPlaces]

theorem load_distinct {us : List Write} (hu : wrreg s v r = .ok us) :
    distinctPlaces (us ++ readNotice s b a) = true := by
  rw [distinctPlaces_iff_nodup, List.map_append, wrreg_places hu, readNotice_places, List.nodup_append']
  refine ⟨targetPlaces_nodup r, noticePlaces_nodup _, fun p hp hq => ?_⟩
  unfold noticePlaces at hq
  split at hq
  · obtain rfl := List.mem_singleton.mp hq
    exact device_notMem_targetPlaces r _ hp
  · cases hq

theorem index_mem_targetPlaces : .index n ∈ targetPlaces r ↔ r = .index n := by
  cases r with
  | data d => cases d <;> simp [targetPlaces, DataReg.wideAcc]
  | index k => simp [targetPlaces, eq_comm]
  | _ => simp [targetPlaces]

/-- The loaded register and the notice leave In free, unless In itself is loaded. -/
theorem load_index_place {us : List Write} (hu : wrreg s v r = .ok us) :
    .index n ∈ (us ++ readNotice s b a).map Write.place ↔ r = .index n := by
  have hn : .index n ∉ noticePlaces (s.kind b a) := by
    unfold noticePlaces
    split <;> simp
  rw [List.map_append, wrreg_places hu, readNotice_places, List.mem_append, index_mem_targetPlaces]
  exact or_iff_left hn

theorem distinctPlaces_append_single {ws : List Write} {x : Write} (h : distinctPlaces ws = true) :
    distinctPlaces (ws ++ [x]) = true ↔ x.place ∉ ws.map Write.place := by
  rw [distinctPlaces_append]
  simp only [h, true_and, distinctPlaces, List.mem_singleton, forall_eq, List.mem_map, not_exists, not_and]
  simp [eq_comm]

/-- A load and its post-modification (R220, R222). -/
theorem load_completes (hr : r ≠ .nop) (hx : p ≠ .amount 0 → r ≠ .index n)
    (hv : loadWord s b ((s.index n).zeroExtend 32) = .ok v) (hw : nextIndex s b n p = .ok w)
    (hi : r = .ipr0 → v = s.regs.ipr0) :
    runMove (fullWrites s b { store := false, n, p, r }) s =
      .next (putReg ((afterRead s b ((s.index n).zeroExtend 32)).setIndex n w) r v) := by
  obtain ⟨us, hu, ht⟩ := transfer_load hv hi
  by_cases hp : p = .amount 0
  · subst hp
    obtain rfl := nextIndex_zero hw
    rw [fullWrites_eq hr ht (postWrites_zero s b n), List.append_nil, runMove_completes rfl (load_distinct hu),
      commit_load hu, setIndex_afterRead]
  · have hd : distinctPlaces (us ++ readNotice s b ((s.index n).zeroExtend 32) ++ [.index n w]) = true :=
      (distinctPlaces_append_single (load_distinct hu)).mpr fun h => hx hp ((load_index_place hu).mp h)
    rw [runMove_completes (fullWrites_eq hr ht (postWrites_of_nextIndex hp hw)) hd, commit_append, commit_load hu]
    exact congrArg _ (setIndex_putReg (hx hp) _)

/-- A load into In that is also modified writes In twice (D11). -/
theorem load_clashes (hp : p ≠ .amount 0) (hv : loadWord s b ((s.index n).zeroExtend 32) = .ok v)
    (hw : nextIndex s b n p = .ok w) :
    runMove (fullWrites s b { store := false, n, p, r := .index n }) s = .fault .doubleWrite := by
  obtain ⟨us, hu, ht⟩ := transfer_load (r := .index n) hv (fun e => nomatch e)
  refine runMove_clash (fullWrites_eq (by simp) ht (postWrites_of_nextIndex hp hw)) ?_
  rw [Bool.eq_false_iff, ne_eq, distinctPlaces_append_single (load_distinct hu)]
  exact not_not.mpr ((load_index_place hu).mpr rfl)

end

/-! ## Stores -/

section
variable {s t : State} {b : Bus} {n : IndexReg} {p : PostMod} {r : MoveReg} {a : Long} {v w : Word}

theorem storeWord_ram (h : s.kind b a = some .ram) : storeWord s b a v = .ok [.mem b a v] := by
  delta storeWord
  rw [h]

theorem storeWord_intGlobEn (h : s.kind b a = some .intGlobEn) : storeWord s b a v = .ok [.mem b a v, .intEnable] := by
  delta storeWord
  rw [h]

theorem storeWord_device {id : Nat} (h : s.kind b a = some (.device id)) :
    storeWord s b a v = .ok [.deviceWrite id (busSpace b) a (v.zeroExtend 32)] := by
  delta storeWord
  rw [h]

theorem storeWord_rom (h : s.kind b a = some .rom) : storeWord s b a v = .error (.fault .romWrite) := by
  delta storeWord
  rw [h]

theorem storeWord_unmapped (h : s.kind b a = none) : storeWord s b a v = .error (.fault .unmappedAccess) := by
  delta storeWord
  rw [h]

theorem commit_mem (t : State) : commit [.mem b a v] t = putWord t b a v := by cases b <;> rfl

theorem commit_mem_intEnable (t : State) :
    commit [.mem b a v, .intEnable] t = { putWord t b a v with intDisable := t.intDisable - 1 } := by
  cases b <;> rfl

theorem storeWord_distinct {us : List Write} (h : storeWord s b a v = .ok us) : distinctPlaces us = true := by
  rcases storeWord_ok h with ⟨-, rfl⟩ | ⟨id, -, rfl⟩ | ⟨-, rfl⟩ <;> rfl

theorem index_notMem_store {us : List Write} (h : storeWord s b a v = .ok us) : .index n ∉ us.map Write.place := by
  rcases storeWord_ok h with ⟨-, rfl⟩ | ⟨id, -, rfl⟩ | ⟨-, rfl⟩ <;> simp [Write.place]

theorem index_commit_store {us : List Write} (h : storeWord s b a v = .ok us) (t : State) :
    (commit us t).index n = t.index n := by
  rcases storeWord_ok h with ⟨-, rfl⟩ | ⟨id, -, rfl⟩ | ⟨-, rfl⟩ <;> cases b <;> cases n <;> rfl

theorem commit_store_setIndex {us : List Write} (h : storeWord s b a v = .ok us) (t : State) :
    (commit us t).setIndex n w = commit us (t.setIndex n w) := by
  rcases storeWord_ok h with ⟨-, rfl⟩ | ⟨id, -, rfl⟩ | ⟨-, rfl⟩ <;> cases b <;> cases n <;> rfl

/-- A post-modification collides with no access that leaves In free. -/
theorem access_post_distinct {us ps : List Write} (hd : distinctPlaces us = true)
    (hn : .index n ∉ us.map Write.place) (hp : postWrites s b n p = .ok ps) : distinctPlaces (us ++ ps) = true := by
  rcases postWrites_ok hp with ⟨-, rfl⟩ | ⟨-, w, -, rfl⟩
  · rwa [List.append_nil]
  · exact (distinctPlaces_append_single hd).mpr hn

/-- A store and its post-modification (R220, R222). -/
theorem store_completes {us : List Write} (hr : r ≠ .nop)
    (hu : storeWord s b ((s.index n).zeroExtend 32) (rdreg s r) = .ok us) (hw : nextIndex s b n p = .ok w) :
    runMove (fullWrites s b { store := true, n, p, r }) s = .next (commit us (s.setIndex n w)) := by
  obtain ⟨ps, hp, hset⟩ := postWrites_sets hw
  have hd := access_post_distinct (storeWord_distinct hu) (index_notMem_store hu) hp
  have hu' : transfer s b ((s.index n).zeroExtend 32) true r = .ok us := hu
  rw [runMove_completes (fullWrites_eq hr hu' hp) hd, commit_append, hset _ (index_commit_store hu s),
    commit_store_setIndex hu]

/-- STX or STY, as the full move on its bus. -/
theorem exec_store (n : IndexReg) (p : PostMod) (r : MoveReg) (b : Bus) (s : State) :
    exec (match b with | .x => .stx n p r | .y => .sty n p r) s =
      runMove (fullWrites s b { store := true, n, p, r }) s := by
  cases b <;> rfl

theorem mem_putWord_of_ne {d : Bus} (h : d ≠ b) (t : State) : (putWord t b a v).mem d = t.mem d := by
  cases b <;> cases d <;> first | rfl | exact absurd rfl h

theorem mem_putWord_same (t : State) : (putWord t b a v).mem b = (t.mem b).write16 a.toNat v := by
  cases b <;> rfl

theorem kind_putWord (t : State) (c : Bus) (d : Long) : (putWord t b a v).kind c d = t.kind c d := by
  cases b <;> cases c <;> rfl

theorem mem_setIndex (t : State) (d : Bus) : (t.setIndex n w).mem d = t.mem d := by
  cases d <;> cases n <;> rfl

theorem kind_setIndex (t : State) (c : Bus) (d : Long) : (t.setIndex n w).kind c d = t.kind c d := by
  cases c <;> cases n <;> rfl

end

/-! ## Two moves of one instruction -/

section
variable {s : State} {x y : FullMove} {i : Instr}

/-- The two instructions that make two moves. -/
theorem exec_twoMoves (s : State)
    (hi : i = .moveDouble x y ∨ ∃ u v : ShortMove, i = .moveShort u v ∧ x = shortAsFull u ∧ y = shortAsFull v) :
    exec i s = runMove (twoWrites s x y) s := by
  rcases hi with rfl | ⟨u, v, rfl, rfl, rfl⟩ <;> rfl

theorem twoWrites_shared
    (h : x.isVoid = false ∧ y.isVoid = false ∧
      sameDevice (s.kind .x ((s.index x.n).zeroExtend 32)) (s.kind .y ((s.index y.n).zeroExtend 32)) = true) :
    twoWrites s x y = .error (.fault .sameDeviceXY) := by
  obtain ⟨hx, hy, hk⟩ := h
  simp only [twoWrites, hx, hy, hk, Bool.not_false, Bool.and_self, if_true]

theorem twoWrites_unshared
    (h : ¬ (x.isVoid = false ∧ y.isVoid = false ∧
      sameDevice (s.kind .x ((s.index x.n).zeroExtend 32)) (s.kind .y ((s.index y.n).zeroExtend 32)) = true)) :
    twoWrites s x y = (do
      let ws ← fullWrites s .x x
      let vs ← fullWrites s .y y
      .ok (ws ++ vs)) := by
  refine if_neg fun e => h ?_
  simp only [Bool.and_eq_true, Bool.not_eq_true'] at e
  exact ⟨e.1.1, e.1.2, e.2⟩

theorem noClash_noPlaces (ws : List Write) : noClash [] ws = distinctPlaces ws := by simp [noClash]

end

/-! ## Long addresses -/

section
variable {s : State} {n : IndexReg} {r : MoveReg} {a : Long} {v : Word}

theorem longAddress_eq (x y : Word) : longAddress x y = BitVec.ofNat 32 (x.toNat * 2 ^ 16 + y.toNat) := by
  apply BitVec.eq_of_toNat_eq
  have hx := x.isLt
  have hy := y.isLt
  rw [longAddress, toNat_append_eq, BitVec.toNat_ofNat]
  omega

theorem longWrites_eq (store : Bool) (hr : r ≠ .nop) :
    longWrites s store n r =
      transfer s .x (BitVec.ofNat 32 ((s.index n).toNat * 2 ^ 16 + (s.index (pairOf n)).toNat)) store r := by
  rw [longWrites, if_neg hr, longAddress_eq]

theorem longWrites_nop (store : Bool) : longWrites s store n .nop = .ok [] := if_pos rfl

/-- A load without a post-modification. -/
theorem runMove_load {b : Bus} (hv : loadWord s b a = .ok v) (hi : r = .ipr0 → v = s.regs.ipr0) :
    runMove (transfer s b a false r) s = .next (putReg (afterRead s b a) r v) := by
  obtain ⟨us, hu, ht⟩ := transfer_load hv hi
  rw [runMove_completes ht (load_distinct hu), commit_load hu]

/-- A store without a post-modification. -/
theorem runMove_store {b : Bus} {us : List Write} (hu : storeWord s b a (rdreg s r) = .ok us) :
    runMove (transfer s b a true r) s = .next (commit us s) :=
  runMove_completes hu (storeWord_distinct hu)

end

/-! ## Instruction words -/

section
variable {s : State} {n : IndexReg} {p : PostMod} {x : AccName} {a : Long} {w : Word}

theorem ibusWrites_otherPage (store : Bool) (h : s.regs.ipr0 ≠ 0) :
    ibusWrites s store n p x = .error (.fault .ldiStiPage) := if_pos h

theorem ibusWrites_eq {store : Bool} {us ps : List Write} (h : s.regs.ipr0 = 0)
    (hu : ibusAccess s store ((s.index n).zeroExtend 32) x = .ok us) (hp : postWrites s .x n p = .ok ps) :
    ibusWrites s store n p x = .ok (us ++ ps) := by
  rw [ibusWrites, if_neg (by simpa using h), hu, hp]
  rfl

theorem ibusWrites_access_stops {store : Bool} {e : Stop} (h : s.regs.ipr0 = 0)
    (hu : ibusAccess s store ((s.index n).zeroExtend 32) x = .error e) : ibusWrites s store n p x = .error e := by
  rw [ibusWrites, if_neg (by simpa using h)]
  exact bind_error hu _

theorem ibusWrites_post_stops {store : Bool} {us : List Write} {e : Stop} (h : s.regs.ipr0 = 0)
    (hu : ibusAccess s store ((s.index n).zeroExtend 32) x = .ok us) (hp : postWrites s .x n p = .error e) :
    ibusWrites s store n p x = .error e := by
  rw [ibusWrites, if_neg (by simpa using h), hu]
  exact bind_error hp _

/-- An access that leaves In free, with its post-modification. -/
theorem runMove_ibus {store : Bool} {us : List Write} (h : s.regs.ipr0 = 0)
    (hu : ibusAccess s store ((s.index n).zeroExtend 32) x = .ok us) (hd : distinctPlaces us = true)
    (hn : .index n ∉ us.map Write.place) (hi : (commit us s).index n = s.index n) (hw : nextIndex s .x n p = .ok w) :
    runMove (ibusWrites s store n p x) s = .next ((commit us s).setIndex n w) := by
  obtain ⟨ps, hp, hset⟩ := postWrites_sets hw
  rw [runMove_completes (ibusWrites_eq h hu hp) (access_post_distinct hd hn hp), commit_append, hset _ hi]

theorem ibusAccess_load {v : Long} (hv : loadCode s a = .ok v) :
    ibusAccess s false a x = .ok (writeAcc40 x (v.signExtend 40) ++ codeReadNotice s a) := by
  rw [ibusAccess, if_neg (by decide), hv]
  rfl

theorem signExtend_eq_ofInt (v : Long) : v.signExtend 40 = BitVec.ofInt 40 v.toInt := by
  apply BitVec.eq_of_toInt_eq
  rw [BitVec.toInt_signExtend_of_le (by decide), BitVec.toInt_ofInt_eq_self (by decide)]
  · have := BitVec.le_toInt v
    omega
  · have := BitVec.toInt_lt (x := v)
    omega

/-- LDI where no device sees the read. -/
theorem runMove_ldi_memory {v : Long} (h : s.regs.ipr0 = 0) (hw : nextIndex s .x n p = .ok w)
    (hv : loadCode s ((s.index n).zeroExtend 32) = .ok v)
    (hk : codeReadNotice s ((s.index n).zeroExtend 32) = []) :
    runMove (ibusWrites s false n p x) s = .next (putAcc (s.setIndex n w) x (BitVec.ofInt 40 v.toInt)) := by
  have hu := ibusAccess_load (x := x) hv
  rw [hk, List.append_nil] at hu
  rw [runMove_ibus h hu (by cases x <;> rfl) (by simp [writeAcc40, Write.place]) (by cases x <;> cases n <;> rfl) hw,
    signExtend_eq_ofInt]
  cases x <;> cases n <;> rfl

/-- LDI from a device. -/
theorem runMove_ldi_device {v : Long} {id : Nat} (h : s.regs.ipr0 = 0) (hw : nextIndex s .x n p = .ok w)
    (hv : loadCode s ((s.index n).zeroExtend 32) = .ok v)
    (hk : codeReadNotice s ((s.index n).zeroExtend 32) = [.deviceRead id .i ((s.index n).zeroExtend 32)]) :
    runMove (ibusWrites s false n p x) s =
      .next { putAcc (s.setIndex n w) x (BitVec.ofInt 40 v.toInt) with
        devices := .read id .i ((s.index n).zeroExtend 32) :: s.devices } := by
  have hu := ibusAccess_load (x := x) hv
  rw [hk] at hu
  rw [runMove_ibus h hu (by cases x <;> rfl) (by simp [writeAcc40, Write.place]) (by cases x <;> cases n <;> rfl) hw,
    signExtend_eq_ofInt]
  cases x <;> cases n <;> rfl

/-- STI where the word goes. -/
theorem runMove_sti {u : Write} (h : s.regs.ipr0 = 0) (hw : nextIndex s .x n p = .ok w)
    (hu : storeCode s ((s.index n).zeroExtend 32) (s.data (accHi x) ++ s.data (accLo x)) = .ok [u])
    (hn : u.place ≠ .index n) (hi : (u.apply s).index n = s.index n) :
    runMove (ibusWrites s true n p x) s = .next ((u.apply s).setIndex n w) :=
  runMove_ibus (us := [u]) h hu rfl (by simpa using hn.symm) hi hw

end

/-! ## The sign of a 16-bit write in the guard register -/

section
variable {s t : State} {r : DataReg}

/-- The guard registers after a 16-bit write of `r` (R23). -/
def GuardsFollow (s t : State) (r : DataReg) : Prop :=
  ∀ x, t.guard x = if r = accHi x then (if (t.data r).getLsbD 15 then 0xFF#8 else 0x00#8) else s.guard x

theorem guardsFollow_putData (s : State) (r : DataReg) (v : Word) : GuardsFollow s (putData s r v) r := by
  intro x
  have hs : v.getLsbD 15 = decide (v.toInt < 0) := by rw [← msb_eq_toInt_neg]; rfl
  rw [State.data_putData_same, hs]
  unfold putData
  cases r <;> cases x <;> simp [DataReg.wideAcc, accHi, State.guard, State.setGuard, State.setData]

/-- Later writes to other places leave it so. -/
theorem GuardsFollow.of_same {u : State} (h : GuardsFollow s t r) (hg : ∀ x, u.guard x = t.guard x)
    (hd : u.data r = t.data r) : GuardsFollow s u r := by
  intro x
  rw [hg, hd, h x]

theorem guardsFollow_notice (h : GuardsFollow s t r) (b : Bus) (a : Long) :
    GuardsFollow s (commit (readNotice s b a) t) r := by
  unfold readNotice
  split
  · exact h
  · exact h

theorem guardsFollow_post {b : Bus} {n : IndexReg} {p : PostMod} {ps : List Write} (h : GuardsFollow s t r)
    (hp : postWrites s b n p = .ok ps) : GuardsFollow s (commit ps t) r := by
  rcases postWrites_ok hp with ⟨-, rfl⟩ | ⟨-, w, -, rfl⟩
  · exact h
  · exact h.of_same (fun x => by cases n <;> cases x <;> rfl) (by cases n <;> cases r <;> rfl)

theorem guardsFollow_load {b : Bus} {n : IndexReg} {p : PostMod}
    (h : runMove (fullWrites s b { store := false, n, p, r := .data r }) s = .next t) : GuardsFollow s t r := by
  obtain ⟨ws, hw, -, rfl⟩ := runMove_next.mp h
  rcases fullWrites_ok hw with ⟨hv, -⟩ | ⟨-, us, ps, hu, hp, rfl⟩
  · cases hv
  · obtain ⟨v, -, hu⟩ := bind_ok.mp hu
    cases hu
    rw [commit_append, commit_append, commit_writeData16]
    exact guardsFollow_post (guardsFollow_notice (guardsFollow_putData s r v) _ _) hp

theorem guardsFollow_wrreg {v : Word} (h : runMove (wrreg s v (.data r)) s = .next t) : GuardsFollow s t r := by
  rw [runMove_wrreg (by simp)] at h
  cases h
  exact guardsFollow_putData s r v

end

end Sys2Proof.Machine

/-! ## The statements -/

section
open Sys2Proof Sys2Proof.Machine

/-- Settles O21: both are the write of a register (`runMove_wrreg`); a move between registers is one too
(`moveWrites_eq`). -/
theorem ldcAndMvResults : Obligations.LdcAndMvResults := by
  intro c src dst s
  refine ⟨fun h => runMove_wrreg h, fun hd hc => ?_, fun hs h => ?_, fun hs hd hv => ?_, fun hs hd => ?_⟩
  · subst hd
    exact runMove_stop (wrreg_ipr0_other hc)
  · show runMove (moveWrites s src dst) s = _
    rw [moveWrites_eq hs, runMove_wrreg h]
  · subst hd
    exact runMove_stop ((moveWrites_eq (.inl hs)).trans (wrreg_ipr0_other hv))
  · subst hs
    exact runMove_stop (moveWrites_from_nop hd)

/-- Settles O22: each half is found, reserved, or stops at IPR0; then the units and the shared places decide. -/
theorem mvDoubleResult : Obligations.MvDoubleResult := by
  intro xs xd ys yd s sourceOk fine apart
  have found {src dst : MoveReg} (h : fine src dst) :
      ∃ ws, moveWrites s src dst = .ok ws ∧ wrreg s (rdreg s src) dst = .ok ws := by
    obtain ⟨ws, hw⟩ := (wrreg_ok s (rdreg s src) dst).mpr h.2
    exact ⟨ws, (moveWrites_eq h.1).trans hw, hw⟩
  have refused {src dst : MoveReg} (h : ¬ sourceOk src dst) :
      moveWrites s src dst = .error (.refuse (.reserved .mvSourceNop)) := by
    obtain ⟨hs, hd⟩ := not_or.mp h
    obtain rfl := not_not.mp hs
    exact moveWrites_from_nop hd
  have stops {src dst : MoveReg} (hs : sourceOk src dst) (h : ¬ fine src dst) :
      moveWrites s src dst = .error (.fault .ipr0Move) := by
    obtain ⟨rfl, hv⟩ := Classical.not_imp.mp fun h' => h ⟨hs, h'⟩
    exact (moveWrites_eq hs).trans (wrreg_ipr0_other hv)
  refine ⟨fun hx hy => ?_, ?_, ?_⟩
  · obtain ⟨a, ha, hax⟩ := found hx
    obtain ⟨b, hb, hby⟩ := found hy
    rw [exec_mvDouble_eq ha hb]
    simp only [← sameUnit_iff]
    refine ⟨fun h => if_pos (by simpa using h), fun h1 h2 hp => ?_, fun h1 h2 hp => ?_⟩
    · rw [if_neg (by simp [h1, h2]), finish_next, commitAll_ok]
      refine ⟨(moveWrites_apart ha hb).mpr hp, ?_⟩
      rw [commit_append, commit_wrreg hax rfl, commit_wrreg hby (ipr0_putReg ..)]
    · rw [if_neg (by simp [h1, h2]), commitAll, if_neg (fun h => hp ((moveWrites_apart ha hb).mp h))]
      rfl
  · rintro (h | ⟨hx, hy⟩)
    · exact exec_mvDouble_first (refused h)
    · exact exec_mvDouble_second (found hx).choose_spec.1 (refused hy)
  · rintro (⟨hs, hx⟩ | ⟨hx, hs, hy⟩)
    · exact exec_mvDouble_first (stops hs hx)
    · exact exec_mvDouble_second (found hx).choose_spec.1 (stops hs hy)

/-- Settles O23: NOP adds no write to its move's (`runWith_nil`). -/
theorem nopCarriesMoves : Obligations.NopCarriesMoves := by
  intro s
  refine ⟨fun m hm => ?_, fun m mw hm hc => ?_, fun _ _ _ => rfl, fun _ _ _ => rfl, fun _ _ _ => rfl, fun _ _ _ => rfl,
    fun _ _ => rfl, fun _ _ => rfl, fun _ _ => rfl, fun _ _ => rfl, fun _ _ _ => rfl, fun _ _ _ => rfl⟩
  · exact runMove_completes (parWrites_void hm s) rfl
  · exact runMove_completes hm ((noClash_noPlaces mw).symm.trans hc)

/-- Settles O24, on both buses at once by `load_completes`, `load_clashes` and the stops of an access. -/
theorem loadResults : Obligations.LoadResults := by
  intro n p r s
  refine ⟨fun b a => ⟨?_, fun h => ⟨_, loadWord_intGlobEn h⟩, fun id h => loadWord_device h⟩, ?_, ?_, ?_, ?_, ?_⟩
  · rintro (h | h)
    · exact loadWord_ram h
    · exact loadWord_rom h
  · rintro rfl
    exact ⟨runMove_full_nop (b := .x) (n := n) (p := p) false, runMove_full_nop (b := .y) (n := n) (p := p) false⟩
  · intro hr hx
    exact ⟨fun v w hv hw hi => load_completes hr hx hv hw hi, fun v w hv hw hi => load_completes hr hx hv hw hi⟩
  · intro hr
    exact ⟨fun h => runMove_full_fault hr (transfer_load_unmapped h),
      fun h => runMove_full_fault hr (transfer_load_unmapped h)⟩
  · rintro rfl hp
    exact ⟨fun v w hv hw => load_clashes hp hv hw, fun v w hv hw => load_clashes hp hv hw⟩
  · rintro rfl
    have hr : MoveReg.ipr0 ≠ .nop := by simp
    exact ⟨fun v hv hi => runMove_full_fault hr (transfer_load_ipr0 hv hi),
      fun v hv hi => runMove_full_fault hr (transfer_load_ipr0 hv hi)⟩

/-- Settles O25: `store_completes` for each kind of address a store can be found at. -/
theorem storeResults : Obligations.StoreResults := by
  intro n p r b s i a
  have hexec : exec i s = runMove (fullWrites s b { store := true, n, p, r }) s := exec_store n p r b s
  rw [hexec]
  refine ⟨fun hr => hr ▸ runMove_full_nop true, fun hr w hw => ⟨fun h => ?_, fun h => ?_, fun id h => ?_⟩,
    fun hr h => ?_, fun hr h => ?_⟩
  · rw [store_completes hr (storeWord_ram h) hw, commit_mem]
  · rw [store_completes hr (storeWord_intGlobEn h) hw, commit_mem_intEnable, State.intDisable_setIndex]
  · rw [store_completes hr (storeWord_device h) hw]
    rw [← State.devices_setIndex s n w]
    rfl
  · exact runMove_full_fault hr (storeWord_rom h)
  · exact runMove_full_fault hr (storeWord_unmapped h)

/-- Settles O26: the state after the store is one word written, and that word reads back. -/
theorem loadAfterStore : Obligations.LoadAfterStore := by
  intro n p r b s t hr i a hram h
  have hexec : exec i s = runMove (fullWrites s b { store := true, n, p, r }) s := exec_store n p r b s
  rw [hexec] at h
  have hpost : ∃ w, nextIndex s b n p = .ok w := by
    obtain ⟨ws, hws, -, -⟩ := runMove_next.mp h
    rcases fullWrites_ok hws with ⟨hv, -⟩ | ⟨-, us, ps, -, hps, -⟩
    · exact absurd (of_decide_eq_true hv) hr
    · exact nextIndex_of_postWrites hps
  obtain ⟨w, hw⟩ := hpost
  rw [store_completes hr (storeWord_ram hram) hw, commit_mem] at h
  cases h
  refine ⟨?_, fun c hc => ?_, fun d hd => ?_⟩
  · rw [loadWord_ram (by rw [kind_putWord, kind_setIndex]; exact hram), State.word, mem_putWord_same,
      Memory.read16_write16_same]
  · have hne : c.toNat ≠ a.toNat := fun e => hc (BitVec.eq_of_toNat_eq e)
    rw [State.word, mem_putWord_same, Memory.read16_write16_of_ne _ _ _ _ _ hne, mem_setIndex, State.word]
  · rw [mem_putWord_of_ne hd, mem_setIndex]

/-- Settles O27: both instructions make `twoWrites`, whose parts are taken in turn. -/
theorem doubleMoveResults : Obligations.DoubleMoveResults := by
  intro s x y i hi shared
  rw [exec_twoMoves s hi]
  refine ⟨fun h => runMove_stop (twoWrites_shared h), fun h => ?_⟩
  rw [twoWrites_unshared h]
  refine ⟨fun e he => runMove_stop (bind_error he _), fun xw hx => ?_⟩
  rw [hx]
  refine ⟨fun e he => runMove_stop (bind_error he _), fun yw hy => ?_⟩
  rw [hy, noClash_noPlaces, ← commit_append]
  exact ⟨fun hd => runMove_completes rfl hd, fun hd => runMove_clash rfl hd⟩

/-- Settles O28: the access at the long address (`longWrites_eq`), with no post-modification. -/
theorem longMoveResults : Obligations.LongMoveResults := by
  intro n r s a
  have hexec (store : Bool) (hr : r ≠ .nop) : longWrites s store n r = transfer s .x a store r := longWrites_eq store hr
  have hload (hr : r ≠ .nop) : exec (.ldxLong n r) s = runMove (transfer s .x a false r) s :=
    congrArg (runMove · s) (hexec false hr)
  have hstore (hr : r ≠ .nop) : exec (.stxLong n r) s = runMove (transfer s .x a true r) s :=
    congrArg (runMove · s) (hexec true hr)
  refine ⟨?_, fun hr v hv hi => (hload hr).trans (runMove_load hv hi), ?_, fun hr => ?_, fun hr h => ?_⟩
  · rintro rfl
    exact ⟨runMove_completes (ws := []) (longWrites_nop (n := n) (s := s) false) rfl,
      runMove_completes (ws := []) (longWrites_nop (n := n) (s := s) true) rfl⟩
  · rintro rfl v hv hi
    exact (hload (by simp)).trans (runMove_stop (transfer_load_ipr0 hv hi))
  · rw [hstore hr]
    refine ⟨fun h => ?_, fun h => ?_, fun id h => ?_, fun h => runMove_stop (storeWord_rom h)⟩
    · rw [runMove_store (storeWord_ram h), commit_mem]
    · rw [runMove_store (storeWord_intGlobEn h), commit_mem_intEnable]
    · rw [runMove_store (storeWord_device h)]
      rfl
  · exact ⟨(hload hr).trans (runMove_stop (transfer_load_unmapped h)),
      (hstore hr).trans (runMove_stop (storeWord_unmapped h))⟩

/-- Settles O29: the access of the I space for each kind of address, with its post-modification. -/
theorem codeMoveResults : Obligations.CodeMoveResults := by
  intro n p x s a
  refine ⟨fun hp w hw => ⟨fun hk => ?_, fun hk => ?_, fun id hk => ⟨?_, ?_⟩⟩, fun hp => ?_,
    fun hp => ⟨fun hk => ?_, fun hk => ?_⟩⟩
  · have hv : loadCode s a = .ok (s.codeWord a) := by rcases hk with hk | hk <;> simp [loadCode, hk]
    have hn : codeReadNotice s a = [] := by rcases hk with hk | hk <;> simp [codeReadNotice, hk]
    exact runMove_ldi_memory hp hw hv hn
  · have hu : storeCode s a (s.data (accHi x) ++ s.data (accLo x)) =
        .ok [.code a (s.data (accHi x) ++ s.data (accLo x))] := by
      simp [storeCode, hk]
    refine (runMove_sti hp hw hu (by simp [Write.place]) (by cases n <;> rfl)).trans ?_
    cases n <;> rfl
  · have hv : loadCode s a = .ok (deviceAnswer s id .i a) := by simp [loadCode, hk]
    have hn : codeReadNotice s a = [.deviceRead id .i a] := by simp [codeReadNotice, hk]
    exact runMove_ldi_device hp hw hv hn
  · have hu : storeCode s a (s.data (accHi x) ++ s.data (accLo x)) =
        .ok [.deviceWrite id .i a (s.data (accHi x) ++ s.data (accLo x))] := by
      simp [storeCode, hk]
    refine (runMove_sti hp hw hu (by simp [Write.place]) (by cases n <;> rfl)).trans ?_
    cases n <;> rfl
  · exact ⟨runMove_stop (ibusWrites_otherPage false hp), runMove_stop (ibusWrites_otherPage true hp)⟩
  · have hl : ibusAccess s false a x = .error (.fault .unmappedAccess) :=
      bind_error (show loadCode s a = _ by simp [loadCode, hk]) _
    have hs : ibusAccess s true a x = .error (.fault .unmappedAccess) := by simp [ibusAccess, storeCode, hk]
    exact ⟨runMove_stop (ibusWrites_access_stops hp hl), runMove_stop (ibusWrites_access_stops hp hs)⟩
  · have hs : ibusAccess s true a x = .error (.fault .romWrite) := by simp [ibusAccess, storeCode, hk]
    exact runMove_stop (ibusWrites_access_stops hp hs)

/-- Settles O45: each way ends in `putData`, and what else it writes is neither a guard register nor the result. -/
theorem signExtendsIntoGuard : Obligations.SignExtendsIntoGuard := by
  intro r s t h
  rcases h with ⟨c, h⟩ | ⟨src, h⟩ | ⟨n, p, h⟩ | ⟨n, p, h⟩ | ⟨op1, op2, m, h1, h2, hm, h⟩
  · exact guardsFollow_wrreg (v := c) h
  · by_cases hs : src = .nop
    · subst hs
      have hstop : exec (.mv .nop (.data r)) s = .refused (.reserved .mvSourceNop) :=
        runMove_refused (s := s) (e := moveWrites s .nop (.data r)) (moveWrites_from_nop (by simp))
      cases hstop.symm.trans h
    · have h : runMove (moveWrites s src (.data r)) s = .next t := h
      rw [moveWrites_eq (.inl hs)] at h
      exact guardsFollow_wrreg h
  · exact guardsFollow_load h
  · exact guardsFollow_load h
  · have hadd := runWith_alu2_narrow (f := addOut s.flagS) (dst := r) (parWrites_void hm s) h1 h2 (noClash_nil _) rfl
    cases hadd.symm.trans h
    exact (guardsFollow_putData s r _).of_same (fun x => by cases x <;> rfl) (State.data_putFlags _ _ _)

end
end

section
/-! The post-modifications by the pair register: the circular buffer, bit reversal, and the modes AMM disables (42_moves.md
R209 to R214). -/

namespace Sys2Proof.Machine

/-! ## The circular buffer -/

/-- The alignment found is the least that holds the buffer. -/
theorem alignExp_eq {len k : Nat} (hk : len ≤ 2 ^ k) (hleast : ∀ j, len ≤ 2 ^ j → k ≤ j) (fuel : Nat) :
    ∀ k₀, k₀ ≤ k → k ≤ k₀ + fuel → alignExp len k₀ fuel = k := by
  induction fuel with
  | zero => intro k₀ h0 h1; exact Nat.le_antisymm h0 h1
  | succ fuel ih =>
    intro k₀ h0 h1
    unfold alignExp
    split
    · exact Nat.le_antisymm h0 (hleast k₀ ‹_›)
    · have hne : k₀ ≠ k := fun e => ‹¬ _› (e ▸ hk)
      exact ih (k₀ + 1) (by omega) (by omega)

/-- Below a multiple of `2^k`, adding less than `2^k` to it stays below the next. -/
theorem block_add_lt {c k x : Nat} (hc : c < 2 ^ 16) (hk : k ≤ 16) (hx : x < 2 ^ k) : c - c % 2 ^ k + x < 2 ^ 16 := by
  have hsplit : (2 : Nat) ^ 16 = 2 ^ k * 2 ^ (16 - k) := by rw [← pow_add]; congr 1; omega
  have hblock : c - c % 2 ^ k = 2 ^ k * (c / 2 ^ k) := by
    have := Nat.div_add_mod c (2 ^ k)
    omega
  have hq : c / 2 ^ k + 1 ≤ 2 ^ (16 - k) := by
    rw [Nat.succ_le_iff, Nat.div_lt_iff_lt_mul (by positivity), Nat.mul_comm, ← hsplit]
    exact hc
  calc c - c % 2 ^ k + x < 2 ^ k * (c / 2 ^ k) + 2 ^ k := by omega
    _ = 2 ^ k * (c / 2 ^ k + 1) := by ring
    _ ≤ 2 ^ k * 2 ^ (16 - k) := Nat.mul_le_mul_left _ hq
    _ = 2 ^ 16 := hsplit.symm

/-- Inside its buffer the pointer moves modulo the length from the base (R209). -/
theorem modWrap_eq {cur : Word} {step : Int} {len k : Nat} (hlen : len ≤ 2 ^ 13) (hk : len ≤ 2 ^ k)
    (hleast : ∀ j, len ≤ 2 ^ j → k ≤ j) (hoff : cur.toNat % 2 ^ k < len) (hup : step ≤ len)
    (hdown : -(len : Int) ≤ step) :
    ∃ v, modWrap cur step len = some v ∧ (v.toNat : Int) =
      ((cur.toNat - cur.toNat % 2 ^ k : Nat) : Int) + (((cur.toNat % 2 ^ k : Nat) : Int) + step) % len := by
  have hk13 : k ≤ 13 := hleast 13 hlen
  have halign : alignExp len 0 16 = k := alignExp_eq hk hleast 16 0 (by omega) (by omega)
  unfold modWrap
  simp only [halign]
  rw [if_neg (by omega)]
  refine ⟨_, rfl, ?_⟩
  generalize hoff' : cur.toNat % 2 ^ k = off at *
  have hnonneg : 0 ≤ ((off : Int) + step) % len := Int.emod_nonneg _ (by omega)
  have hlt : ((off : Int) + step) % len < len := Int.emod_lt_of_pos _ (by omega)
  have hsmall : cur.toNat - off + (((off : Int) + step) % len).toNat < 2 ^ 16 := by
    have := block_add_lt (k := k) (x := (((off : Int) + step) % len).toNat) cur.isLt (by omega) (by omega)
    rwa [hoff'] at this
  rw [BitVec.toNat_ofNat, Nat.mod_eq_of_lt hsmall]
  omega

section
variable {s : State} {n : IndexReg}

/-- A modulo code takes its step and length from the fields of its mode (R210 to R212). -/
theorem starMod_modulo (b : Bus) {len : Nat} {step : Int}
    (h : let m := s.index (pairOf n)
      let mode := m.extractLsb' 13 3
      (mode = 0b001#3 ∧ step = (m.extractLsb' 6 7).toInt ∧ len = (m.extractLsb' 0 6).toNat + 1) ∨
      (mode = 0b010#3 ∧ step = (m.extractLsb' 6 8).toInt ∧ len = (m.extractLsb' 0 6).toNat * 64 + 64) ∨
      (mode = 0b011#3 ∧ step = (m.extractLsb' 6 8).toInt ∧ len = (m.extractLsb' 0 6).toNat * 64 + 64) ∨
      (mode = 0b100#3 ∧ step = 1 ∧ len = (m.extractLsb' 0 13).toNat + 1) ∨
      (mode = 0b101#3 ∧ step = -1 ∧ len = (m.extractLsb' 0 13).toNat + 1)) :
    starMod s b n = moduloMod s b (s.index n) step len ∧ len ≤ 2 ^ 13 := by
  have h6 := ((s.index (pairOf n)).extractLsb' 0 6).isLt
  have h13 := ((s.index (pairOf n)).extractLsb' 0 13).isLt
  rcases h with ⟨hm, rfl, rfl⟩ | ⟨hm, rfl, rfl⟩ | ⟨hm, rfl, rfl⟩ | ⟨hm, rfl, rfl⟩ | ⟨hm, rfl, rfl⟩ <;>
    exact ⟨by simp only [starMod, hm]; rfl, by omega⟩

end

/-! ## Bit reversal -/

theorem revBits_lt (k : Nat) : ∀ x, revBits k x < 2 ^ k := by
  induction k with
  | zero => intro x; simp [revBits]
  | succ k ih =>
    intro x
    have := ih (x / 2)
    have hbit : x % 2 ≤ 1 := by omega
    have : x % 2 * 2 ^ k ≤ 1 * 2 ^ k := Nat.mul_le_mul_right _ hbit
    rw [revBits, pow_succ]
    omega

/-- Bit `i` of the reversed number is bit `k-1-i` (R213). -/
theorem testBit_revBits (k : Nat) : ∀ x i, (revBits k x).testBit i = (decide (i < k) && x.testBit (k - 1 - i)) := by
  induction k with
  | zero => intro x i; simp [revBits]
  | succ k ih =>
    intro x i
    rw [revBits, Nat.mul_comm, Nat.testBit_two_pow_mul_add _ (revBits_lt k _)]
    split
    · rename_i hi
      rw [ih, Nat.testBit_div_two, show k - 1 - i + 1 = k + 1 - 1 - i by omega]
      simp [hi, Nat.lt_succ_of_lt hi]
    · rename_i hi
      by_cases hik : i = k
      · subst hik
        simp [Nat.testBit_zero]
      · have h2 : x % 2 < 2 ^ (i - k) :=
          lt_of_lt_of_le (Nat.mod_lt _ (by decide)) (Nat.le_self_pow (by omega) 2)
        rw [Nat.testBit_lt_two_pow h2]
        simp [show ¬ i < k + 1 by omega]

/-- Reversing twice gives the number back. -/
theorem revBits_revBits {k x : Nat} (hx : x < 2 ^ k) : revBits k (revBits k x) = x := by
  apply Nat.eq_of_testBit_eq
  intro i
  rw [testBit_revBits, testBit_revBits]
  by_cases hi : i < k
  · rw [show k - 1 - (k - 1 - i) = i by omega]
    simp [hi, show k - 1 - i < k by omega]
  · have hclear : x.testBit i = false :=
      Nat.testBit_lt_two_pow (lt_of_lt_of_le hx (Nat.pow_le_pow_right (by decide) (by omega)))
    simp [hi, hclear]

/-- The highest 1 bit is where the number's size says. -/
theorem topBit_eq {x k : Nat} (hlow : 2 ^ k ≤ x) (hhigh : x < 2 ^ (k + 1)) (j : Nat) (hj : k < j) :
    topBit x j = k + 1 := by
  induction j with
  | zero => omega
  | succ j ih =>
    by_cases hjk : j = k
    · subst hjk
      have htop : x.testBit j = true := by
        rw [Nat.testBit_eq_decide_div_mod_eq, decide_eq_true_eq]
        have hdiv : x / 2 ^ j = 1 := by
          rw [Nat.div_eq_iff (by positivity)]
          rw [pow_succ] at hhigh
          omega
        rw [hdiv]
      simp [topBit, htop]
    · have hclear : x.testBit j = false :=
        Nat.testBit_lt_two_pow (lt_of_lt_of_le hhigh (Nat.pow_le_pow_right (by decide) (by omega)))
      rw [topBit, hclear]
      exact ih (by omega)

theorem bitReverse_empty (cur : Word) : bitReverse cur 0 = cur := by
  have htop : topBit 0 13 = 0 := by decide
  simp [bitReverse, htop, revBits, Nat.mod_one]

/-- Bit-reversed addition in the low `k + 1` bits (R213). -/
theorem bitReverse_eq {cur : Word} {mm k : Nat} (hmm : mm < 2 ^ 13) (hlow : 2 ^ k ≤ mm) (hhigh : mm < 2 ^ (k + 1)) :
    (bitReverse cur mm).toNat / 2 ^ (k + 1) = cur.toNat / 2 ^ (k + 1) ∧
      revBits (k + 1) ((bitReverse cur mm).toNat % 2 ^ (k + 1)) =
        (revBits (k + 1) (cur.toNat % 2 ^ (k + 1)) + revBits (k + 1) mm) % 2 ^ (k + 1) := by
  have hk : k < 13 := (Nat.pow_lt_pow_iff_right (by decide)).mp (lt_of_le_of_lt hlow hmm)
  generalize hsum : (revBits (k + 1) (cur.toNat % 2 ^ (k + 1)) + revBits (k + 1) mm) % 2 ^ (k + 1) = sum
  have hsumlt : sum < 2 ^ (k + 1) := hsum ▸ Nat.mod_lt _ (by positivity)
  have hrev := revBits_lt (k + 1) sum
  have hv : (bitReverse cur mm).toNat = cur.toNat - cur.toNat % 2 ^ (k + 1) + revBits (k + 1) sum := by
    simp only [bitReverse, topBit_eq hlow hhigh 13 hk, Nat.mod_eq_of_lt hhigh, hsum]
    rw [BitVec.toNat_ofNat, Nat.mod_eq_of_lt (block_add_lt cur.isLt (by omega) hrev)]
  have hblock : cur.toNat - cur.toNat % 2 ^ (k + 1) = 2 ^ (k + 1) * (cur.toNat / 2 ^ (k + 1)) := by
    have := Nat.div_add_mod cur.toNat (2 ^ (k + 1))
    omega
  rw [hv, hblock]
  refine ⟨?_, ?_⟩
  · rw [Nat.mul_add_div (by positivity), Nat.div_eq_of_lt hrev, Nat.add_zero]
  · rw [Nat.mul_add_mod, Nat.mod_eq_of_lt hrev, revBits_revBits hsumlt]

/-! ## The modes AMM disables -/

section
variable {s : State} {n : IndexReg}

/-- A modulo mode or bit reversal that AMM disables (R214). -/
theorem starMod_disabled (b : Bus)
    (h : let mode := ((s.index (pairOf n)).extractLsb' 13 3).toNat
      (1 ≤ mode ∧ mode ≤ 5 ∧ s.plat.amm.getLsbD 0 = false) ∨ (mode = 6 ∧ s.plat.amm.getLsbD 1 = false)) :
    starMod s b n = .error (.fault .ammDisabled) := by
  rcases h with ⟨hlow, hhigh, hamm⟩ | ⟨hmode, hamm⟩
  · have hmodulo (cur : Word) (step : Int) (len : Nat) :
        moduloMod s b cur step len = .error (.fault .ammDisabled) := if_neg (by rw [hamm]; exact Bool.false_ne_true)
    simp only [starMod]
    generalize ((s.index (pairOf n)).extractLsb' 13 3).toNat = mode at hlow hhigh
    obtain rfl | rfl | rfl | rfl | rfl : mode = 1 ∨ mode = 2 ∨ mode = 3 ∨ mode = 4 ∨ mode = 5 := by omega
    all_goals exact hmodulo _ _ _
  · simp only [starMod, hmode, hamm]
    rfl

theorem postWrites_star_stops {b : Bus} {e : Stop} (h : starMod s b n = .error e) :
    postWrites s b n .star = .error e := bind_error h _

theorem ne_nop_of_notVoid {f : FullMove} (h : f.isVoid = false) : f.r ≠ .nop := of_decide_eq_false h

/-- A full move by a disabled mode, its access found. -/
theorem fullWrites_star_stops {b : Bus} {f : FullMove} {e : Stop} {ws : List Write} (hf : f.isVoid = false)
    (hp : f.p = .star) (ht : transfer s b ((s.index f.n).zeroExtend 32) f.store f.r = .ok ws)
    (hstar : starMod s b f.n = .error e) : fullWrites s b f = .error e :=
  fullWrites_post_stops (ne_nop_of_notVoid hf) ht (hp ▸ postWrites_star_stops hstar)

end

end Sys2Proof.Machine

/-! ## The statements -/

section
open Sys2Proof Sys2Proof.Machine

/-- Settles O31: the value is the model's free one, or that of `modWrap_eq`. -/
theorem starModulo : Obligations.StarModulo := by
  intro s b n len k step hamm h hk hleast off base
  obtain ⟨hstar, hlen⟩ := starMod_modulo b h
  rw [hstar, moduloMod, if_pos hamm]
  refine ⟨_, rfl, fun hoff hup hdown => ?_⟩
  obtain ⟨v, hv, hval⟩ := modWrap_eq hlen hk hleast hoff hup hdown
  rw [hv]
  exact hval

/-- Settles O32, by `bitReverse_empty` and `bitReverse_eq`. -/
theorem starBitReverse : Obligations.StarBitReverse := by
  intro s b n hamm hmode mm
  have hstar : starMod s b n = .ok (bitReverse (s.index n) mm) := by
    simp only [starMod, hmode]
    exact if_pos hamm
  rw [hstar]
  refine ⟨fun h => by rw [h, bitReverse_empty], fun k hlow hhigh => ⟨_, rfl, ?_⟩⟩
  exact bitReverse_eq (BitVec.isLt _) hlow hhigh

/-- Settles O33: the modification stops, and every access that is found makes it next. -/
theorem disabledModeStops : Obligations.DisabledModeStops := by
  intro n s mode a hmode
  have hstar (b : Bus) : starMod s b n = .error (.fault .ammDisabled) := starMod_disabled b hmode
  refine ⟨hstar, fun b store r ws hr ht => ?_, fun x y ws i hi hshared h => ?_, fun store x ws hp hu => ?_⟩
  · have hfull : fullWrites s b { store, n, p := .star, r } = .error (.fault .ammDisabled) :=
      fullWrites_post_stops hr ht (postWrites_star_stops (hstar b))
    have halone : runMove (fullWrites s b { store, n, p := .star, r }) s = .fault .ammDisabled := runMove_fault hfull
    exact ⟨hfull, by cases b <;> cases store <;> exact halone, halone⟩
  · rw [exec_twoMoves s hi, twoWrites_unshared hshared]
    rcases h with ⟨hn, hp, hx, ht⟩ | ⟨⟨us, hus⟩, hn, hp, hy, ht⟩
    · subst hn
      exact runMove_fault (bind_error (fullWrites_star_stops hx hp ht (hstar .x)) _)
    · subst hn
      rw [hus]
      exact runMove_fault (bind_error (fullWrites_star_stops hy hp ht (hstar .y)) _)
  · have halone : runMove (ibusWrites s store n .star x) s = .fault .ammDisabled :=
      runMove_fault (ibusWrites_post_stops hp hu (postWrites_star_stops (hstar .x)))
    exact ⟨by cases store <;> exact halone, halone⟩

end
end

section
/-! The program control instructions as the spec states them, the halt, the interrupt entry, the reset, and the step that
runs an instruction (43_control.md R252 to R275, 60_exceptions.md R293 to R302, 70_reset_and_hazards.md R320). -/

namespace Sys2Proof.Machine

/-! ## Addresses -/

theorem add_two_eq_ofNat (a : Word) : a + 2#16 = BitVec.ofNat 16 (a.toNat + 2) := by
  apply BitVec.eq_of_toNat_eq
  rw [BitVec.toNat_add, BitVec.toNat_ofNat]
  rfl

theorem vectorAddr_eq_ofNat (n : BitVec 5) : vectorAddr n = BitVec.ofNat 16 (0x20 + n.toNat) := by
  apply BitVec.eq_of_toNat_eq
  have hn := n.isLt
  rw [vectorAddr, BitVec.toNat_add, BitVec.toNat_setWidth, BitVec.toNat_ofNat, Nat.mod_eq_of_lt (a := n.toNat) (by omega)]
  rfl

/-! ## A step that runs an instruction -/

section
variable {s t u v : State} {i : Instr} {n : BitVec 5}

theorem nextEvent_idle_atBoundary (h : nextEvent s = .idle) : AtBoundary s (dropEvent s) := .inl ⟨h, rfl⟩

theorem nextEvent_request_atBoundary (h : nextEvent s = .request n) : AtBoundary s (presentRequest n (dropEvent s)) :=
  .inr ⟨n, h, rfl⟩

theorem coreStep_halted (h : s.halted = true) : coreStep s = .next s := if_pos h

theorem presentRequest_dropped (h : ¬ (s.intDisable = 0 ∧ s.irq = none)) : presentRequest n s = s := if_neg h

theorem presentRequest_taken (hd : s.intDisable = 0) (hi : s.irq = none) :
    presentRequest n s =
      { s with irq := some n, intDisable := 1, halted := false, wake := if s.halted then 3 else s.wake } := by
  rw [presentRequest, if_pos ⟨hd, hi⟩, hd]
  rfl

/-- A core with nothing due fetches. -/
theorem coreStep_fetches (hh : u.halted = false) (he : entryDue u = none) : coreStep u = runNext u := by
  delta coreStep
  rw [hh, he]
  rfl

theorem runNext_unmapped (h : u.codeKind u.fetchAddr = none) : runNext u = .fault .unmappedAccess := by
  have hf : fetch u = .error (.fault .unmappedAccess) := by
    delta fetch loadCode
    rw [h]
  delta runNext
  rw [hf]
  rfl

theorem runNext_reserved {w : Long} {tag : Reserved} (hf : fetch u = .ok w) (hd : decode w = .error tag) :
    runNext u = .refused (.reserved tag) := by
  delta runNext
  rw [hf]
  dsimp only
  rw [hd]

/-- The step of a core that runs `i`. -/
theorem Runs.step_eq (h : Runs u i) (hb : AtBoundary s u) : step s = runInstr i (afterFetch u) :=
  hb.step_eq.trans h.coreStep_eq

theorem runInstr_restricted {f : Fault} (h : sequenceFault i s = some f) : runInstr i s = .fault f := by
  delta runInstr
  rw [h]

theorem runInstr_faults {f : Fault} (h : sequenceFault i s = none) (hf : exec i (clearPending s) = .fault f) :
    runInstr i s = .fault f := by
  delta runInstr
  rw [h]
  dsimp only
  rw [hf]

theorem runInstr_refused {r : Refusal} (h : sequenceFault i s = none) (hr : exec i (clearPending s) = .refused r) :
    runInstr i s = .refused r := by
  delta runInstr
  rw [h]
  dsimp only
  rw [hr]

theorem runInstr_retires (h : sequenceFault i s = none) (ht : exec i (clearPending s) = .next t) :
    runInstr i s = finish (retire i s t) := by
  delta runInstr
  rw [h]
  dsimp only
  rw [ht]

theorem retire_hazard (h : loopHazard i s t = true) : retire i s t = .error (.fault .loopRegisterHazard) := if_pos h

theorem retire_eq (h : loopHazard i s t = false) :
    retire i s t = nextPc i s.pending s.prev2LoopWrite t >>= fun v => .ok (record i s v) :=
  if_neg (by rw [h]; exact Bool.false_ne_true)

/-- The step that executes `i`: what is left is where control goes. -/
theorem Executes.step_eq (h : Executes u i t) (hb : AtBoundary s u) :
    step s = finish (nextPc i u.pending u.prev2LoopWrite t >>= fun v => .ok (record i (afterFetch u) v)) := by
  rw [h.runs.step_eq hb, runInstr_retires (by simpa using h.allowed) h.meaning, retire_eq (by simpa using h.noHazard)]
  rfl

theorem Executes.step_next (h : Executes u i t) (hb : AtBoundary s u)
    (hv : nextPc i u.pending u.prev2LoopWrite t = .ok v) : step s = .next (record i (afterFetch u) v) := by
  rw [h.step_eq hb, hv]
  rfl

theorem Executes.step_fault {f : Fault} (h : Executes u i t) (hb : AtBoundary s u)
    (hv : nextPc i u.pending u.prev2LoopWrite t = .error (.fault f)) : step s = .fault f := by
  rw [h.step_eq hb, hv]
  rfl

/-! ### Where control goes -/

theorem nextPc_transfer {tr : Transfer} {sup : Bool} (hj : isJmpi i = false) :
    nextPc i (some tr) sup t = .ok (takeTransfer tr t) := if_neg (by rw [hj]; exact Bool.false_ne_true)

theorem nextPc_noTransfer {sup : Bool} (hj : isJmpi i = false) :
    nextPc i none sup t =
      if loopEndDetected t sup && decide (t.regs.lc ≠ 0) then
        .ok { t with regs.lc := t.regs.lc - 1#16, regs.pc := t.regs.ls }
      else advance t := if_neg (by rw [hj]; exact Bool.false_ne_true)

theorem loopEndDetected_iff {sup : Bool} :
    loopEndDetected t sup = true ↔ t.regs.pc = t.regs.le ∧ t.flagL = false ∧ sup = false := by
  simp [loopEndDetected, and_assoc]

theorem nextPc_restarts {sup : Bool} (hj : isJmpi i = false)
    (hend : t.regs.pc = t.regs.le ∧ t.flagL = false ∧ sup = false) (hlc : t.regs.lc ≠ 0#16) :
    nextPc i none sup t = .ok { t with regs.lc := t.regs.lc - 1#16, regs.pc := t.regs.ls } := by
  rw [nextPc_noTransfer hj, if_pos]
  simpa [loopEndDetected_iff.mpr hend] using hlc

theorem nextPc_advances {sup : Bool} (hj : isJmpi i = false)
    (h : ¬ (t.regs.pc = t.regs.le ∧ t.flagL = false ∧ sup = false) ∨ t.regs.lc = 0#16) :
    nextPc i none sup t = advance t := by
  rw [nextPc_noTransfer hj, if_neg]
  intro hboth
  obtain ⟨hend, hlc⟩ := Bool.and_eq_true_iff.mp hboth
  rcases h with h | h
  · exact h (loopEndDetected_iff.mp hend)
  · exact of_decide_eq_true hlc h

theorem advance_eq (h : t.regs.pc ≠ 0xFFFF#16) : advance t = .ok { t with regs.pc := t.regs.pc + 1#16 } := by
  have hnext : advancePc t.regs.pc = some (t.regs.pc + 1#16) := if_neg h
  delta advance
  rw [hnext]

theorem advance_wraps (h : t.regs.pc = 0xFFFF#16) : advance t = .error (.fault .pcWrap) := by
  have hnone : advancePc t.regs.pc = none := if_pos h
  delta advance
  rw [hnone]

theorem toNat_succ {a : Word} (h : a ≠ 0xFFFF#16) : (a + 1#16).toNat = a.toNat + 1 := by
  have hlt := a.isLt
  have hne : a.toNat ≠ 0xFFFF := fun e => h (BitVec.eq_of_toNat_eq e)
  have hone : (1#16 : Word).toNat = 1 := rfl
  rw [BitVec.toNat_add, hone, Nat.mod_eq_of_lt (by omega)]

/-! ### Interrupt entry -/

theorem coreStep_entry (hh : u.halted = false) (he : entryDue u = some n) : coreStep u = finish (entryStep n u) := by
  delta coreStep
  rw [hh, he]
  rfl

/-- What entry leaves, with the vector as the spec writes it (R296, R297). -/
theorem enterInterrupt_eq (n : BitVec 5) (s : State) :
    enterInterrupt n s =
      { s with
        regs.lr1 := s.regs.pc, regs.ipr1 := s.regs.ipr0, regs.ipr0 := 0#16, regs.mr0 := packL s.regs.mr0 true
        regs.pc := BitVec.ofNat 16 (0x20 + n.toNat), irq := none, prev := none, prev2LoopWrite := false
        atVector := true } := by
  rw [enterInterrupt, vectorAddr_eq_ofNat]
  rfl

/-- The step of a core that has an interrupt due. -/
theorem step_enters (hb : AtBoundary s u) (hh : u.halted = false) (he : entryDue u = some n)
    (hj : prevIs u Past.plainJmpi = false) : step s = .next (enterInterrupt n u) := by
  rw [hb.step_eq, coreStep_entry hh he, entryStep, if_neg (by rw [hj]; exact Bool.false_ne_true)]
  rfl

theorem step_entry_refused (hb : AtBoundary s u) (hh : u.halted = false) (he : entryDue u = some n)
    (hj : prevIs u Past.plainJmpi = true) : step s = .fault .interruptAfterJmpi := by
  rw [hb.step_eq, coreStep_entry hh he, entryStep, if_pos hj]
  rfl

/-! ### The disable count never goes up in an instruction -/

theorem Write.apply_intDisable_le (w : Write) (s : State) : (w.apply s).intDisable ≤ s.intDisable := by
  cases w with
  | data r v => exact le_of_eq (s.intDisable_setData r v)
  | guard x v => exact le_of_eq (s.intDisable_setGuard x v)
  | index n v => exact le_of_eq (s.intDisable_setIndex n v)
  | mem b a v => cases b <;> exact le_refl _
  | intEnable => exact Nat.sub_le _ _
  | _ => exact le_refl _

theorem commit_intDisable_le (ws : List Write) (s : State) : (commit ws s).intDisable ≤ s.intDisable := by
  induction ws generalizing s with
  | nil => exact le_refl _
  | cons w t ih => exact (ih _).trans (w.apply_intDisable_le s)

theorem exec_intDisable_le (h : exec i s = .next t) : t.intDisable ≤ s.intDisable := by
  by_cases hd : isDelayedCof i = true
  · obtain ⟨lr0, lc, ls, le, p, rfl, -⟩ := exec_delayedCof h hd
    exact le_refl _
  by_cases hj : isJmpi i = true
  · obtain ⟨a, mode, n, rfl⟩ := isJmpi_iff.mp hj
    cases h
    exact le_of_eq (s.intDisable_setIndex n _)
  by_cases hh : i = .halt
  · subst hh
    rcases exec_halt_eq h with rfl | ⟨-, rfl⟩ <;> exact le_refl _
  · obtain ⟨ws, rfl, -⟩ := exec_commits h (by simp [isCof, hd, hj]) hh
    exact commit_intDisable_le ws s

end

/-! ## JMPI -/

theorem jmpiAmount_eq (mode : JmpiMode) :
    jmpiAmount mode = BitVec.ofInt 16 (match mode with | .keep => 0 | .inc => 1 | .dec => -1) := by
  cases mode <;> rfl

end Sys2Proof.Machine

/-! ## The statements -/

section
open Sys2Proof Sys2Proof.Machine

/-- Settles O34: each meaning, with the address after the delay slot as a sum. -/
theorem jumpResults : Obligations.JumpResults := by
  intro addr n c s transfer
  refine ⟨rfl, ?_, ?_, ?_, rfl, rfl⟩
  · rw [← add_two_eq_ofNat]
    rfl
  · show Host.Outcome.next (if condHolds s c then delayedReturn s.regs.lr0 none s else s.setL false) = _
    simp only [transfer]
    split <;> rfl
  · show Host.Outcome.next (if condHolds s c then delayedReturn s.regs.lr0 (some (s.index n)) s else s.setL false) = _
    simp only [transfer]
    split <;> rfl

/-- Settles O35, from `exec_jmpi_eq`: an index register, PC and IPR0 are all that JMPI writes. -/
theorem jmpiResult : Obligations.JmpiResult := by
  intro addr mode n s d
  have hd : jmpiAmount mode = BitVec.ofInt 16 d := jmpiAmount_eq mode
  rw [exec_jmpi_eq, hd]
  refine ⟨_, rfl, rfl, rfl, ?_, fun k hk => ?_, ?_, ?_, ?_, ?_, ?_⟩
  · exact s.index_setIndex_same n _
  · exact s.index_setIndex_of_ne _ hk
  · exact s.mr0_setIndex n _
  · exact s.xmem_setIndex n _
  · exact s.ymem_setIndex n _
  · exact s.imem_setIndex n _
  · exact s.pending_setIndex n _

/-- Settles O36: the two branches of LOOP's meaning. -/
theorem loopResult : Obligations.LoopResult := by
  intro r addr s
  refine ⟨fun h => ?_, fun h => if_neg (by rw [h]; exact Bool.false_ne_true)⟩
  rw [← add_two_eq_ofNat]
  exact if_pos h

/-- Settles O37: HALT by its branches; a halted core's step is the event taken off the schedule. -/
theorem haltWaits : Obligations.HaltWaits := by
  intro s
  refine ⟨fun h => ?_, fun h => ?_, fun hh he => ?_, fun hh hd n he => ?_⟩
  · exact congrArg Host.Outcome.next (if_pos h)
  · exact congrArg Host.Outcome.next (if_neg h)
  · exact (nextEvent_idle_atBoundary he).step_eq.trans (coreStep_halted hh)
  · have hdropped : presentRequest n (dropEvent s) = dropEvent s :=
      presentRequest_dropped fun h => Nat.ne_of_gt hd h.1
    rw [(nextEvent_request_atBoundary he).step_eq, hdropped]
    exact coreStep_halted hh

/-- Settles O38: each condition is its row of Table 1 by definition. -/
theorem conditionTable : Obligations.ConditionTable := fun _ =>
  ⟨rfl, rfl, rfl, rfl, rfl, rfl, rfl, rfl, rfl, rfl, rfl, rfl, rfl, rfl, rfl⟩

/-- Settles O46: the step is `runInstr`, and each of its branches is one of the clauses. -/
theorem stepRunsDecodedInstruction : Obligations.StepRunsDecodedInstruction := by
  intro s u i hb w
  refine ⟨fun hrun => ?_, fun hh he => ?_⟩
  · rw [hrun.step_eq hb]
    refine ⟨fun f hf => runInstr_restricted hf,
      fun hq => ⟨fun f hf => runInstr_faults hq hf, fun r hr => runInstr_refused hq hr, fun t ht => ?_⟩⟩
    rw [runInstr_retires hq ht]
    refine ⟨fun hhaz => by rw [retire_hazard hhaz]; rfl, fun hno v hv => ?_⟩
    rw [retire_eq hno, hv]
    rfl
  · rw [hb.step_eq, coreStep_fetches hh he]
    exact ⟨fun h => runNext_unmapped h, fun w tag hf hd => runNext_reserved hf hd⟩

/-- Settles O47: a pending transfer wins over the loop end and the advance (`nextPc_transfer`). -/
theorem delaySlotThenTarget : Obligations.DelaySlotThenTarget := by
  intro s u t i tr hb hex hj hpending
  have hpc : nextPc i u.pending u.prev2LoopWrite t = .ok (takeTransfer tr t) := by rw [hpending, nextPc_transfer hj]
  refine ⟨_, hex.step_next hb hpc, rfl, rfl, rfl, rfl, fun r => ?_⟩
  cases r <;> rfl

/-- Settles O48: with no transfer pending the loop end is taken (`nextPc_restarts`) or control advances. -/
theorem loopEndAndAdvance : Obligations.LoopEndAndAdvance := by
  intro s u t i hb hex hj hpending atEnd
  have hnone (x : Except Stop State) (h : nextPc i none u.prev2LoopWrite t = x) :
      nextPc i u.pending u.prev2LoopWrite t = x := by rw [hpending, h]
  refine ⟨fun hend hlc => ?_, fun h => ⟨fun hpc => ?_, fun hpc => ?_⟩⟩
  · have hv := hnone _ (nextPc_restarts hj hend hlc)
    exact ⟨_, hex.step_next hb hv, rfl, rfl, rfl, rfl⟩
  · have hv := hnone _ ((nextPc_advances hj h).trans (advance_eq hpc))
    exact ⟨_, hex.step_next hb hv, toNat_succ hpc, rfl, rfl, rfl⟩
  · exact hex.step_fault hb (hnone _ ((nextPc_advances hj h).trans (advance_wraps hpc)))

/-- Settles O50: entry at the boundary (`step_enters`), and its first clause in the state that presents the request. -/
theorem interruptEntry : Obligations.InterruptEntry := by
  intro s n
  refine ⟨fun u hb hh hi hw hd => ⟨fun hj => ?_, fun hj => ?_⟩, fun he hh hdis hi hw hd hj => ?_⟩
  · rw [step_enters hb hh (entryDue_some.mpr ⟨hi, hw, hd⟩) hj, enterInterrupt_eq]
  · exact step_entry_refused hb hh (entryDue_some.mpr ⟨hi, hw, hd⟩) hj
  · have htaken : presentRequest n (dropEvent s) = { dropEvent s with irq := some n, intDisable := 1 } := by
      rw [presentRequest_taken (s := dropEvent s) hdis hi]
      obtain ⟨⟩ := s
      cases hh
      rfl
    have hb : AtBoundary s { dropEvent s with irq := some n, intDisable := 1 } :=
      htaken ▸ nextEvent_request_atBoundary he
    rw [step_enters hb hh (entryDue_some.mpr ⟨rfl, hw, hd⟩) hj, enterInterrupt_eq]
    obtain ⟨⟩ := s
    cases hi
    rfl

/-- Settles O51: the request is presented in full; the instruction of the same step keeps it latched. -/
theorem requestLatchesAndWakes : Obligations.RequestLatchesAndWakes := by
  intro s n
  refine ⟨fun hd hi => presentRequest_taken hd hi, fun h => presentRequest_dropped (by tauto), ?_⟩
  intro he hh hd hi u i t v hnext hq hexec hretire
  have hu : u = { dropEvent s with irq := some n, intDisable := 1, halted := false, wake := 3 } := by
    have htaken : u = _ := presentRequest_taken (s := dropEvent s) (n := n) hd hi
    rw [htaken, if_pos (show (dropEvent s).halted = true from hh)]
  have hirq : u.irq = some n := by rw [hu]
  have hwake : u.wake = 3 := by rw [hu]
  have hcount : u.intDisable = 1 := by rw [hu]
  have hawake : u.halted = false := by rw [hu]
  have hnoEntry : entryDue u = none := by simp [entryDue, hirq, hwake]
  have hrun : Runs u i := ⟨hawake, hnoEntry, hnext⟩
  have hidden := exec_sameHidden hexec
  obtain ⟨-, t', hpc, rfl⟩ := retire_ok hretire
  obtain ⟨pc, lc, ipr0, rfl⟩ := nextPc_eq hpc
  refine ⟨?_, hidden.irq.trans hirq, ?_, ?_, (exec_intDisable_le hexec).trans (le_of_eq hcount)⟩
  · rw [hrun.step_eq (nextEvent_request_atBoundary he), runInstr_retires (s := afterFetch u) hq hexec, hretire]
    rfl
  · show t.halted = false
    by_cases hhalt : i = .halt
    · subst hhalt
      rcases exec_halt_eq hexec with rfl | ⟨hidle, -⟩
      · exact hawake
      · exact absurd (hirq.symm.trans hidle) (by simp)
    · exact (exec_halted hexec hhalt).trans hawake
  · show t.wake - 1 = 2
    rw [show t.wake = 3 from hidden.wake.trans hwake]

/-- Settles O52: the step of a reset is `resetCore`. -/
theorem resetEvent : Obligations.ResetEvent := by
  intro s h
  have hstep : step s = .next (resetCore (dropEvent s)) := by simp only [step, runEvent, h]
  exact ⟨_, hstep, rfl, rfl, rfl, rfl, rfl, rfl, rfl, rfl, rfl, rfl, rfl, rfl, rfl, rfl⟩

/-- Settles O53: the fields of the state after reset, register by register. -/
theorem resetValues : Obligations.ResetValues := by
  refine ⟨fun p x y i => ?_, rfl, rfl⟩
  refine ⟨fun r => by cases r <;> rfl, fun q => by cases q <;> rfl, rfl, fun n => by cases n <;> rfl, ?_⟩
  exact ⟨rfl, rfl, rfl, rfl, rfl, rfl, rfl, rfl, rfl, rfl, rfl, rfl, rfl, rfl, rfl, rfl, rfl, rfl, rfl, rfl, rfl⟩

end
end

section
/-! The forbidden sequences, the window of R331 and the record that a step leaves of its instruction
(70_reset_and_hazards.md R325 to R332, 10_state.md R51). -/

namespace Sys2Proof.Machine

/-! ## The restrictions, as the spec words them -/

section
variable {s : State} {i : Instr}

theorem prevIs_iff {q : Past → Bool} : prevIs s q = true ↔ ∃ p, s.prev = some p ∧ q p = true := by
  unfold prevIs
  cases s.prev <;> simp

theorem isConditional_iff : isConditional i = true ↔ ∃ c, condOf i = some c ∧ c ≠ .always := by
  unfold isConditional
  cases condOf i <;> simp

theorem atLoopEnd_iff :
    atLoopEnd i s = true ↔
      (isCof i = true ∧ isJmpi i = false ∧ (s.regs.pc = s.regs.le ∨ s.regs.pc + 1#16 = s.regs.le)) ∨
        (isJmpi i = true ∧ s.flagL = false ∧ (s.regs.pc = s.regs.le ∨ s.regs.pc + 1#16 = s.regs.le)) := by
  simp only [atLoopEnd, isCof]
  cases isJmpi i <;> cases isDelayedCof i <;> cases s.flagL <;> simp

theorem fetchedAfterSti_iff :
    fetchedAfterSti s = true ↔ s.regs.ipr0 = 0#16 ∧ ∃ p, s.prev = some p ∧ p.stiAddr = some s.regs.pc := by
  simp [fetchedAfterSti, prevIs_iff]

/-- No restriction stops the instruction exactly where none of the six conditions holds. -/
theorem sequenceFault_none_iff :
    sequenceFault i s = none ↔
      ¬ (fetchedAfterSti s = true ∨ (s.atVector = true ∧ isJmpi i = false) ∨
        (isCof i = true ∧ prevIs s Past.delayedCof = true) ∨ (isCof i = true ∧ prevIs s Past.usedIbus = true) ∨
        atLoopEnd i s = true ∨ (isConditional i = true ∧ prevIs s Past.wroteFlags = true)) := by
  simp only [sequenceFault, Bool.and_eq_true, Bool.not_eq_true']
  split_ifs <;> simp_all

end

/-! ## What an instruction is, as the record words it -/

section
variable {s : State} {i : Instr}

theorem isDelayedCof_iff : isDelayedCof i = true ↔ DelayedCof i := by
  cases i <;> simp [isDelayedCof, DelayedCof]

/-- The arithmetic flags are among the places of exactly the instructions that write them. -/
theorem flags_mem_touches_iff : .flags ∈ touches s i ↔ writesFlags i = true := by
  have hmove (m : ParMove) : .flags ∉ movePlaces s m := fun h => (movePlaces_plain h).1 rfl
  have hfull (b : Bus) (f : FullMove) : .flags ∉ fullPlaces s b f := hmove (.full b f)
  have htarget (r : MoveReg) : .flags ∉ targetPlaces r := hmove (.mv .null r)
  cases i with
  | jmpi a mode n =>
    simp only [touches, writesFlags]
    split <;> simp
  | _ => simp [touches, writesFlags, hmove, hfull, htarget]

theorem usesIbus_iff : usesIbus i = true ↔ ∃ store n q x, .ibus store n q x ∈ movesOf i := by
  simp only [usesIbus, List.any_eq_true]
  constructor
  · rintro ⟨m, hm, h⟩
    cases m with
    | ibus store n q x => exact ⟨store, n, q, x, hm⟩
    | _ => cases h
  · rintro ⟨store, n, q, x, hm⟩
    exact ⟨_, hm, rfl⟩

/-- The STI of an instruction is its only move. -/
theorem movesOf_of_ibus {store : Bool} {n : IndexReg} {q : PostMod} {x : AccName} (h : .ibus store n q x ∈ movesOf i) :
    movesOf i = [.ibus store n q x] := by
  cases i <;> simp_all [movesOf]

theorem stiIndex_iff {n : IndexReg} : stiIndex i = some n ↔ ∃ q x, .ibus true n q x ∈ movesOf i := by
  constructor
  · intro h
    obtain ⟨m, hm, hmatch⟩ := List.exists_of_findSome?_eq_some h
    split at hmatch
    · cases hmatch
      exact ⟨_, _, hm⟩
    · cases hmatch
  · rintro ⟨q, x, hm⟩
    exact stiIndex_of_moves (movesOf_of_ibus hm)

/-- A move puts LC on a bus by a store or as the source of a register move. -/
theorem lc_mem_busSources {m : ParMove} :
    .lc ∈ busSources m ↔ (∃ b n p, m = .full b { store := true, n := n, p := p, r := .lc }) ∨
      (∃ n, m = .longX true n .lc) ∨ ∃ dst, dst ≠ .nop ∧ m = .mv .lc dst := by
  cases m with
  | full b f =>
    obtain ⟨store, n, p, r⟩ := f
    cases store <;> simp [busSources, eq_comm]
  | short x y => cases hx : x.store <;> cases hy : y.store <;> simp [busSources, hx, hy]
  | mv src dst => by_cases hd : dst = .nop <;> simp [busSources, hd, eq_comm]
  | longX store n r => cases store <;> simp [busSources, eq_comm]
  | ibus store n p x => simp [busSources]

theorem readsLc_iff : ReadsLc i ↔ ∃ m ∈ movesOf i, .lc ∈ busSources m := by
  simp only [lc_mem_busSources]
  constructor
  · rintro (⟨b, n, p, hm⟩ | ⟨n, hm⟩ | ⟨dst, hd, hm⟩)
    · exact ⟨_, hm, .inl ⟨b, n, p, rfl⟩⟩
    · exact ⟨_, hm, .inr (.inl ⟨n, rfl⟩)⟩
    · exact ⟨_, hm, .inr (.inr ⟨dst, hd, rfl⟩)⟩
  · rintro ⟨m, hm, ⟨b, n, p, rfl⟩ | ⟨n, rfl⟩ | ⟨dst, hd, rfl⟩⟩
    · exact .inl ⟨b, n, p, hm⟩
    · exact .inr (.inl ⟨n, hm⟩)
    · exact .inr (.inr ⟨dst, hd, hm⟩)

theorem isLoopReg_iff {r : MoveReg} : isLoopReg r = true ↔ r = .lc ∨ r = .ls ∨ r = .le := by
  cases r <;> simp [isLoopReg]

/-- An instruction other than LOOP writes LC, LS or LE by a move or by LDC. -/
theorem writesLoop_iff (hl : ∀ c a, i ≠ .loop c a) : WritesLoop s i ↔ ∃ r ∈ moveTargets i, isLoopReg r = true := by
  rw [WritesLoop, mem_touches_iff (r := .lc) rfl hl, mem_touches_iff (r := .ls) rfl hl, mem_touches_iff (r := .le) rfl hl]
  simp only [isLoopReg_iff]
  constructor
  · rintro (h | h | h)
    · exact ⟨_, h, .inl rfl⟩
    · exact ⟨_, h, .inr (.inl rfl)⟩
    · exact ⟨_, h, .inr (.inr rfl)⟩
  · rintro ⟨r, h, rfl | rfl | rfl⟩
    · exact .inl h
    · exact .inr (.inl h)
    · exact .inr (.inr h)

theorem writesFlags_or_mr0_iff :
    (writesFlags i || (moveTargets i).any (fun r => decide (r = .mr0))) = true ↔
      .flags ∈ touches s i ∨ .mr0 ∈ touches s i := by
  have hmr0 : .mr0 ∈ touches s i ↔ .mr0 ∈ moveTargets i := by
    by_cases hl : ∃ c a, i = .loop c a
    · obtain ⟨c, a, rfl⟩ := hl
      simp [touches, moveTargets, movesOf]
    · exact mem_touches_iff (r := .mr0) rfl fun c a e => hl ⟨c, a, e⟩
  rw [Bool.or_eq_true, flags_mem_touches_iff, hmr0]
  simp

theorem touchesLoop_iff : touchesLoop i = true ↔ TouchesLoop s i := by
  by_cases hl : ∃ c a, i = .loop c a
  · obtain ⟨c, a, rfl⟩ := hl
    have hcof : isDelayedCof (.loop c a) = true := rfl
    simp [touchesLoop, TouchesLoop, ← isDelayedCof_iff, hcof]
  · have hl' : ∀ c a, i ≠ .loop c a := fun c a e => hl ⟨c, a, e⟩
    rw [TouchesLoop, ← isDelayedCof_iff, writesLoop_iff hl', mem_touches_iff (r := .mr0) rfl hl', readsLc_iff]
    simp only [touchesLoop, Bool.or_eq_true, List.any_eq_true, decide_eq_true_eq]
    constructor
    · rintro ((hcof | ⟨r, hr, hloop | rfl⟩) | ⟨r, hr, rfl⟩)
      · exact .inl hcof
      · exact .inr (.inl ⟨r, hr, hloop⟩)
      · exact .inr (.inr (.inl hr))
      · exact .inr (.inr (.inr (List.mem_flatMap.mp hr)))
    · rintro (hcof | ⟨r, hr, hloop⟩ | hr | hr)
      · exact .inl (.inl hcof)
      · exact .inl (.inr ⟨r, hr, .inl hloop⟩)
      · exact .inl (.inr ⟨_, hr, .inr rfl⟩)
      · exact .inr ⟨_, List.mem_flatMap.mpr hr, rfl⟩

theorem writesLoopByBus_iff :
    writesLoopByBus i = true ↔ WritesLoop s i ∧ (∀ c r, i ≠ .ldc c r) ∧ ∀ r a, i ≠ .loop r a := by
  by_cases hl : ∃ c a, i = .loop c a
  · obtain ⟨c, a, rfl⟩ := hl
    simp [writesLoopByBus, movesOf]
  by_cases hc : ∃ c r, i = .ldc c r
  · obtain ⟨c, r, rfl⟩ := hc
    simp [writesLoopByBus, movesOf]
  have hl' : ∀ c a, i ≠ .loop c a := fun c a e => hl ⟨c, a, e⟩
  have hc' : ∀ c r, i ≠ .ldc c r := fun c r e => hc ⟨c, r, e⟩
  have htargets : moveTargets i = (movesOf i).flatMap busTargets := by
    cases i with
    | ldc c r => exact absurd rfl (hc' c r)
    | _ => rfl
  rw [writesLoop_iff hl', htargets, writesLoopByBus, List.any_eq_true]
  exact ⟨fun h => ⟨h, hc', hl'⟩, fun h => h.1⟩

/-- The record a step keeps says of its instruction what R51 lists. -/
theorem records_pastOf (i : Instr) (s : State) : Records s i (pastOf i s) where
  delayedCof := isDelayedCof_iff
  plainJmpi := by simp [pastOf, isJmpi_iff]
  wroteFlags := writesFlags_or_mr0_iff
  usedIbus := usesIbus_iff
  stiAddr := fun a => by
    simp only [pastOf, Option.map_eq_some_iff, stiIndex_iff]
    constructor
    · rintro ⟨n, ⟨q, x, hm⟩, rfl⟩
      exact ⟨n, q, x, hm, rfl⟩
    · rintro ⟨n, q, x, hm, rfl⟩
      exact ⟨n, ⟨q, x, hm⟩, rfl⟩
  touchedLoop := touchesLoop_iff
  busLoopWrite := writesLoopByBus_iff
  leBefore := rfl
  lBefore := rfl

end

/-! ## The window -/

section
variable {s t u v : State} {i : Instr}

/-- The hazard is the window of R331. -/
theorem loopHazard_iff : loopHazard i s t = true ↔ LoopWindow s t i := by
  unfold loopHazard LoopWindow
  simp only [Bool.and_eq_true, Bool.or_eq_true, decide_eq_true_eq, Bool.not_eq_true', prevIs_iff, touchesLoop_iff (s := s)]
  cases hp : s.prev with
  | none =>
    constructor
    · rintro ⟨⟨hpc, hflag⟩, htouch⟩
      exact ⟨_, _, by simp, fun _ => ⟨rfl, rfl⟩, hpc, hflag, htouch⟩
    · rintro ⟨le0, l0, -, h, hpc, hflag, htouch⟩
      obtain ⟨rfl, rfl⟩ := h rfl
      exact ⟨⟨hpc, hflag⟩, htouch⟩
  | some p =>
    constructor
    · rintro ⟨⟨hpc, hflag⟩, htouch⟩
      exact ⟨_, _, fun q hq => by cases hq; exact ⟨rfl, rfl⟩, by simp, hpc, hflag, htouch⟩
    · rintro ⟨le0, l0, h, -, hpc, hflag, htouch⟩
      obtain ⟨rfl, rfl⟩ := h p rfl
      exact ⟨⟨hpc, hflag⟩, htouch⟩

/-- Past the window only the end of the address space stops the step. -/
theorem finish_nextPc_ne_hazard {was : Option Transfer} {sup : Bool} {f : State → State} :
    finish (nextPc i was sup t >>= fun v => .ok (f v)) ≠ .fault .loopRegisterHazard := by
  cases hj : isJmpi i with
  | true =>
    have hstay : nextPc i was sup t = .ok t := if_pos hj
    rw [hstay]
    exact fun h => nomatch h
  | false =>
    cases was with
    | some tr =>
      rw [nextPc_transfer hj]
      exact fun h => nomatch h
    | none =>
      rw [nextPc_noTransfer hj]
      split
      · exact fun h => nomatch h
      · by_cases hpc : t.regs.pc = 0xFFFF#16
        · rw [advance_wraps hpc]
          exact fun h => nomatch h
        · rw [advance_eq hpc]
          exact fun h => nomatch h

theorem runInstr_wake (h : runInstr i s = .next v) : v.wake = s.wake - 1 := by
  obtain ⟨t, w, hexec, hpc, rfl⟩ := runInstr_parts h
  obtain ⟨pc, lc, ipr0, rfl⟩ := nextPc_eq hpc
  exact congrArg (· - 1) (exec_sameHidden hexec).wake

end

end Sys2Proof.Machine

/-! ## The statement -/

section
open Sys2Proof Sys2Proof.Machine

/-- Settles O49: the restrictions by `sequenceFault_none_iff`, the window by `loopHazard_iff`, the record by
`records_pastOf`. -/
theorem forbiddenSequencesStop : Obligations.ForbiddenSequencesStop := by
  intro s u i hb hrun forbidden
  have hstep : step s = runInstr i (afterFetch u) := hrun.step_eq hb
  have hforbidden : sequenceFault i u = none ↔ ¬ forbidden := by
    rw [sequenceFault_none_iff, atLoopEnd_iff, fetchedAfterSti_iff, isConditional_iff, prevIs_iff, prevIs_iff, prevIs_iff]
    refine not_congr ?_
    simp only [forbidden]
    constructor
    · rintro (⟨hpage, p, hp, hsti⟩ | hvector | ⟨hcof, p, hp, h⟩ | ⟨hcof, p, hp, h⟩ | (hend | hend) | ⟨hcond, p, hp, h⟩)
      · exact .inr (.inr (.inl ⟨p, hp, .inr (.inr ⟨hpage, hsti⟩)⟩))
      · exact .inr (.inr (.inr hvector))
      · exact .inr (.inr (.inl ⟨p, hp, .inl ⟨hcof, .inl h⟩⟩))
      · exact .inr (.inr (.inl ⟨p, hp, .inl ⟨hcof, .inr h⟩⟩))
      · exact .inl hend
      · exact .inr (.inl hend)
      · exact .inr (.inr (.inl ⟨p, hp, .inr (.inl ⟨h, hcond⟩)⟩))
    · rintro (hend | hend | ⟨p, hp, ⟨hcof, h | h⟩ | ⟨h, hcond⟩ | ⟨hpage, hsti⟩⟩ | hvector)
      · exact .inr (.inr (.inr (.inr (.inl (.inl hend)))))
      · exact .inr (.inr (.inr (.inr (.inl (.inr hend)))))
      · exact .inr (.inr (.inl ⟨hcof, p, hp, h⟩))
      · exact .inr (.inr (.inr (.inl ⟨hcof, p, hp, h⟩)))
      · exact .inr (.inr (.inr (.inr (.inr ⟨hcond, p, hp, h⟩))))
      · exact .inl ⟨hpage, p, hp, hsti⟩
      · exact .inr (.inl hvector)
  refine ⟨fun hf => ?_, hforbidden.mpr, fun t hq hexec => ?_, fun v hv => ?_⟩
  · obtain ⟨f, hfault⟩ := Option.ne_none_iff_exists'.mp fun hnone => hforbidden.mp hnone hf
    exact ⟨f, hstep.trans (runInstr_restricted hfault)⟩
  · rw [hstep, runInstr_retires (s := afterFetch u) hq hexec, ← loopHazard_iff]
    refine ⟨fun hhaz => ?_, fun hno => ?_⟩
    · rw [retire_hazard (s := afterFetch u) hhaz]
      rfl
    · rw [retire_eq (s := afterFetch u) (Bool.eq_false_of_not_eq_true hno)]
      exact finish_nextPc_ne_hazard
  · have hv' : runInstr i (afterFetch u) = .next v := hstep.symm.trans hv
    have hwake : v.wake = u.wake - 1 := runInstr_wake (s := afterFetch u) hv'
    obtain ⟨t, w, -, -, rfl⟩ := runInstr_parts hv'
    exact ⟨⟨_, rfl, records_pastOf i u⟩, prevIs_iff (s := u), hwake, rfl⟩

end
end
